-- ==== Sys2Proof/Word.lean ====
section
/-! DEFINITION. The types of the spec's bytes, words and double-words (00_scope.md R5, R6, R7). -/

namespace Sys2Proof

/-- One byte of the flash, of a chunk or of a Frame. -/
abbrev Byte := BitVec 8

/-- A 32-bit value: an address (`ADDR_W = 32`, R6, D6), the counter (`COUNT_W = 32`, R5), a metadata field, a checksum. -/
abbrev Word := BitVec 32

/-- The flash program granule, eight bytes in address order (R5 `WORD_SIZE = 8`, R35). -/
abbrev DWord := Vector Byte 8

/-- `2^ADDR_W`, the size of the address space (R6, R30). -/
abbrev addressSpace : Nat := 4294967296

/-- `2^COUNT_W`, one more than the largest value of `AW.count` (R5). -/
abbrev counterSpace : Nat := 4294967296

/-- `ERASED = PAD = 0xFF`: every erased flash byte, and the pad byte of the final double-word (R5, C2). -/
abbrev erasedByte : Byte := 0xFF#8

end Sys2Proof
end

