-- ==== Sys2Proof/Config.lean ====
section
/-! DEFINITION. What an implementation fixes (00_scope.md R6, 10_state.md R17) and the free values.

The open parameters are a record of plain data, `Params`, that State carries and no operation writes: a statement about
every state is a statement about every choice of them. The functions and draws the spec leaves open are constants without a
body, of which nothing can be proved. -/

namespace Sys2Proof

/-- A FlashRegion, "{start address, end address}", the end not included (R31, D32). -/
structure Region where
  start : Nat
  stop  : Nat
deriving DecidableEq, Repr

/-- The constants fixed when the block and its bootloader are built (R6, R17, R130). -/
structure Params where
  /-- `APP_BASE`, the first address of the application region (R31). -/
  appBase : Word
  /-- `APP_MAX`, the capacity of the application region in bytes (R31). -/
  appMax : Nat
  /-- `META_BASE`, the first address of the metadata sector (R32). -/
  metaBase : Word
  /-- `META_MAX`, the declared usable size of the metadata sector (R32). -/
  metaMax : Nat
  /-- `META_SECTOR_SIZE`, the physical size of the metadata sector (R32). -/
  metaSectorSize : Nat
  /-- `PAGE_SIZE`, the erase granule (R6, R104). -/
  pageSize : Nat
  /-- `MAX_CHUNK`, the largest number of bytes one FEED may carry (R6, D8). -/
  maxChunk : Nat
  /-- `CRC_WORD_BYTES`, 8 or 4 (R94, C8). -/
  crcWordBytes : Nat
  /-- How many high bits of the word at `app_base_address` AppLauncher compares (R130 gives no number). -/
  stackBits : Nat
  /-- A word whose high bits are the expected on-chip RAM pattern (R130 gives no value). -/
  stackPattern : Word
deriving DecidableEq, Repr

/-- The application region `[APP_BASE, APP_BASE + APP_MAX)` (R31). -/
def Params.appRegion (p : Params) : Region := ⟨p.appBase.toNat, p.appBase.toNat + p.appMax⟩

/-- The physical metadata sector, which a field write erases and reprograms whole (R32, R122). -/
def Params.metaSector (p : Params) : Region := ⟨p.metaBase.toNat, p.metaBase.toNat + p.metaSectorSize⟩

/-- The constraints a model must assume of the parameters (R6, D7), with the two of log 11: the metadata sector is a whole
number of double-words at an aligned address, since a field write programs it whole with 8-byte programs (R122). -/
abbrev Params.Ok (p : Params) : Prop :=
  p.appBase.toNat % 8 = 0 ∧ p.appMax % 8 = 0 ∧ 0 < p.appMax ∧
  p.appBase.toNat + p.appMax ≤ addressSpace ∧
  8 ≤ p.metaMax ∧ p.metaMax ≤ p.metaSectorSize ∧
  p.metaBase.toNat % 8 = 0 ∧ p.metaSectorSize % 8 = 0 ∧
  p.metaBase.toNat + p.metaSectorSize ≤ addressSpace ∧
  (p.appBase.toNat + p.appMax ≤ p.metaBase.toNat ∨ p.metaBase.toNat + p.metaSectorSize ≤ p.appBase.toNat) ∧
  (p.crcWordBytes = 8 ∨ p.crcWordBytes = 4)

/-- The region consists of whole pages, as an erase requires (R104 "erase granularity: one physical flash page"). DESIGN CHOICE, log 32:
pages begin at the multiples of `PAGE_SIZE` counted from address 0; the spec gives the size of a page and not where pages begin. -/
abbrev Region.wholePages (r : Region) (pageSize : Nat) : Prop :=
  r.start % pageSize = 0 ∧ r.stop % pageSize = 0

/-- The parameter values State.reset carries: the example values of 95_test_vectors.md, which are not the chip's (U1), and
for the parameters that file does not give, values the model chose. DESIGN CHOICE, log 2: no statement about every state
rests on them. -/
def Params.sample : Params where
  appBase := 0x08008000#32
  appMax := 0x1000
  metaBase := 0x0800F800#32
  metaMax := 64
  metaSectorSize := 128
  pageSize := 128
  maxChunk := 256
  crcWordBytes := 8
  stackBits := 12
  stackPattern := 0x20000000#32

/-- `LEN_OFF`, the offset of `appLength` in the metadata region (R5). -/
abbrev Config.lenOff : Nat := 0

/-- `CRC_OFF`, the offset of `appChecksum` in the metadata region (R5). -/
abbrev Config.crcOff : Nat := 4

/-- The ticks of one command window (R127 "a countdown of 30 ticks"). -/
abbrev Config.windowTicks : Nat := 30

/-- The 8-byte Connect acknowledgment (R66, R118). -/
abbrev Config.connectAck : List Byte := [0xFE#8, 0xA5#8, 0x01#8, 0x03#8, 0xFF#8, 0x03#8, 0x00#8, 0x01#8]

/-- `CRC32_FN`, the function of the HardwareChecksum peripheral: uninterpreted (R96, D23, U2; log 12). -/
opaque Config.crc32Fn : List Byte → Word

/-- FREE VALUE (log 9): whether the n-th draw succeeds, where State lists no answer for it (R102, U4). -/
opaque Config.freeOk : Nat → Bool

/-- FREE VALUE (log 4): byte `i` of what draw `n` leaves unspecified (R101, R104, R163; U5, U9, U14). -/
opaque Config.freeByte : Nat → Nat → Byte

/-- FREE VALUE (log 4): the unspecified `AW.base` after the hardware reset of draw `n` (R160, U9). -/
opaque Config.freeWord : Nat → Word

/-- FREE VALUE (log 5): the unspecified `AW.pending` after the abort of draw `n` (R80, U9). -/
opaque Config.freePending : Nat → Fin 9

end Sys2Proof
end

