-- ==== Sys2Proof/Syntax.lean ====
section
/-! DEFINITION. The instructions (every row of spec/opcode_table.json) and the two records that carry them: CMD records
(30_encoding.md R51, R52) and Frames (R61, R63). -/

namespace Sys2Proof

/-- One constructor for each row of spec/opcode_table.json. -/
inductive Instr where
  /-- BEGIN (R71). -/
  | awBegin
  /-- FEED base, chunk (R72). -/
  | awFeed (base : Word) (chunk : List Byte)
  /-- FINISH (R77). -/
  | awFinish
  /-- VERIFY (R90). -/
  | ivVerify
  /-- Frame `FE A5 01`, Connect (R118). -/
  | hostConnect
  /-- Frame `FE A5 02`, EraseApp (R118). -/
  | hostEraseApp
  /-- Frame `FE A5 04`, ProgramApp (R119). -/
  | hostProgramApp
  /-- Frame `FE A5 05`, WriteChecksum (R120). -/
  | hostWriteChecksum
  /-- Frame `FE A5 F2`, Restart (R126). -/
  | hostRestart
  /-- Frame `FE A5 F3`, JumpToApp (R121). -/
  | hostJumpToApp
  /-- Frame `FE A5 F4`, VerifyAndJump (R121). -/
  | hostVerifyAndJump
  /-- Frame `FE A5 F5`, UpdateApp (R121). -/
  | hostUpdateApp
  /-- A payload Frame that ends with `FE A5 F1`; `data` is the Frame without the marker (R63, R119). -/
  | hostEndOfStream (data : List Byte)
deriving DecidableEq, Repr

/-- A CMD record: `op`, 2 bits, and the two fields that only FEED uses (R51, R52). -/
structure Cmd where
  op    : BitVec 2
  base  : Word
  chunk : List Byte
deriving DecidableEq, Repr

/-- What reaches the machine from outside: a CMD record on the block's command port, or a Frame from the transport. -/
inductive Packet where
  | cmd (c : Cmd)
  | frame (bytes : List Byte)
deriving DecidableEq, Repr

end Sys2Proof
end

