-- ==== Sys2Proof/WellFormed.lean ====
section
/-! DEFINITION. Which instructions the formats of 30_encoding.md can carry: the only bound is `MAX_CHUNK` (R52, R63). -/

namespace Sys2Proof

/-- A chunk has at most `MAX_CHUNK` bytes (R52); an end-of-stream Frame, its marker included, is one Frame, and the largest
Frame has `MAX_CHUNK` bytes (R6, R63). Every other instruction is well formed. -/
def WellFormed (maxChunk : Nat) : Instr → Bool
  | .awFeed _ chunk => decide (chunk.length ≤ maxChunk)
  | .hostEndOfStream data => decide (data.length + 3 ≤ maxChunk)
  | .awBegin => true
  | .awFinish => true
  | .ivVerify => true
  | .hostConnect => true
  | .hostEraseApp => true
  | .hostProgramApp => true
  | .hostWriteChecksum => true
  | .hostRestart => true
  | .hostJumpToApp => true
  | .hostVerifyAndJump => true
  | .hostUpdateApp => true

end Sys2Proof
end

