-- ==== Sys2Proof/Decode.lean ====
section
/-! DEFINITION. Decoding of CMD records and Frames, total and rejecting by name, and the encoder, both from the tables of
30_encoding.md (R51, R52, R61 to R63). -/

namespace Sys2Proof

/-- Why a packet is no instruction. -/
inductive Reject where
  /-- A Frame of fewer than 3 bytes in `Idle`: dropped (R62, D31). -/
  | shortFrame
  /-- A Frame in `Idle` whose first two bytes are not `FE A5`: dropped (R62). -/
  | noMarker
  /-- A Frame with the marker whose third byte is no command: the BootCommand `Unknown`, ignored (R62). -/
  | unknownCommand
  /-- A chunk or payload Frame longer than `MAX_CHUNK`: no record of the format (R52). -/
  | oversize
deriving DecidableEq, Repr

/-- What decoding answers. -/
inductive Decoded where
  | instr (i : Instr)
  | reject (r : Reject)
deriving DecidableEq, Repr

/-- How CommandDispatcher reads a Frame: as a command in `Idle`, as image bytes inside ProgramApp or UpdateApp (R117, R119). -/
inductive Context where
  | command
  | stream
deriving DecidableEq, Repr

/-- The instruction a decoding found, if any. -/
def Decoded.instr? : Decoded → Option Instr
  | .instr i => some i
  | .reject _ => none

/-- R51, R52: `op` selects the operation; `base` and `chunk` count for FEED only and are ignored otherwise. -/
def decodeCmd (maxChunk : Nat) (c : Cmd) : Decoded :=
  if c.op = 0#2 then .instr .awBegin
  else if c.op = 1#2 then
    if c.chunk.length ≤ maxChunk then .instr (.awFeed c.base c.chunk) else .reject .oversize
  else if c.op = 2#2 then .instr .awFinish
  else .instr .ivVerify

/-- The table of R61: the third byte of a command Frame. -/
def commandOf (b2 : Byte) : Option Instr :=
  if b2 = 0x01#8 then some .hostConnect
  else if b2 = 0x02#8 then some .hostEraseApp
  else if b2 = 0x04#8 then some .hostProgramApp
  else if b2 = 0x05#8 then some .hostWriteChecksum
  else if b2 = 0xF2#8 then some .hostRestart
  else if b2 = 0xF3#8 then some .hostJumpToApp
  else if b2 = 0xF4#8 then some .hostVerifyAndJump
  else if b2 = 0xF5#8 then some .hostUpdateApp
  else none

/-- R61, R62: a Frame in `Idle`; bytes after the third are ignored (D31). -/
def decodeCommand : List Byte → Decoded
  | b0 :: b1 :: b2 :: _ =>
    if b0 = 0xFE#8 ∧ b1 = 0xA5#8 then
      match commandOf b2 with
      | some i => .instr i
      | none => .reject .unknownCommand
    else .reject .noMarker
  | _ => .reject .shortFrame

/-- The end-of-stream marker (R63, R66). -/
def endMarker : List Byte := [0xFE#8, 0xA5#8, 0xF1#8]

/-- R63: the marker is looked for only as the last 3 bytes of a Frame; where it stands there, the Frame without it. -/
def stripMarker (f : List Byte) : Option (List Byte) :=
  if 3 ≤ f.length ∧ f.drop (f.length - 3) = endMarker then some (f.take (f.length - 3)) else none

/-- R119: a payload Frame of ProgramApp or UpdateApp is one FEED at `APP_BASE`, or the end of the stream. -/
def decodePayload (maxChunk : Nat) (appBase : Word) (f : List Byte) : Decoded :=
  if f.length ≤ maxChunk then
    match stripMarker f with
    | some data => .instr (.hostEndOfStream data)
    | none => .instr (.awFeed appBase f)
  else .reject .oversize

/-- The decoder, total on any packet. -/
def decode (maxChunk : Nat) (appBase : Word) : Context → Packet → Decoded
  | _, .cmd c => decodeCmd maxChunk c
  | .command, .frame f => decodeCommand f
  | .stream, .frame f => decodePayload maxChunk appBase f

/-- The encoder, from the tables of R51 and R61; an end of stream is its data with the marker behind it (R63). -/
def encode : Instr → Packet
  | .awBegin => .cmd ⟨0#2, 0#32, []⟩
  | .awFeed base chunk => .cmd ⟨1#2, base, chunk⟩
  | .awFinish => .cmd ⟨2#2, 0#32, []⟩
  | .ivVerify => .cmd ⟨3#2, 0#32, []⟩
  | .hostConnect => .frame [0xFE#8, 0xA5#8, 0x01#8]
  | .hostEraseApp => .frame [0xFE#8, 0xA5#8, 0x02#8]
  | .hostProgramApp => .frame [0xFE#8, 0xA5#8, 0x04#8]
  | .hostWriteChecksum => .frame [0xFE#8, 0xA5#8, 0x05#8]
  | .hostRestart => .frame [0xFE#8, 0xA5#8, 0xF2#8]
  | .hostJumpToApp => .frame [0xFE#8, 0xA5#8, 0xF3#8]
  | .hostVerifyAndJump => .frame [0xFE#8, 0xA5#8, 0xF4#8]
  | .hostUpdateApp => .frame [0xFE#8, 0xA5#8, 0xF5#8]
  | .hostEndOfStream data => .frame (data ++ endMarker)

/-- The context in which an instruction's packet is read: the end-of-stream marker is "not a command in Idle" (R62). -/
def contextOf : Instr → Context
  | .hostEndOfStream _ => .stream
  | _ => .command

/-- The `n` bytes of a table word: the table numbers a Frame's first bytes as `b0*65536 + b1*256 + b2` (R61, D34), so the
first byte is the most significant. -/
def bytesOfTable : Nat → Nat → List Byte
  | 0, _ => []
  | n + 1, w => BitVec.ofNat 8 (w / 256 ^ n) :: bytesOfTable n w

/-- The packet a row's bits stand for: a CMD row has the two bits of `op`, its operands zero; a FRAME or FRAME_SUFFIX row
has three bytes. -/
def packetOfTable (nbits w : Nat) : Packet :=
  if nbits ≤ 8 then .cmd ⟨BitVec.ofNat 2 w, 0#32, []⟩ else .frame (bytesOfTable (nbits / 8) w)

/-- The row `FRAME_SUFFIX` is read inside a stream, every other row in `Idle` (opcode_table.json, R63). -/
def contextOfPacket : Packet → Context
  | .cmd _ => .command
  | .frame f => match stripMarker f with
    | some _ => .stream
    | none => .command

/-- The instruction the decoder reads from a row's bits, numbered as spec/opcode_table.json numbers them. -/
def decodeTableWord (nbits w : Nat) : Option Instr :=
  let p := packetOfTable nbits w
  (decode Params.sample.maxChunk Params.sample.appBase (contextOfPacket p) p).instr?

end Sys2Proof
end

