-- ==== Sys2Proof/Machine/State.lean ====
section
/-! DEFINITION. The state of the machine: the block (10_state.md), the flash (20_memory.md), the host that drives it
(43_host_sequences.md), and the inputs that are still to come. Plain data only. -/

namespace Sys2Proof.Machine

/-- The flash as a list of cells in canonical form: addresses strictly rising, no cell that holds the erased byte
(see `Memory.wf`); an address that is not listed reads as the erased byte (R5, R30; log 6). -/
abbrev Memory := List Host.Cell

/-- The `status` field of an AW response (R53, R142); code 3 is never produced (U16). -/
inductive Status where
  | ok
  | flashProgramError
  | aborted
deriving DecidableEq, Repr

/-- The RSP record (R53, R54). -/
inductive Rsp where
  | aw (status : Status) (count : Word)
  | iv (valid : Bool)
deriving DecidableEq, Repr

/-- The multi-frame operations of CommandDispatcher (R117, R121). -/
inductive MultiFrame where
  | programApp
  | updateApp
  | writeChecksum
deriving DecidableEq, Repr

/-- CommandDispatcher's states (R117). -/
inductive Dispatcher where
  | idle
  | awaitingMore (op : MultiFrame)
deriving DecidableEq, Repr

/-- BootSequencer's states (R127). -/
inductive BootState where
  | commandWindow
  | launch
  | stay
deriving DecidableEq, Repr

/-- The error kinds the host reports upward (R132, R141); IntegrityMismatch is the response `valid = 0`, "not a hard error". -/
inductive HostError where
  | flashProgramError
  | flashEraseError
  | metadataOverflowError
  | noApplicationFound
deriving DecidableEq, Repr

/-- The control transfer of AppLauncher (R130): the processor's stack pointer and the address execution goes to. -/
structure Launch where
  stackPointer : Word
  entry        : Word
deriving DecidableEq, Repr

/-- What lands between two actions of the consumer: the transport delivers a Frame (R116), or power is lost (R163). -/
inductive Arrival where
  | frame (bytes : List Byte)
  | powerLoss
deriving DecidableEq, Repr

/-- What happens outside during and after one action of the consumer (R116, R163). -/
structure Outside where
  /-- Power is lost inside the action, once it has made this many records on the ports (R163); none: the action runs to its end. -/
  cut : Option Nat
  /-- What lands after the action, or after the loss of power inside it. -/
  arrivals : List Arrival
deriving DecidableEq, Repr

/-- What the environment decides of one flash transaction: success or hardware failure (R102, R104), or loss of power before
it starts or while it runs (R163). -/
inductive Answer where
  | ok
  | err
  | lostBefore
  | lostDuring
deriving DecidableEq, Repr

/-- How a flash transaction ended for its issuer: `Ok`, `Err`, or never, because power was lost. -/
inductive PortResult where
  | ok
  | err
  | lost
deriving DecidableEq, Repr

/-- One record on a port of the block, or one call of a capability by the host (R53 to R58, R107 to R109, R132). -/
inductive Event where
  | prog (addr : Word) (data : DWord) (result : PortResult)
  | read (addr : Word) (bytes : List Byte)
  | crc (addr : Word) (words : Word) (result : Word)
  | rsp (r : Rsp)
  | erase (region : Region) (result : PortResult)
  | send (bytes : List Byte)
  | report (e : HostError)
  | systemReset
  | disableInterrupts
  | powerLoss
deriving DecidableEq, Repr

/-- The model's faults (R146): points where the document gives the hardware no meaning. -/
inductive Fault where
  /-- Raised by `flashProgram` (FEED, FINISH, a metadata rewrite): a program outside the declared region (R78, U7). Safe. -/
  | regionViolation
  /-- Raised by `flashProgram`: a program of a double-word that is not all `0xFF` (R101, U6). Safe. -/
  | programNotErased
  /-- Raised by `awProgram` (FEED, FINISH): `AW.base + AW.count` or the advance of `AW.count` would wrap (R79, U8). Safe. -/
  | counterOverflow
deriving DecidableEq, Repr

/-- What the model gives no meaning. -/
inductive Refusal where
  /-- Raised by `exec` for an instruction that has no meaning yet. Safe. -/
  | notModelled (mnemonic : String)
  /-- Raised by `flashErase`: the range is not whole pages (R104, U14 "`refuse` for the partial-page range"). Safe. -/
  | partialPageErase
  /-- Raised by the fetch: a chunk or payload Frame of more than `MAX_CHUNK` bytes, which is no record of the format (R52). Safe. -/
  | oversizeChunk
  /-- Raised by `step` after AppLauncher has transferred control: the application runs, of which the spec says nothing (R45, R130). Safe. -/
  | applicationRunning
deriving DecidableEq, Repr

/-- The state. -/
structure State where
  /-- `AW.buf[0..7]` (R10). -/
  buf : DWord
  /-- `AW.pending`, a 4-bit register with values 0 to 8 (R11). -/
  pending : Fin 9
  /-- `AW.count`, bytes programmed so far (R12). -/
  count : Word
  /-- `AW.base`, the base of the latest FEED (R13). -/
  base : Word
  /-- `AW.aborted`, the block's only flag (R16). -/
  aborted : Bool
  /-- The latest record on the response port (R53, R54); none since the last hardware reset (R160). -/
  rsp : Option Rsp
  /-- The flash of FlashDevice (R30). -/
  flash : Memory
  /-- The constants of R17, which no operation writes. -/
  params : Params
  /-- CommandDispatcher (R117). -/
  dispatcher : Dispatcher
  /-- BootSequencer (R127). -/
  boot : BootState
  /-- BootDecision: remaining command-wait ticks (R129). -/
  ticks : Nat
  /-- BootDecision: the sticky 'any command observed' flag (R127, R129). -/
  commandSeen : Bool
  /-- The single-slot handshake: the unconsumed Frame, if there is one (R116). -/
  frame : Option (List Byte)
  /-- Interrupt sources of update mode are enabled (R130, R150). -/
  interrupts : Bool
  /-- The transport peripheral is enabled (R130). -/
  transport : Bool
  /-- The control transfer, once it has been made (R130). -/
  app : Option Launch
  /-- The MODEL's own, an input: CMD records the host thread has still to issue, in order (R41, R51; log 7). -/
  cmds : List Cmd
  /-- The MODEL's own, an input: for each coming action, whether power is lost inside it and what lands after it (R116, R163; log 8,
  log 19). -/
  wire : List Outside
  /-- The MODEL's own, an input: the environment's answers to the coming flash transactions (R102; log 9). -/
  answers : List Answer
  /-- The MODEL's own: how many draws were taken, the argument of the free values (log 4). -/
  draws : Nat
  /-- The MODEL's own observation: every port record and capability call so far, oldest first (log 10); a loss of power inside an action
  is placed by the records the action adds (log 19). -/
  trace : List Event
deriving DecidableEq, Repr

/-- The machine right after power-on (R24, R160): `pending`, `count`, `aborted` zero; the host's initial states (R117, R127).
`buf`, `base`, the flash contents and the constants have no value in the spec: the values here are named in logs 2, 3, 6. -/
def State.reset : State where
  buf := #v[0#8, 0#8, 0#8, 0#8, 0#8, 0#8, 0#8, 0#8]
  pending := 0
  count := 0#32
  base := 0#32
  aborted := false
  rsp := none
  flash := []
  params := Params.sample
  dispatcher := .idle
  boot := .commandWindow
  ticks := Config.windowTicks
  commandSeen := false
  frame := none
  interrupts := true
  transport := true
  app := none
  cmds := []
  wire := []
  answers := []
  draws := 0
  trace := []

end Sys2Proof.Machine
end

