-- ==== Sys2Proof/Machine/Memory.lean ====
section
/-! DEFINITION. The flash as plain data: reading a byte, writing bytes, erasing a range (20_memory.md R30, R39, R43), all of
which keep the canonical form `Memory.wf`. -/

namespace Sys2Proof.Machine

/-- `Flash[a]`: an address that is not listed holds the erased byte (R5; log 6). -/
def Memory.read : Memory → Nat → Byte
  | [], _ => erasedByte
  | (k, v) :: m, a => if k = a then v else Memory.read m a

/-- `Flash[a] <- b`, keeping the canonical form: writing the erased byte removes the cell. -/
def Memory.write : Memory → Nat → Byte → Memory
  | [], a, b => if b = erasedByte then [] else [(a, b)]
  | (k, v) :: m, a, b =>
    if a < k then if b = erasedByte then (k, v) :: m else (a, b) :: (k, v) :: m
    else if a = k then if b = erasedByte then m else (a, b) :: m
    else (k, v) :: Memory.write m a b

/-- The bytes `bs` at `a`, `a + 1`, ...: byte `j` goes to address `a + j` (R35). -/
def Memory.writeBytes : Memory → Nat → List Byte → Memory
  | m, _, [] => m
  | m, a, b :: bs => Memory.writeBytes (Memory.write m a b) (a + 1) bs

/-- `Flash[a] .. Flash[a + n - 1]` in address order; a sum on addresses is modulo `2^ADDR_W` (R7, R103). -/
def Memory.readBytes (m : Memory) : Nat → Nat → List Byte
  | _, 0 => []
  | a, n + 1 => Memory.read m (a % addressSpace) :: Memory.readBytes m (a + 1) n

/-- Every byte of the region becomes `0xFF` (R104). -/
def Memory.erase (m : Memory) (r : Region) : Memory :=
  m.filter fun c => !(decide (r.start ≤ c.1) && decide (c.1 < r.stop))

/-- Cells of a memory whose addresses rise strictly from `lo` on and of which none holds the erased byte. -/
def Memory.wfFrom : Nat → Memory → Bool
  | _, [] => true
  | lo, (k, v) :: m => decide (lo ≤ k) && decide (v ≠ erasedByte) && Memory.wfFrom (k + 1) m

/-- The canonical form: addresses strictly rising, no cell equal to what an unlisted address reads as. -/
def Memory.wf (m : Memory) : Bool := Memory.wfFrom 0 m

/-- Every listed address lies in the address space (R30). -/
abbrev Memory.inSpace (m : Memory) : Prop := ∀ c ∈ m, c.1 < addressSpace

end Sys2Proof.Machine
end

