-- ==== Sys2Proof/Machine/Operands.lean ====
section
/-! DEFINITION. The operand forms of 30_encoding.md R59, R60: grouping a byte sequence into double-words, the padded final
double-word, the byte order of 32-bit fields, and the fields an operation reads from the flash. -/

namespace Sys2Proof.Machine

/-- The value of a byte sequence whose first byte is the least significant (R7, R36). -/
def leNat : List Byte → Nat
  | [] => 0
  | b :: bs => b.toNat + 256 * leNat bs

/-- `le32` of R7. -/
def le32 (bs : List Byte) : Word := BitVec.ofNat 32 (leNat bs)

/-- `le32_bytes` of R7, its inverse. -/
def le32Bytes (v : Word) : List Byte :=
  [BitVec.ofNat 8 v.toNat, BitVec.ofNat 8 (v.toNat / 256), BitVec.ofNat 8 (v.toNat / 65536), BitVec.ofNat 8 (v.toNat / 16777216)]

/-- The full groups of eight bytes, in order (R75). -/
def wordsOf : List Byte → List DWord
  | b0 :: b1 :: b2 :: b3 :: b4 :: b5 :: b6 :: b7 :: rest => #v[b0, b1, b2, b3, b4, b5, b6, b7] :: wordsOf rest
  | _ => []

/-- The 0 to 7 bytes that `wordsOf` leaves over (R76). -/
def tailOf : List Byte → List Byte
  | _ :: _ :: _ :: _ :: _ :: _ :: _ :: _ :: rest => tailOf rest
  | bs => bs

/-- `AW.buf` with the bytes `bs` copied to `AW.buf[start]`, `AW.buf[start + 1]`, ... (R74, R76). -/
def fillBuf (buf : DWord) (start : Nat) (bs : List Byte) : DWord :=
  Vector.ofFn fun j => if j.val < start then buf[j] else (bs[j.val - start]?).getD buf[j]

/-- `AW.buf[0 .. n-1]` followed by `8 - n` bytes of `0xFF` (R60, R77, D13). -/
def padded (buf : DWord) (n : Nat) : DWord :=
  Vector.ofFn fun j => if j.val < n then buf[j] else erasedByte

/-- The double-words of a byte sequence, the last one filled up with `0xFF` where it is incomplete. -/
def wordsPadded (bs : List Byte) : List DWord :=
  match tailOf bs with
  | [] => wordsOf bs
  | t => wordsOf bs ++ wordsOf (t ++ List.replicate (8 - t.length) erasedByte)

/-- A scratch buffer with `bs` patched in at `off` (R122). -/
def patch (scratch : List Byte) (off : Nat) (bs : List Byte) : List Byte :=
  scratch.take off ++ bs ++ scratch.drop (off + bs.length)

/-- The valid bytes of the accumulator, `AW.buf[0 .. AW.pending-1]` (R10). -/
def State.pendingBytes (s : State) : List Byte := s.buf.toList.take s.pending.val

/-- The write pointer `AW.base + AW.count` (R14). -/
def State.writePointer (s : State) : Word := s.base + s.count

/-- The 32-bit value stored at an address, least significant byte first (R36). -/
def State.wordAt (s : State) (a : Nat) : Word := le32 (s.flash.readBytes a 4)

/-- `appLength`, the field at `META_BASE + LEN_OFF` (R19, R36). -/
def State.appLength (s : State) : Word := s.wordAt (s.params.metaBase.toNat + Config.lenOff)

/-- `appChecksum`, the field at `META_BASE + CRC_OFF` (R19, R36). -/
def State.appChecksum (s : State) : Word := s.wordAt (s.params.metaBase.toNat + Config.crcOff)

/-- The bytes a CRC transaction of `n` words covers (R57, R93, R105). -/
def State.imageBytes (s : State) (n : Nat) : List Byte :=
  s.flash.readBytes s.params.appBase.toNat (n * s.params.crcWordBytes)

/-- AppLauncher's check: the high bits of the word match the on-chip RAM pattern (R130). -/
def stackPlausible (p : Params) (w : Word) : Bool :=
  w >>> (32 - p.stackBits) == p.stackPattern >>> (32 - p.stackBits)

/-- `[addr, addr + n)` lies inside the region (R78, R101). -/
def Region.holds (r : Region) (addr n : Nat) : Bool :=
  decide (r.start ≤ addr) && decide (addr + n ≤ r.stop)

/-- The eight flash bytes at `addr` are all `0xFF` (R101, R164). -/
def dwordErased (m : Memory) (addr : Nat) : Bool :=
  (m.readBytes addr 8).all (· == erasedByte)

end Sys2Proof.Machine
end

