-- ==== Sys2Proof/Machine/Flags.lean ====
section
/-! DEFINITION. The flags and status codes: the codes of a response (30_encoding.md R53), the sticky flags AW.aborted (R16)
and 'command seen' (R127), and the free values that an abort and a hardware reset leave in registers. -/

namespace Sys2Proof.Machine

/-- The two bits of `status` (R53, R142). -/
def Status.code : Status → BitVec 2
  | .ok => 0#2
  | .flashProgramError => 1#2
  | .aborted => 2#2

/-- The response is an AW response whose status is not `OK`. -/
def Rsp.failed : Rsp → Bool
  | .aw .ok _ => false
  | .aw .flashProgramError _ => true
  | .aw .aborted _ => true
  | .iv _ => false

/-- Eight unspecified bytes of draw `n` (U9). -/
def freeDWord (n : Nat) : DWord :=
  #v[Config.freeByte n 0, Config.freeByte n 1, Config.freeByte n 2, Config.freeByte n 3,
     Config.freeByte n 4, Config.freeByte n 5, Config.freeByte n 6, Config.freeByte n 7]

/-- `n` unspecified bytes of draw `d`, for the addresses `a`, `a + 1`, ... (U5, U14). -/
def freeBytes (d : Nat) : Nat → Nat → List Byte
  | _, 0 => []
  | a, n + 1 => Config.freeByte d a :: freeBytes d (a + 1) n

/-- A register update of R16 and R148: `AW.aborted <- 1`; `AW.pending` and `AW.buf` are unspecified from then on (R80), so they
hold free values (log 5). -/
def State.setAborted (s : State) : State :=
  { s with aborted := true, pending := Config.freePending s.draws, buf := freeDWord s.draws, draws := s.draws + 1 }

/-- R73: a FEED that is not refused latches its base operand into `AW.base` before anything else. -/
def State.latch (s : State) (base : Word) : State := { s with base := base }

/-- The pending double-word was programmed: nothing is pending (R74, R77). -/
def State.clearPending (s : State) : State := { s with pending := 0 }

/-- The accumulator reset of R71 and R161: `AW.pending`, `AW.count` and `AW.aborted` cleared, nothing else. -/
def State.clearAccumulator (s : State) : State := { s with pending := 0, count := 0#32, aborted := false }

/-- A command Frame was accepted: 'command seen' is set, and stays set (R127). -/
def State.seeCommand (s : State) : State := { s with commandSeen := true }

end Sys2Proof.Machine
end

