-- ==== Sys2Proof/Machine/Ops.lean ====
section
/-! DEFINITION. The named operations: sequencing, the port transactions and capabilities of 42_external_capabilities.md, the
response port, abort entry and recovery (60_exceptions.md R148, R149), and hardware reset (70_reset_and_hazards.md R160). -/

namespace Sys2Proof.Machine

/-- One part of an operation after another; a fault or a refusal ends the whole (R8). -/
def andThen {α β : Type} (o : Host.Outcome α Fault Refusal) (k : α → Host.Outcome β Fault Refusal) :
    Host.Outcome β Fault Refusal :=
  match o with
  | .next a => k a
  | .fault f => .fault f
  | .refused r => .refused r

/-- One record on a port (R50). -/
def State.log (s : State) (e : Event) : State := { s with trace := s.trace ++ [e] }

/-- `respond`: one RSP record, with which the operation ends (R8, R53). -/
def State.respond (s : State) (r : Rsp) : State := { s with rsp := some r, trace := s.trace ++ [.rsp r] }

/-- An AW response: the status, and `AW.count` as it is when the operation ends (R53). -/
def State.respondAW (s : State) (st : Status) : State := s.respond (.aw st s.count)

/-- One draw of the environment (R102): the next listed answer, a free value where none is listed (log 9). -/
def State.draw (s : State) : Answer × State :=
  match s.answers with
  | a :: rest => (a, { s with answers := rest, draws := s.draws + 1 })
  | [] => (if Config.freeOk s.draws then .ok else .err, { s with draws := s.draws + 1 })

/-- A successful program advances the write pointer by `n` (R14, R15); the sum is modulo `2^COUNT_W` (R7, R79). -/
def State.advance (s : State) (n : Nat) : State := { s with count := s.count + BitVec.ofNat 32 n }

/-- The flash becomes `m`. -/
def State.setFlash (s : State) (m : Memory) : State := { s with flash := m }

/-- The bytes at `a .. a + n - 1` become unspecified: the free values of draw `d` (R101, R104, R163; U5, U14). -/
def State.scramble (s : State) (d a n : Nat) : State :=
  s.setFlash (s.flash.writeBytes a (freeBytes d a n))

/-- Hardware reset (R160, R162): the block's registers and the host's state are lost, `AW.buf` and `AW.base` unspecified (log 4),
the flash and the constants stay. The inputs still to come and the trace are the model's own and stay (log 7, 8, 9, 10). -/
def hardwareReset (s : State) : State :=
  { s with
    buf := freeDWord s.draws
    pending := 0
    count := 0#32
    base := Config.freeWord s.draws
    aborted := false
    rsp := none
    dispatcher := .idle
    boot := .commandWindow
    ticks := Config.windowTicks
    commandSeen := false
    frame := none
    interrupts := true
    transport := true
    app := none
    draws := s.draws + 1 }

/-- Loss of power: a hardware reset at an arbitrary point (R163). -/
def powerLoss (s : State) : State := hardwareReset (s.log .powerLoss)

/-- A point where the model stops. Power may be lost before it is reached, and then that is what happens (R163). -/
def orLost (stop : Host.Outcome (PortResult × State) Fault Refusal) (s : State) :
    Host.Outcome (PortResult × State) Fault Refusal :=
  match s.draw.1 with
  | .lostBefore => .next (.lost, powerLoss s.draw.2)
  | .ok => stop
  | .err => stop
  | .lostDuring => stop

/-- `FlashProgram(addr, d)` inside the declared region (R101, R37, R102): a misaligned address is tested first and answers `Err`
with the flash unchanged; a failed program leaves its eight bytes unspecified; a program of a double-word that is not
erased is the model's fault. Power may be lost before or during the transaction (R163). -/
def flashProgram (region : Region) (addr : Word) (d : DWord) (s : State) : Host.Outcome (PortResult × State) Fault Refusal :=
  if addr.toNat % 8 ≠ 0 then .next (.err, s.log (.prog addr d .err))
  else if Region.holds region addr.toNat 8 = false then orLost (.fault .regionViolation) s
  else
    match s.draw.1 with
    | .ok =>
      if dwordErased s.flash addr.toNat then
        .next (.ok, (s.draw.2.setFlash (s.flash.writeBytes addr.toNat d.toList)).log (.prog addr d .ok))
      else .fault .programNotErased
    | .err => .next (.err, (s.draw.2.scramble s.draws addr.toNat 8).log (.prog addr d .err))
    | .lostBefore => .next (.lost, powerLoss s.draw.2)
    | .lostDuring => .next (.lost, powerLoss ((s.draw.2.scramble s.draws addr.toNat 8).log (.prog addr d .lost)))

/-- `FlashErase(start, end)` (R104): whole pages only; on success every byte of the range is `0xFF`; after a failure, or when power
is lost while it runs, the range is unspecified. -/
def flashErase (region : Region) (s : State) : Host.Outcome (PortResult × State) Fault Refusal :=
  if region.wholePages s.params.pageSize then
    .next (match s.draw.1 with
      | .ok => (.ok, (s.draw.2.setFlash (s.flash.erase region)).log (.erase region .ok))
      | .err => (.err, (s.draw.2.scramble s.draws region.start (region.stop - region.start)).log (.erase region .err))
      | .lostBefore => (.lost, powerLoss s.draw.2)
      | .lostDuring =>
        (.lost, powerLoss ((s.draw.2.scramble s.draws region.start (region.stop - region.start)).log (.erase region .lost))))
  else orLost (.refused .partialPageErase) s

/-- A READ transaction (R56, R103): the bytes are in the record; nothing else changes. -/
def State.flashRead (s : State) (addr : Word) (n : Nat) : State := s.log (.read addr (s.flash.readBytes addr.toNat n))

/-- A CRC transaction over `n` words from `APP_BASE` (R57, R105), for a checksum function `crc`: the result is in the record. -/
def State.checksum32 (s : State) (crc : List Byte → Word) (n : Nat) : State :=
  s.log (.crc s.params.appBase (BitVec.ofNat 32 n) (crc (s.imageBytes n)))

/-- Abort entry, "the block's only analog of trap entry" (R148, R80): `AW.aborted <- 1`, and the response carries
`FLASH_PROGRAM_ERROR` and the unadvanced `AW.count`. -/
def abortEntry (s : State) : State := s.setAborted.respondAW .flashProgramError

/-- Recovery, "the analog of trap return" (R149): BEGIN clears the accumulator and the flag and answers `OK`. -/
def abortRecovery (s : State) : State := s.clearAccumulator.respondAW .ok

/-- One program of unit AW at `AW.base + AW.count`, on success of which the counter advances by `n` (R14, R75, R77); on `Err` the
operation aborts (R80). The two sums are the model's fault where they would wrap (R79). -/
def awProgram (d : DWord) (n : Nat) (s : State) : Host.Outcome (PortResult × State) Fault Refusal :=
  if addressSpace ≤ s.base.toNat + s.count.toNat then orLost (.fault .counterOverflow) s
  else
    andThen (flashProgram s.params.appRegion s.writePointer d s) fun p =>
      match p.1 with
      | .ok =>
        if counterSpace ≤ p.2.count.toNat + n then .fault .counterOverflow
        else .next (.ok, p.2.advance n)
      | .err => .next (.err, abortEntry p.2)
      | .lost => .next (.lost, p.2)

/-- Programs of unit AW at consecutive addresses until one does not answer `Ok` (R75, R147). -/
def awProgramAll : List DWord → State → Host.Outcome (PortResult × State) Fault Refusal
  | [], s => .next (.ok, s)
  | d :: ds, s =>
    andThen (awProgram d 8 s) fun p =>
      match p.1 with
      | .ok => awProgramAll ds p.2
      | .err => .next p
      | .lost => .next p

/-- What a record on a port says of the flash and of the environment (R43, R101, R104): the state after it, from the state before it.
The response `FLASH_PROGRAM_ERROR` is abort entry (R148). -/
def replay (s : State) (e : Event) : State :=
  match e with
  | .prog a d .ok => (s.draw.2.setFlash (s.flash.writeBytes a.toNat d.toList)).log e
  | .prog a _ .err => if a.toNat % 8 ≠ 0 then s.log e else (s.draw.2.scramble s.draws a.toNat 8).log e
  | .prog a _ .lost => (s.draw.2.scramble s.draws a.toNat 8).log e
  | .erase r .ok => (s.draw.2.setFlash (s.flash.erase r)).log e
  | .erase r .err => (s.draw.2.scramble s.draws r.start (r.stop - r.start)).log e
  | .erase r .lost => (s.draw.2.scramble s.draws r.start (r.stop - r.start)).log e
  | .rsp (.aw .flashProgramError n) => s.setAborted.respond (.aw .flashProgramError n)
  | .rsp r => s.respond r
  | .systemReset => hardwareReset (s.log e)
  | .powerLoss => hardwareReset (s.log e)
  | .read _ _ => s.log e
  | .crc _ _ _ => s.log e
  | .send _ => s.log e
  | .report _ => s.log e
  | .disableInterrupts => s.log e

/-- Loss of power inside an action that leads from `s` to `t`, once it has made `k` records on the ports (R163): those `k` transactions
took place, nothing after them did, no response that is not among them was given. With no record left to make, power is lost at the end
of the action, a control transfer it made included. -/
def cutShort (k : Nat) (s t : State) : State :=
  if k < (t.trace.drop s.trace.length).length then
    powerLoss (((t.trace.drop s.trace.length).take k).foldl replay { s with cmds := t.cmds })
  else powerLoss t

/-- AppLauncher's `jump` (R130): the word at `a` is checked before anything else; where it is implausible `NoApplicationFound` is
reported and control returns; otherwise interrupt sources and the transport are disabled and control passes to the application.
Both words are read least significant byte first (log 16). -/
def jump (a : Word) (s : State) : State :=
  if stackPlausible s.params (s.wordAt a.toNat) then
    { s with
      interrupts := false
      transport := false
      app := some ⟨s.wordAt a.toNat, s.wordAt (a.toNat + 4)⟩
      trace := s.trace ++ [.disableInterrupts] }
  else s.log (.report .noApplicationFound)

end Sys2Proof.Machine
end

