-- ==== Sys2Proof/Machine/Metadata.lean ====
section
/-! DEFINITION. MetadataStore (43_host_sequences.md R122 to R124). -/

namespace Sys2Proof.Machine

/-- How a field write ended for the host: stored, an error to report, or never, because power was lost. -/
inductive StoreResult where
  | stored
  | error (e : HostError)
  | lost
deriving DecidableEq, Repr

/-- Programs of the host at `a`, `a + 8`, ... inside the metadata sector, until one does not answer `Ok` (R122). -/
def programSector : List DWord → Word → State → Host.Outcome (PortResult × State) Fault Refusal
  | [], _, s => .next (.ok, s)
  | d :: ds, a, s =>
    andThen (flashProgram s.params.metaSector a d s) fun p =>
      match p.1 with
      | .ok => programSector ds (a + 8#32) p.2
      | .err => .next p
      | .lost => .next p

/-- The rewrite of a field write: erase the sector, then reprogram it whole from the patched scratch buffer (R122). -/
def rewriteSector (scratch : List Byte) (s : State) : Host.Outcome (StoreResult × State) Fault Refusal :=
  andThen (flashErase s.params.metaSector s) fun p =>
    match p.1 with
    | .ok =>
      andThen (programSector (wordsPadded scratch) p.2.params.metaBase p.2) fun q =>
        match q.1 with
        | .ok => .next (.stored, q.2)
        | .err => .next (.error .flashProgramError, q.2)
        | .lost => .next (.lost, q.2)
    | .err => .next (.error .flashEraseError, p.2)
    | .lost => .next (.lost, p.2)

/-- `MetadataStore.write_field(offset, bytes)` (R122): the guard of R123 comes before any flash access; then the sector is read whole,
erased, patched and reprogrammed. -/
def writeField (off : Nat) (bs : List Byte) (s : State) : Host.Outcome (StoreResult × State) Fault Refusal :=
  if s.params.metaMax < off + bs.length then .next (.error .metadataOverflowError, s)
  else
    rewriteSector (patch (s.flash.readBytes s.params.metaBase.toNat s.params.metaSectorSize) off bs)
      (s.flashRead s.params.metaBase s.params.metaSectorSize)

end Sys2Proof.Machine
end

