-- ==== Sys2Proof/Machine/Verifier.lean ====
section
/-! DEFINITION. Unit IV: VERIFY (41_integrity_verifier.md). -/

namespace Sys2Proof.Machine

/-- The two metadata reads, the length first (R91, D26). -/
def fetchMetadata (s : State) : State :=
  (s.flashRead (s.params.metaBase + BitVec.ofNat 32 Config.lenOff) 4).flashRead (s.params.metaBase + BitVec.ofNat 32 Config.crcOff) 4

/-- The word count `appLength div CRC_WORD_BYTES` (R94). -/
def State.crcWords (s : State) : Nat := s.appLength.toNat / s.params.crcWordBytes

/-- VERIFY for a checksum function `crc` (R90): fetch, length guard (R92), one CRC transaction (R93), compare (R95). -/
def verifyWith (crc : List Byte → Word) (s : State) : State :=
  if s.params.appMax < s.appLength.toNat then (fetchMetadata s).respond (.iv false)
  else ((fetchMetadata s).checksum32 crc s.crcWords).respond (.iv (crc (s.imageBytes s.crcWords) == s.appChecksum))

/-- VERIFY (R90) with the peripheral's function `CRC32_FN` (R96); it always completes. -/
def execVerify (s : State) : Host.Outcome State Fault Refusal := .next (verifyWith Config.crc32Fn s)

/-- The candidate for `CRC32_FN` of R97: one 32-bit word, most significant bit first, `n` of its bits still to come. PRESUMED (G1,
from general knowledge, log 12): no operation of the machine uses it. -/
def crcCandidateBits : Nat → Word → Word
  | 0, c => c
  | n + 1, c => crcCandidateBits n (if c.getLsbD 31 then (c <<< 1) ^^^ 0x04C11DB7#32 else c <<< 1)

/-- The candidate over the 4-byte groups of a byte sequence, from the value `c` on (R97, G1). PRESUMED, log 12. -/
def crcCandidateFrom : Word → List Byte → Word
  | c, b0 :: b1 :: b2 :: b3 :: rest => crcCandidateFrom (crcCandidateBits 32 (c ^^^ le32 [b0, b1, b2, b3])) rest
  | c, _ => c

/-- The candidate of R97 with its initial value `0xFFFFFFFF` (G1). PRESUMED, log 12. -/
def crcCandidate (bs : List Byte) : Word := crcCandidateFrom 0xFFFFFFFF#32 bs

end Sys2Proof.Machine
end

