-- ==== Sys2Proof/Machine/Writer.lean ====
section
/-! DEFINITION. Unit AW: BEGIN, FEED, FINISH (40_alignment_writer.md). -/

namespace Sys2Proof.Machine

/-- BEGIN (R71). -/
def execBegin (s : State) : Host.Outcome State Fault Refusal := .next (abortRecovery s)

/-- FEED phase 1, pre-fill (R74): the bytes that go behind the pending ones, `min(8 - AW.pending, L)` of them. -/
def prefillBytes (s : State) (chunk : List Byte) : List Byte :=
  if 0 < s.pending.val then chunk.take (8 - s.pending.val) else []

/-- The copy of the pre-fill: `AW.buf` and `AW.pending` with those bytes taken in (R74). -/
def prefillCopy (s : State) (chunk : List Byte) : State :=
  { s with
    buf := fillBuf s.buf s.pending.val (prefillBytes s chunk)
    pending := Fin.ofNat 9 (s.pending.val + (prefillBytes s chunk).length) }

/-- FEED phase 1, pre-fill (R74): copy, and program the double-word if that completes it. -/
def prefill (chunk : List Byte) (s : State) : Host.Outcome (PortResult × State) Fault Refusal :=
  if 0 < s.pending.val ∧ chunk ≠ [] then
    let s1 := prefillCopy s chunk
    if s1.pending.val = 8 then
      andThen (awProgram s1.buf 8 s1) fun p =>
        match p.1 with
        | .ok => .next (.ok, p.2.clearPending)
        | .err => .next p
        | .lost => .next p
    else .next (.ok, s1)
  else .next (.ok, s)

/-- FEED phase 3, carry (R76): the tail becomes the new pending partial double-word. -/
def carry (tail : List Byte) (s : State) : State :=
  { s with buf := fillBuf s.buf 0 tail, pending := Fin.ofNat 9 tail.length }

/-- FEED phases 2 and 3 on the bytes phase 1 did not use (R75, R76): they run only where no incomplete double-word remains (C7). -/
def bulkCarry (rest : List Byte) (s : State) : Host.Outcome State Fault Refusal :=
  if s.pending.val = 0 then
    andThen (awProgramAll (wordsOf rest) s) fun p =>
      match p.1 with
      | .ok => .next ((carry (tailOf rest) p.2).respondAW .ok)
      | .err => .next p.2
      | .lost => .next p.2
  else .next (s.respondAW .ok)

/-- FEED base, chunk (R72): refused while `AW.aborted` is set (R80); otherwise the base is latched (R73) and the three phases run. -/
def execFeed (base : Word) (chunk : List Byte) (s : State) : Host.Outcome State Fault Refusal :=
  if s.aborted then .next (s.respondAW .aborted)
  else
    andThen (prefill chunk (s.latch base)) fun p =>
      match p.1 with
      | .ok => bulkCarry (chunk.drop (prefillBytes s chunk).length) p.2
      | .err => .next p.2
      | .lost => .next p.2

/-- FINISH (R77): refused while `AW.aborted` is set (R80); otherwise the partial double-word, if there is one, is padded with `0xFF`
and programmed, and the counter advances by the number of real bytes. -/
def execFinish (s : State) : Host.Outcome State Fault Refusal :=
  if s.aborted then .next (s.respondAW .aborted)
  else if 0 < s.pending.val then
    andThen (awProgram (padded s.buf s.pending.val) s.pending.val s) fun p =>
      match p.1 with
      | .ok => .next (p.2.clearPending.respondAW .ok)
      | .err => .next p.2
      | .lost => .next p.2
  else .next (s.respondAW .ok)

end Sys2Proof.Machine
end

