-- ==== Sys2Proof/Machine/Commands.lean ====
section
/-! DEFINITION. The commands of CommandDispatcher (43_host_sequences.md R117 to R121, R125, R126). -/

namespace Sys2Proof.Machine

/-- A multi-frame operation is over: back to `Idle` (R120, R125). -/
def State.toIdle (s : State) : State := { s with dispatcher := .idle }

/-- R125: the stream is given up after a FEED or FINISH that did not answer `OK`; no further operation is issued, `appLength` is
not written. -/
def State.abortStream (s : State) : State := s.toIdle.log (.report .flashProgramError)

/-- Connect (R118): the fixed acknowledgment; no state change. -/
def execConnect (s : State) : Host.Outcome State Fault Refusal := .next (s.log (.send Config.connectAck))

/-- EraseApp (R118): `FlashErase(APP_BASE, APP_BASE + APP_MAX)`; a failure is reported upward, not retried. -/
def execEraseApp (s : State) : Host.Outcome State Fault Refusal :=
  andThen (flashErase s.params.appRegion s) fun p =>
    .next (match p.1 with
      | .ok => p.2
      | .err => p.2.log (.report .flashEraseError)
      | .lost => p.2)

/-- The start of a stream (R119): BEGIN is issued and the dispatcher waits for payload Frames. -/
def startStream (op : MultiFrame) (s : State) : State := { abortRecovery s with dispatcher := .awaitingMore op }

/-- ProgramApp (R119): its Frames follow; it does not erase. -/
def execProgramApp (s : State) : Host.Outcome State Fault Refusal := .next (startStream .programApp s)

/-- WriteChecksum (R120): the dispatcher waits for a Frame of at least 4 bytes. -/
def execWriteChecksum (s : State) : Host.Outcome State Fault Refusal :=
  .next { s with dispatcher := .awaitingMore .writeChecksum }

/-- Restart (R126, R108): a system reset request, which is a hardware reset. -/
def execRestart (s : State) : Host.Outcome State Fault Refusal := .next (hardwareReset (s.log .systemReset))

/-- JumpToApp (R121): unconditional `AppLauncher.jump`, no integrity check. -/
def execJumpToApp (s : State) : Host.Outcome State Fault Refusal := .next (jump s.params.appBase s)

/-- What the host does with a VERIFY response: it jumps on `valid = 1` and does nothing otherwise (R121). -/
def jumpIfValid (s : State) : State :=
  if s.rsp = some (.iv true) then jump s.params.appBase s else s

/-- VerifyAndJump (R121). -/
def execVerifyAndJump (s : State) : Host.Outcome State Fault Refusal :=
  andThen (execVerify s) fun t => .next (jumpIfValid t)

/-- UpdateApp (R121): EraseApp, then as ProgramApp; an erase that fails is reported and the command aborts (R125). -/
def execUpdateApp (s : State) : Host.Outcome State Fault Refusal :=
  andThen (flashErase s.params.appRegion s) fun p =>
    .next (match p.1 with
      | .ok => startStream .updateApp p.2
      | .err => p.2.log (.report .flashEraseError)
      | .lost => p.2)

/-- The end of a field write inside a multi-frame operation: an error is reported and the operation aborts (R125; log 13); after a
stored length UpdateApp jumps (R121). -/
def afterStore (op : MultiFrame) (p : StoreResult × State) : State :=
  match p.1 with
  | .stored => match op with
    | .updateApp => jump p.2.params.appBase p.2.toIdle
    | .programApp => p.2.toIdle
    | .writeChecksum => p.2.toIdle
  | .error e => p.2.toIdle.log (.report e)
  | .lost => p.2

/-- The end of the stream after its last FEED (R119): FINISH, then the returned count is stored as `appLength` where it is `OK`. -/
def closeStream (op : MultiFrame) (s : State) : Host.Outcome State Fault Refusal :=
  andThen (execFinish s) fun t =>
    match t.rsp with
    | some (.aw .ok total) => andThen (writeField Config.lenOff (le32Bytes total) t) fun p => .next (afterStore op p)
    | some (.aw .flashProgramError _) => .next t.abortStream
    | some (.aw .aborted _) => .next t.abortStream
    | some (.iv _) => .next t
    | none => .next t

/-- The last Frame of a stream, its marker stripped (R119): FEED at `APP_BASE`, and the end of the stream. -/
def finishStream (op : MultiFrame) (data : List Byte) (s : State) : Host.Outcome State Fault Refusal :=
  andThen (execFeed s.params.appBase data s) fun t =>
    match t.rsp with
    | some (.aw .ok _) => closeStream op t
    | some (.aw .flashProgramError _) => .next t.abortStream
    | some (.aw .aborted _) => .next t.abortStream
    | some (.iv _) => .next t
    | none => .next t

/-- The end-of-stream marker (R63, R119): it ends a ProgramApp or UpdateApp; it is "not a command in Idle", where its Frame is
dropped (R62). -/
def execEndOfStream (data : List Byte) (s : State) : Host.Outcome State Fault Refusal :=
  match s.dispatcher with
  | .awaitingMore .programApp => finishStream .programApp data s
  | .awaitingMore .updateApp => finishStream .updateApp data s
  | .awaitingMore .writeChecksum => .next s
  | .idle => .next s

/-- The payload Frame of WriteChecksum (R120): its first 4 bytes are stored at `CRC_OFF`; a shorter Frame is passed over and the
wait goes on. -/
def storeChecksum (f : List Byte) (s : State) : Host.Outcome State Fault Refusal :=
  if f.length < 4 then .next s
  else andThen (writeField Config.crcOff (f.take 4) s) fun p => .next (afterStore .writeChecksum p)

end Sys2Proof.Machine
end

