-- ==== Sys2Proof/Machine/Dispatch.lean ====
section
/-! DEFINITION. One arm per instruction, each a direct call of its meaning. -/

namespace Sys2Proof.Machine

/-- What an instruction does. -/
def exec (i : Instr) (s : State) : Host.Outcome State Fault Refusal :=
  match i with
  | .awBegin => Sys2Proof.Machine.execBegin s
  | .awFeed base chunk => Sys2Proof.Machine.execFeed base chunk s
  | .awFinish => Sys2Proof.Machine.execFinish s
  | .ivVerify => Sys2Proof.Machine.execVerify s
  | .hostConnect => Sys2Proof.Machine.execConnect s
  | .hostEraseApp => Sys2Proof.Machine.execEraseApp s
  | .hostProgramApp => Sys2Proof.Machine.execProgramApp s
  | .hostWriteChecksum => Sys2Proof.Machine.execWriteChecksum s
  | .hostRestart => Sys2Proof.Machine.execRestart s
  | .hostJumpToApp => Sys2Proof.Machine.execJumpToApp s
  | .hostVerifyAndJump => Sys2Proof.Machine.execVerifyAndJump s
  | .hostUpdateApp => Sys2Proof.Machine.execUpdateApp s
  | .hostEndOfStream data => Sys2Proof.Machine.execEndOfStream data s

end Sys2Proof.Machine
end

