-- ==== Sys2Proof/Machine/Turn.lean ====
section
/-! DEFINITION. What the one thread of control does next (20_memory.md R41): a CMD record that is waiting is decoded and executed;
otherwise CommandDispatcher and BootSequencer have their turn (43_host_sequences.md R116, R117, R119, R120, R127). Power may be lost
inside it; then what has arrived from outside lands (R116, R163). -/

namespace Sys2Proof.Machine

/-- A packet that decodes is executed; one that is no record of the format is refused by name. -/
def runDecoded (d : Decoded) (s : State) : Host.Outcome State Fault Refusal :=
  match d with
  | .instr i => exec i s
  | .reject _ => .refused .oversizeChunk

/-- The next CMD record on the command port (R50, R51). -/
def runCmd (c : Cmd) (s : State) : Host.Outcome State Fault Refusal :=
  runDecoded (decodeCmd s.params.maxChunk c) s

/-- The decision at the end of a countdown (R127): with a command seen the device stays in update mode; otherwise VERIFY, and on
success `Launch`. A jump that returns (`NoApplicationFound`) goes back to the command window (R132; log 14). -/
def bootDecision (s : State) : Host.Outcome State Fault Refusal :=
  match s.boot with
  | .stay => .next { s with ticks := Config.windowTicks }
  | .launch => .next { s with boot := .commandWindow, ticks := Config.windowTicks }
  | .commandWindow =>
    if s.commandSeen then .next { s with boot := .stay, ticks := Config.windowTicks }
    else
      andThen (execVerify s) fun t =>
        let u := jumpIfValid t
        .next (if u.app.isSome then { u with boot := .launch } else { u with ticks := Config.windowTicks })

/-- A Frame polled in `Idle` (R117, R62): a command sets 'command seen' and is executed; anything else, an Unknown command included, is
dropped with no effect (U15). -/
def idleFrame (f : List Byte) (s : State) : Host.Outcome State Fault Refusal :=
  match decode s.params.maxChunk s.params.appBase .command (.frame f) with
  | .instr i => exec i s.seeCommand
  | .reject .unknownCommand => .next s
  | .reject .noMarker => .next s
  | .reject .shortFrame => .next s
  | .reject .oversize => .next s

/-- One tick of the command window (R127): the countdown, and one poll, which clears the availability signal (R116). Where in the tick the
poll falls relative to the wait is log 33. -/
def idleTick (s : State) : Host.Outcome State Fault Refusal :=
  match s.frame with
  | none => .next { s with ticks := s.ticks - 1 }
  | some f => idleFrame f { s with ticks := s.ticks - 1, frame := none }

/-- R125: after a FEED of the stream that did not answer `OK` the host gives the stream up. -/
def afterPayload (s : State) : State :=
  match s.dispatcher with
  | .idle => s
  | .awaitingMore _ => if (s.rsp.map Rsp.failed).getD false then s.abortStream else s

/-- A payload Frame of ProgramApp or UpdateApp (R119). -/
def streamFrame (f : List Byte) (s : State) : Host.Outcome State Fault Refusal :=
  andThen (runDecoded (decode s.params.maxChunk s.params.appBase .stream (.frame f)) s) fun t => .next (afterPayload t)

/-- One poll inside a multi-frame operation (R119, R120), which ignores the tick budget; with no Frame the wait goes on. -/
def awaitFrame (op : MultiFrame) (s : State) : Host.Outcome State Fault Refusal :=
  match s.frame with
  | none => .next s
  | some f => match op with
    | .writeChecksum => storeChecksum f { s with frame := none }
    | .programApp => streamFrame f { s with frame := none }
    | .updateApp => streamFrame f { s with frame := none }

/-- The turn of the host's loop (R117, R127). DESIGN CHOICE, log 33: a tick is its one poll, and the decision follows the thirtieth with no
poll between them, so a command Frame that lands after the thirtieth poll is not polled before the decision, and a launch can follow. -/
def hostTurn (s : State) : Host.Outcome State Fault Refusal :=
  match s.dispatcher with
  | .awaitingMore op => awaitFrame op s
  | .idle => if s.ticks = 0 then bootDecision s else idleTick s

/-- The turn of the one thread of control (R41). -/
def consumerTurn (s : State) : Host.Outcome State Fault Refusal :=
  match s.cmds with
  | c :: rest => runCmd c { s with cmds := rest }
  | [] => hostTurn s

/-- One arrival (R116, R163): a Frame fills the empty slot; with the slot full, or the interrupt or the transport off, it is dropped
("drop-newest, not block", C4). -/
def arrive (s : State) (a : Arrival) : State :=
  match a with
  | .frame f =>
    if s.frame.isNone && s.interrupts && s.transport then { s with frame := some f } else s
  | .powerLoss => powerLoss s

/-- What lands after an action of the consumer (R116, R163). -/
def deliver (s : State) : State :=
  match s.wire with
  | now :: later => now.arrivals.foldl arrive { s with wire := later }
  | [] => s

/-- The action that leads from `s` to `t`, or as much of it as there was power for (R163). -/
def interrupt (s t : State) : State :=
  match s.wire with
  | now :: _ =>
    match now.cut with
    | some k => cutShort k s t
    | none => t
  | [] => t

/-- The end of a step whose action leads from `s` to `t`. -/
def finishStep (s t : State) : State := deliver (interrupt s t)

/-- The state in which the next step reads the packet: a CMD record first on the command port; a Frame in the slot, in `Idle` with a
tick left, or inside a ProgramApp where the packet is the end of a stream. -/
def placePacket (p : Packet) (s : State) : State :=
  match p with
  | .cmd c => { s with app := none, cmds := c :: s.cmds }
  | .frame f =>
    match contextOfPacket p with
    | .command => { s with app := none, cmds := [], frame := some f, dispatcher := .idle, ticks := max 1 s.ticks }
    | .stream => { s with app := none, cmds := [], frame := some f, dispatcher := .awaitingMore .programApp }

end Sys2Proof.Machine
end

