-- ==== Sys2Proof/Machine/Step.lean ====
section
/-! DEFINITION. One step of the machine: one action of the one thread of control, as far as there is power for it, then what has
arrived from outside. -/

namespace Sys2Proof.Machine

/-- One step (R41, R110). After AppLauncher has transferred control the model ends (R45, R130). -/
def step (s : State) : Host.Outcome State Fault Refusal :=
  match s.app with
  | some _ => .refused .applicationRunning
  | none => andThen (consumerTurn s) fun t => .next (finishStep s t)

/-- The state with a row's word of spec/opcode_table.json where the next step reads it (log 17). -/
def State.withFetchWord (s : State) (nbits w : Nat) : State := placePacket (packetOfTable nbits w) s

end Sys2Proof.Machine
end

