-- ==== Sys2Proof/Safety.lean ====
section
/-! DEFINITION. The terms in which claims are stated: premises on the flash and on the environment's answers, the transactions an
operation makes, frames, and the invariant. -/

namespace Sys2Proof.Machine

/-- The next `n` flash transactions that the environment answers all answer `Ok` (R102's named premise). -/
abbrev AnswersOk (n : Nat) (s : State) : Prop := s.answers.take n = List.replicate n .ok

/-- No listed answer is a loss of power. -/
abbrev NoPowerLoss (s : State) : Prop := ∀ a ∈ s.answers, a = .ok ∨ a = .err

/-- The `n` bytes at `a` are erased (R164). -/
abbrev Erased (m : Memory) (a n : Nat) : Prop := ∀ k, k < n → m.read (a + k) = erasedByte

/-- `n` double-words at `a` can be programmed in the region: aligned, inside it, inside the address space, erased (R37, R78, R79,
R101, R164). With `n = 0` nothing is programmed and nothing is asked. -/
abbrev CanProgram (m : Memory) (r : Region) (a n : Nat) : Prop :=
  n = 0 ∨ (a % 8 = 0 ∧ r.start ≤ a ∧ a + 8 * n ≤ r.stop ∧ a + 8 * n ≤ addressSpace ∧ Erased m a (8 * n))

/-- The address of unit AW's next program, as a number (R14). -/
def State.writeAddr (s : State) : Nat := s.base.toNat + s.count.toNat

/-- The bytes unit AW has to program once `chunk` is fed: the pending ones, then the chunk (R34, R74). -/
def feedStream (s : State) (chunk : List Byte) : List Byte := s.pendingBytes ++ chunk

/-- How many double-words a FEED completes: `(p + L) div 8` (R72). -/
def feedPrograms (s : State) (chunk : List Byte) : Nat := (s.pending.val + chunk.length) / 8

/-- The PROG transactions of consecutive double-words from `a` on that all answered `Ok` (R42). -/
def progEvents : Word → List DWord → List Event
  | _, [] => []
  | a, d :: ds => .prog a d .ok :: progEvents (a + 8#32) ds

/-- The record is a PROG transaction. -/
def Event.isProg : Event → Bool
  | .prog _ _ _ => true
  | .read _ _ => false
  | .crc _ _ _ => false
  | .rsp _ => false
  | .erase _ _ => false
  | .send _ => false
  | .report _ => false
  | .systemReset => false
  | .disableInterrupts => false
  | .powerLoss => false

/-- The responses of FEEDs that all answer `OK`, from a stream of which `t` bytes were fed before (R82 (d)). -/
def feedResponses : Nat → List (List Byte) → List Event
  | _, [] => []
  | t, c :: cs => .rsp (.aw .ok (BitVec.ofNat 32 (8 * ((t + c.length) / 8)))) :: feedResponses (t + c.length) cs

/-- Everything outside the block, the flash and the environment's answers is the same. -/
abbrev HostSame (s t : State) : Prop :=
  t.params = s.params ∧ t.dispatcher = s.dispatcher ∧ t.boot = s.boot ∧ t.ticks = s.ticks ∧ t.commandSeen = s.commandSeen ∧
  t.frame = s.frame ∧ t.interrupts = s.interrupts ∧ t.transport = s.transport ∧ t.app = s.app ∧ t.cmds = s.cmds ∧ t.wire = s.wire

/-- The registers of unit AW are the same. -/
abbrev WriterSame (s t : State) : Prop :=
  t.buf = s.buf ∧ t.pending = s.pending ∧ t.count = s.count ∧ t.base = s.base ∧ t.aborted = s.aborted

/-- Instructions one after another, each on the state the one before left (R41). -/
def execAll : List Instr → State → Host.Outcome State Fault Refusal
  | [], s => .next s
  | i :: is, s => andThen (exec i s) (execAll is)

/-- The invariant of the machine: the constants meet R6; the flash is canonical and inside the address space; outside an abort at
most 7 bytes are pending (R11); the countdown is at most 30 (R127); control has passed to the application exactly where the
interrupt sources and the transport are off (R130); `Stay` and a multi-frame operation are reached with a command seen, as R127 and
R117 say. The model's own: `Launch` is held only with control passed on (log 14), and what `Params.Ok` asks of the metadata sector
beyond R6 (log 11). -/
abbrev Inv (s : State) : Prop :=
  s.params.Ok ∧ s.flash.wf = true ∧ s.flash.inSpace ∧
  (s.aborted = false → s.pending.val ≤ 7) ∧
  s.ticks ≤ Config.windowTicks ∧
  s.interrupts = s.app.isNone ∧ s.transport = s.app.isNone ∧
  (s.boot = .launch → s.app.isSome = true) ∧
  (s.boot = .stay → s.commandSeen = true) ∧
  (s.dispatcher ≠ .idle → s.commandSeen = true)

end Sys2Proof.Machine
end

