-- ==== Sys2Proof/Certificates/Slice0/Obligations.lean ====
section
/-! DEFINITION. The statements for the provers. Each docstring names the rules of spec/ the statement formalises; a clause that rests
on a choice of the model names its log entry. -/

open Sys2Proof Sys2Proof.Machine

/-! ### Decoding and encoding (30_encoding.md) -/

/-- Words written out from the tables of R51 and R61 decode to their instructions, a code outside them to none (R62), and the end
marker (R63) to an end of stream with no data; the status codes of R53 are 0, 1, 2. -/
def Obligations.TableWordsDecode : Prop :=
  decodeTableWord 8 0 = some .awBegin ∧ decodeTableWord 8 1 = some (.awFeed 0#32 []) ∧
  decodeTableWord 8 2 = some .awFinish ∧ decodeTableWord 8 3 = some .ivVerify ∧
  decodeTableWord 24 0xFEA501 = some .hostConnect ∧ decodeTableWord 24 0xFEA504 = some .hostProgramApp ∧
  decodeTableWord 24 0xFEA5F2 = some .hostRestart ∧ decodeTableWord 24 0xFEA5F5 = some .hostUpdateApp ∧
  decodeTableWord 24 0xFEA5F1 = some (.hostEndOfStream []) ∧
  decodeTableWord 24 0xFEA503 = none ∧ decodeTableWord 24 0x55AA01 = none ∧
  Status.code .ok = 0#2 ∧ Status.code .flashProgramError = 1#2 ∧ Status.code .aborted = 2#2

/-- R51, R52: `op` selects the operation, all four values of it are used, a chunk of 0 to `MAX_CHUNK` bytes is part of the record, and
the `base` or `chunk` of another `op` is ignored; there is no other reason to reject a CMD record than a longer chunk. -/
def Obligations.CmdFormat : Prop :=
  ∀ (maxChunk : Nat) (appBase base : Word) (ctx : Context) (chunk : List Byte),
    decode maxChunk appBase ctx (.cmd ⟨0#2, base, chunk⟩) = .instr .awBegin ∧
    decode maxChunk appBase ctx (.cmd ⟨1#2, base, chunk⟩) =
      (if chunk.length ≤ maxChunk then .instr (.awFeed base chunk) else .reject .oversize) ∧
    decode maxChunk appBase ctx (.cmd ⟨2#2, base, chunk⟩) = .instr .awFinish ∧
    decode maxChunk appBase ctx (.cmd ⟨3#2, base, chunk⟩) = .instr .ivVerify ∧
    ∀ op : BitVec 2, chunk.length ≤ maxChunk → ∃ i, decode maxChunk appBase ctx (.cmd ⟨op, base, chunk⟩) = .instr i

/-- Decoding the packet of a well-formed instruction gives the instruction back, with every operand (R51, R52, R61, R63). -/
def Obligations.DecodeOfEncode : Prop :=
  ∀ (maxChunk : Nat) (appBase : Word) (i : Instr), WellFormed maxChunk i = true →
    decode maxChunk appBase (contextOf i) (encode i) = .instr i

/-- Everything the decoder accepts is well formed, in either context (R52). -/
def Obligations.DecodedIsWellFormed : Prop :=
  ∀ (maxChunk : Nat) (appBase : Word) (ctx : Context) (p : Packet) (i : Instr),
    decode maxChunk appBase ctx p = .instr i → WellFormed maxChunk i = true

/-- The marker is found exactly where it is the suffix of the Frame, and is stripped; a payload Frame that ends with it is the end of
the stream, and any other payload Frame is one FEED at `APP_BASE` of the whole Frame (R63, R119). -/
def Obligations.EndMarkerIsSuffix : Prop :=
  (∀ f data : List Byte, stripMarker f = some data ↔ f = data ++ [0xFE#8, 0xA5#8, 0xF1#8]) ∧
  ∀ (maxChunk : Nat) (appBase : Word) (f : List Byte), f.length ≤ maxChunk →
    (∀ data, f = data ++ [0xFE#8, 0xA5#8, 0xF1#8] →
      decode maxChunk appBase .stream (.frame f) = .instr (.hostEndOfStream data)) ∧
    ((∀ data, f ≠ data ++ [0xFE#8, 0xA5#8, 0xF1#8]) →
      decode maxChunk appBase .stream (.frame f) = .instr (.awFeed appBase f))

/-- In `Idle` a Frame is a command exactly where its first two bytes are the marker and its third is a code of the table; bytes after
the third are ignored (R61, R62, D31). -/
def Obligations.CommandFrames : Prop :=
  ∀ (f : List Byte) (i : Instr), decodeCommand f = .instr i ↔
    ∃ b2 rest, f = 0xFE#8 :: 0xA5#8 :: b2 :: rest ∧
      ((b2 = 0x01#8 ∧ i = .hostConnect) ∨ (b2 = 0x02#8 ∧ i = .hostEraseApp) ∨ (b2 = 0x04#8 ∧ i = .hostProgramApp) ∨
       (b2 = 0x05#8 ∧ i = .hostWriteChecksum) ∨ (b2 = 0xF2#8 ∧ i = .hostRestart) ∨ (b2 = 0xF3#8 ∧ i = .hostJumpToApp) ∨
       (b2 = 0xF4#8 ∧ i = .hostVerifyAndJump) ∨ (b2 = 0xF5#8 ∧ i = .hostUpdateApp))

/-! ### Reset, step and invariant -/

/-- After hardware reset the accumulator is empty and the host is in its initial states (R24, R117, R127). -/
def Obligations.ResetLeavesAccumulatorEmpty : Prop :=
  State.reset.pending = 0 ∧ State.reset.count = 0#32 ∧ State.reset.aborted = false ∧ State.reset.rsp = none ∧
  State.reset.dispatcher = .idle ∧ State.reset.boot = .commandWindow ∧ State.reset.ticks = 30 ∧
  State.reset.commandSeen = false ∧ State.reset.frame = none

/-- The invariant holds at reset (for the parameter values State.reset carries, log 2). -/
def Obligations.ResetMeetsInvariant : Prop := Inv State.reset

/-- Every step keeps the invariant, whatever the environment answers and whatever arrives. Two parts of the invariant are the model's
and not the spec's: that `Launch` is held only with control passed on (after `NoApplicationFound` the sequencer is back in
`CommandWindow`, log 14), and what it asks of the metadata sector beyond R6 (log 11). -/
def Obligations.StepKeepsInvariant : Prop :=
  ∀ s t : State, Inv s → step s = .next t → Inv t

/-- No operation can write the constants of R17. -/
def Obligations.StepKeepsConstants : Prop :=
  ∀ s t : State, step s = .next t → t.params = s.params

/-- A step runs the decoded instruction: a CMD record on the command port; a command Frame in `Idle`, which takes one tick, empties
the slot and sets 'command seen'; a payload Frame of a stream, after which the host looks at the response (R41, R116, R117, R119,
R125, R127). How these follow one another is the model's choice: a CMD record runs before the host's loop (log 7) in any dispatcher
state (log 24), a command Frame takes the tick as one step (log 25), power may be lost
inside the action and what has arrived from outside lands after it (log 8, log 19, in `finishStep`), and
a stream is given up on ABORTED too (log 23, in `afterPayload`). -/
def Obligations.StepRunsDecoded : Prop :=
  (∀ (s : State) (c : Cmd) (rest : List Cmd) (i : Instr), s.app = none → s.cmds = c :: rest →
    decode s.params.maxChunk s.params.appBase .command (.cmd c) = .instr i →
    step s = andThen (exec i { s with cmds := rest }) fun t => .next (finishStep s t)) ∧
  (∀ (s : State) (f : List Byte) (i : Instr), s.app = none → s.cmds = [] → s.dispatcher = .idle → s.ticks ≠ 0 →
    s.frame = some f → decode s.params.maxChunk s.params.appBase .command (.frame f) = .instr i →
    step s = andThen (exec i { s with ticks := s.ticks - 1, frame := none, commandSeen := true }) fun t => .next (finishStep s t)) ∧
  (∀ (s : State) (f : List Byte) (i : Instr) (op : MultiFrame), s.app = none → s.cmds = [] →
    s.dispatcher = .awaitingMore op → op ≠ .writeChecksum →
    s.frame = some f → decode s.params.maxChunk s.params.appBase .stream (.frame f) = .instr i →
    step s = andThen (exec i { s with frame := none }) fun t => .next (finishStep s (afterPayload t)))

/-- `withFetchWord` places a row's word so that the next step runs what the decoder reads from it, on a state with the same block,
flash, constants and answers, and then does what a step does after it (log 17). -/
def Obligations.FetchWordRuns : Prop :=
  ∀ (s : State) (nbits w : Nat) (i : Instr), decodeTableWord nbits w = some i →
    (contextOf i = .stream → nbits / 8 ≤ s.params.maxChunk) →
    ∃ u : State, u.buf = s.buf ∧ u.pending = s.pending ∧ u.count = s.count ∧ u.base = s.base ∧ u.aborted = s.aborted ∧
      u.rsp = s.rsp ∧ u.flash = s.flash ∧ u.params = s.params ∧ u.answers = s.answers ∧ u.wire = s.wire ∧
      step (s.withFetchWord nbits w) = andThen (exec i u) fun t =>
        .next (finishStep (s.withFetchWord nbits w) (match contextOf i with | .command => t | .stream => afterPayload t))

/-! ### Unit AW (40_alignment_writer.md) -/

/-- R71: BEGIN clears `AW.pending`, `AW.count` and `AW.aborted`, answers `OK 0` and changes nothing else. -/
def Obligations.BeginResetsAccumulator : Prop :=
  ∀ s : State, exec .awBegin s = .next { s with
    pending := 0, count := 0#32, aborted := false, rsp := some (.aw .ok 0#32), trace := s.trace ++ [.rsp (.aw .ok 0#32)] }

/-- R71 "`BEGIN` issued while bytes are pending discards them, and they are never programmed": FINISH straight after BEGIN answers
`OK 0`, makes no transaction and leaves the flash alone, whatever was pending or aborted. -/
def Obligations.BeginDiscardsPending : Prop :=
  ∀ s : State, ∃ t, execAll [.awBegin, .awFinish] s = .next t ∧ t.rsp = some (.aw .ok 0#32) ∧ t.flash = s.flash ∧
    t.pending = 0 ∧ t.aborted = false ∧ t.trace = s.trace ++ [.rsp (.aw .ok 0#32), .rsp (.aw .ok 0#32)]

/-- R144: while `AW.aborted` is set, FEED and FINISH answer `ABORTED` with the count, make no transaction and change no state. -/
def Obligations.AbortedWriterRefuses : Prop :=
  ∀ (s : State) (base : Word) (chunk : List Byte), s.aborted = true →
    exec (.awFeed base chunk) s = .next { s with
      rsp := some (.aw .aborted s.count), trace := s.trace ++ [.rsp (.aw .aborted s.count)] } ∧
    exec .awFinish s = .next { s with
      rsp := some (.aw .aborted s.count), trace := s.trace ++ [.rsp (.aw .aborted s.count)] }

/-- R72 with R73 to R76: FEED programs the full double-words of the stream (the pending bytes, then the chunk) in order from
`AW.base + AW.count` on, advances the counter by eight for each, keeps the tail pending, answers `OK` with the new count, and changes
nothing else. `feedPrograms` is `(p + L) div 8`; with 0 programs nothing is asked of the flash. -/
def Obligations.FeedProgramsStream : Prop :=
  ∀ (s : State) (base : Word) (chunk : List Byte), s.flash.wf = true → s.aborted = false → s.pending.val ≤ 7 →
    CanProgram s.flash s.params.appRegion (base.toNat + s.count.toNat) (feedPrograms s chunk) →
    s.count.toNat + 8 * feedPrograms s chunk < counterSpace → AnswersOk (feedPrograms s chunk) s →
    ∃ t, exec (.awFeed base chunk) s = .next t ∧
      t = { s with
        base := base, buf := t.buf, pending := Fin.ofNat 9 ((s.pending.val + chunk.length) % 8),
        count := s.count + BitVec.ofNat 32 (8 * feedPrograms s chunk), flash := t.flash,
        rsp := some (.aw .ok (s.count + BitVec.ofNat 32 (8 * feedPrograms s chunk))),
        answers := s.answers.drop (feedPrograms s chunk), draws := s.draws + feedPrograms s chunk,
        trace := s.trace ++ progEvents (base + s.count) (wordsOf (s.pendingBytes ++ chunk)) ++
          [.rsp (.aw .ok (s.count + BitVec.ofNat 32 (8 * feedPrograms s chunk)))] } ∧
      t.pendingBytes = (s.pendingBytes ++ chunk).drop (8 * feedPrograms s chunk) ∧
      ∀ a, t.flash.read a =
        if base.toNat + s.count.toNat ≤ a ∧ a < base.toNat + s.count.toNat + 8 * feedPrograms s chunk
        then ((s.pendingBytes ++ chunk)[a - (base.toNat + s.count.toNat)]?).getD erasedByte else s.flash.read a

/-- R168: with an accumulator as an AW operation leaves it (R12) and a base that is not a multiple of 8, the first program, of a FEED
or of FINISH, fails with `Err`, the operation aborts with `FLASH_PROGRAM_ERROR` and the old count, and nothing is written. That a misaligned program changes nothing
and takes no answer of the environment is log 26 (R101 calls it this spec's choice, D20). -/
def Obligations.MisalignedBaseAborts : Prop :=
  ∀ s : State, s.aborted = false → s.pending.val ≤ 7 → s.count.toNat % 8 = 0 →
    (∀ (base : Word) (chunk : List Byte), base.toNat % 8 ≠ 0 → 8 ≤ s.pending.val + chunk.length →
      base.toNat + s.count.toNat < addressSpace →
      ∃ t d, (wordsOf (s.pendingBytes ++ chunk)).head? = some d ∧ exec (.awFeed base chunk) s = .next t ∧
        t.rsp = some (.aw .flashProgramError s.count) ∧ t.aborted = true ∧ t.count = s.count ∧ t.base = base ∧
        t.flash = s.flash ∧ t.answers = s.answers ∧ HostSame s t ∧
        t.trace = s.trace ++ [.prog (base + s.count) d .err, .rsp (.aw .flashProgramError s.count)]) ∧
    (s.base.toNat % 8 ≠ 0 → 0 < s.pending.val → s.writeAddr < addressSpace →
      ∃ t d, d.toList = s.pendingBytes ++ List.replicate (8 - s.pending.val) 0xFF#8 ∧ exec .awFinish s = .next t ∧
        t.rsp = some (.aw .flashProgramError s.count) ∧ t.aborted = true ∧ t.count = s.count ∧ t.base = s.base ∧
        t.flash = s.flash ∧ t.answers = s.answers ∧ HostSame s t ∧
        t.trace = s.trace ++ [.prog (s.base + s.count) d .err, .rsp (.aw .flashProgramError s.count)])

/-- R80, R148: when the double-word after `k` successful ones fails in hardware, FEED issues no further transaction, keeps the count
of the bytes whose programs answered `Ok`, sets `AW.aborted` and answers `FLASH_PROGRAM_ERROR`; the earlier double-words stay, the
flash outside them and the failed one is unchanged, and nothing of the host changes. -/
def Obligations.FeedStopsAtFirstFailure : Prop :=
  ∀ (s : State) (base : Word) (chunk : List Byte) (k : Nat), s.flash.wf = true → s.aborted = false → s.pending.val ≤ 7 →
    k < feedPrograms s chunk →
    CanProgram s.flash s.params.appRegion (base.toNat + s.count.toNat) k →
    (base.toNat + s.count.toNat) % 8 = 0 → s.params.appRegion.start ≤ base.toNat + s.count.toNat →
    base.toNat + s.count.toNat + 8 * (k + 1) ≤ s.params.appRegion.stop →
    base.toNat + s.count.toNat + 8 * (k + 1) ≤ addressSpace → s.count.toNat + 8 * k < counterSpace →
    AnswersOk k s → s.answers[k]? = some .err →
    ∃ t d, (wordsOf (s.pendingBytes ++ chunk))[k]? = some d ∧ exec (.awFeed base chunk) s = .next t ∧
      t.rsp = some (.aw .flashProgramError (s.count + BitVec.ofNat 32 (8 * k))) ∧
      t.count = s.count + BitVec.ofNat 32 (8 * k) ∧ t.aborted = true ∧ t.base = base ∧ HostSame s t ∧
      t.trace = s.trace ++ progEvents (base + s.count) ((wordsOf (s.pendingBytes ++ chunk)).take k) ++
        [.prog (base + s.count + BitVec.ofNat 32 (8 * k)) d .err,
         .rsp (.aw .flashProgramError (s.count + BitVec.ofNat 32 (8 * k)))] ∧
      (∀ j, j < 8 * k → t.flash.read (base.toNat + s.count.toNat + j) = ((s.pendingBytes ++ chunk)[j]?).getD erasedByte) ∧
      (∀ a, ¬ (base.toNat + s.count.toNat ≤ a ∧ a < base.toNat + s.count.toNat + 8 * (k + 1)) →
        t.flash.read a = s.flash.read a)

/-- The frame of FEED, however it ends, where at most 7 bytes are pending (R11; a clause of the invariant): every flash byte outside the `(p + L) div 8` double-words from `AW.base + AW.count` on reads
as before; unless power is lost, only the block's registers, the response, the flash and the environment's fields change. -/
def Obligations.FeedFrame : Prop :=
  ∀ (s t : State) (base : Word) (chunk : List Byte), (s.aborted = false → s.pending.val ≤ 7) →
    exec (.awFeed base chunk) s = .next t →
    t.params = s.params ∧
    (∀ a, ¬ (base.toNat + s.count.toNat ≤ a ∧ a < base.toNat + s.count.toNat + 8 * feedPrograms s chunk) →
      t.flash.read a = s.flash.read a) ∧
    (NoPowerLoss s → HostSame s t ∧ (s.aborted = false → t.base = base))

/-- R12, R38: FEED keeps `AW.count` a multiple of 8, however it ends, so the addresses of an operation are aligned exactly when its
base is. -/
def Obligations.FeedKeepsCountAligned : Prop :=
  ∀ (s t : State) (base : Word) (chunk : List Byte), s.count.toNat % 8 = 0 → exec (.awFeed base chunk) s = .next t →
    t.count.toNat % 8 = 0

/-- R77: with `p` bytes pending FINISH programs them, padded with `0xFF`, at `AW.base + AW.count`, advances the counter by `p`, leaves
nothing pending, answers `OK` with the total, and changes nothing else. -/
def Obligations.FinishPadsAndPrograms : Prop :=
  ∀ s : State, s.flash.wf = true → s.aborted = false → 0 < s.pending.val → s.pending.val ≤ 7 →
    CanProgram s.flash s.params.appRegion s.writeAddr 1 → s.count.toNat + s.pending.val < counterSpace → AnswersOk 1 s →
    ∃ t d, d.toList = s.pendingBytes ++ List.replicate (8 - s.pending.val) 0xFF#8 ∧ exec .awFinish s = .next t ∧
      t = { s with
        pending := 0, count := s.count + BitVec.ofNat 32 s.pending.val, flash := t.flash,
        rsp := some (.aw .ok (s.count + BitVec.ofNat 32 s.pending.val)), answers := s.answers.drop 1, draws := s.draws + 1,
        trace := s.trace ++ [.prog (s.base + s.count) d .ok, .rsp (.aw .ok (s.count + BitVec.ofNat 32 s.pending.val))] } ∧
      ∀ a, t.flash.read a =
        if s.writeAddr ≤ a ∧ a < s.writeAddr + s.pending.val then (s.pendingBytes[a - s.writeAddr]?).getD erasedByte
        else if s.writeAddr ≤ a ∧ a < s.writeAddr + 8 then 0xFF#8 else s.flash.read a

/-- R77: with nothing pending FINISH makes no transaction and answers the unchanged total; a second one does the same. -/
def Obligations.FinishWithNothingPending : Prop :=
  ∀ s : State, s.aborted = false → s.pending = 0 →
    exec .awFinish s = .next { s with rsp := some (.aw .ok s.count), trace := s.trace ++ [.rsp (.aw .ok s.count)] } ∧
    execAll [.awFinish, .awFinish] s = .next { s with
      rsp := some (.aw .ok s.count), trace := s.trace ++ [.rsp (.aw .ok s.count), .rsp (.aw .ok s.count)] }

/-- R80: a FINISH whose program fails, by a misaligned address (flash unchanged: R37, R101 with D20, log 26) or in hardware (its eight
bytes unspecified), keeps the count, sets `AW.aborted` and answers `FLASH_PROGRAM_ERROR`. -/
def Obligations.FinishFailureAborts : Prop :=
  ∀ s : State, s.aborted = false → 0 < s.pending.val → s.writeAddr < addressSpace →
    ((s.writeAddr % 8 ≠ 0) ∨
     (s.writeAddr % 8 = 0 ∧ s.params.appRegion.start ≤ s.writeAddr ∧ s.writeAddr + 8 ≤ s.params.appRegion.stop ∧
       s.answers.head? = some .err)) →
    ∃ t, exec .awFinish s = .next t ∧ t.rsp = some (.aw .flashProgramError s.count) ∧ t.aborted = true ∧
      t.count = s.count ∧ t.base = s.base ∧ HostSame s t ∧
      (s.writeAddr % 8 ≠ 0 → t.flash = s.flash) ∧
      (∀ a, ¬ (s.writeAddr ≤ a ∧ a < s.writeAddr + 8) → t.flash.read a = s.flash.read a)

/-- The frame of FINISH, however it ends: every flash byte outside the pending double-word reads as before, all of them where nothing
is pending; unless power is lost, only the block, the flash and the environment's fields change. -/
def Obligations.FinishFrame : Prop :=
  ∀ s t : State, exec .awFinish s = .next t →
    t.params = s.params ∧
    (∀ a, ¬ (0 < s.pending.val ∧ s.writeAddr ≤ a ∧ a < s.writeAddr + 8) → t.flash.read a = s.flash.read a) ∧
    (NoPowerLoss s → HostSame s t ∧ t.base = s.base)

/-- R146: where the sum or the program of FINISH, or those of a FEED after `k` successful programs, have no meaning, the model stops with
the fault the rule names: CounterOverflow (R79), RegionViolation (R78), ProgramNotErased (R101). A loss of power
listed before that point comes first (R163). When in an operation it stops is log 28; the declared region is log 1. -/
def Obligations.WriterModelFaults : Prop :=
  (∀ s : State, s.aborted = false → 0 < s.pending.val →
    (s.answers.head? ≠ some .lostBefore → addressSpace ≤ s.writeAddr → exec .awFinish s = .fault .counterOverflow) ∧
    (s.answers.head? ≠ some .lostBefore → s.writeAddr < addressSpace → s.writeAddr % 8 = 0 →
      ¬ (s.params.appRegion.start ≤ s.writeAddr ∧ s.writeAddr + 8 ≤ s.params.appRegion.stop) →
      exec .awFinish s = .fault .regionViolation) ∧
    (s.writeAddr + 8 ≤ addressSpace → s.writeAddr % 8 = 0 → s.params.appRegion.start ≤ s.writeAddr →
      s.writeAddr + 8 ≤ s.params.appRegion.stop → s.answers.head? = some .ok → ¬ Erased s.flash s.writeAddr 8 →
      exec .awFinish s = .fault .programNotErased)) ∧
  (∀ (s : State) (base : Word) (chunk : List Byte) (k a : Nat), s.flash.wf = true → s.aborted = false → s.pending.val ≤ 7 →
    k < feedPrograms s chunk → CanProgram s.flash s.params.appRegion (base.toNat + s.count.toNat) k →
    s.count.toNat + 8 * k < counterSpace → AnswersOk k s → a = base.toNat + s.count.toNat + 8 * k →
    (s.answers[k]? ≠ some .lostBefore → addressSpace ≤ a → exec (.awFeed base chunk) s = .fault .counterOverflow) ∧
    (s.answers[k]? ≠ some .lostBefore → a < addressSpace → a % 8 = 0 →
      ¬ (s.params.appRegion.start ≤ a ∧ a + 8 ≤ s.params.appRegion.stop) →
      exec (.awFeed base chunk) s = .fault .regionViolation) ∧
    (a + 8 ≤ addressSpace → a % 8 = 0 → s.params.appRegion.start ≤ a → a + 8 ≤ s.params.appRegion.stop →
      s.answers[k]? = some .ok → ¬ Erased s.flash a 8 → exec (.awFeed base chunk) s = .fault .programNotErased) ∧
    (a + 8 ≤ addressSpace → a % 8 = 0 → s.params.appRegion.start ≤ a → a + 8 ≤ s.params.appRegion.stop →
      s.answers[k]? = some .ok → Erased s.flash a 8 → counterSpace ≤ s.count.toNat + 8 * (k + 1) →
      exec (.awFeed base chunk) s = .fault .counterOverflow))

/-- R82: for every segmentation of an image into the chunks of FEEDs between BEGIN and FINISH, all with one aligned base, over an erased
region with every program answering `Ok`: (a) the flash holds the image and FINISH answers `OK N`; (b) the bytes up to the end of the
last double-word are `0xFF` and no other byte changes; (c) the PROG transactions are those of the padded image, in order; (d) each FEED
answers eight times the number of double-words complete so far. -/
def Obligations.SegmentationLaw : Prop :=
  ∀ (s : State) (base : Word) (chunks : List (List Byte)), s.flash.wf = true → base.toNat % 8 = 0 →
    CanProgram s.flash s.params.appRegion base.toNat ((chunks.flatten.length + 7) / 8) →
    8 * ((chunks.flatten.length + 7) / 8) < counterSpace → AnswersOk ((chunks.flatten.length + 7) / 8) s →
    ∃ t, execAll ([.awBegin] ++ chunks.map (.awFeed base) ++ [.awFinish]) s = .next t ∧
      t.rsp = some (.aw .ok (BitVec.ofNat 32 chunks.flatten.length)) ∧ t.count = BitVec.ofNat 32 chunks.flatten.length ∧
      t.pending = 0 ∧ t.aborted = false ∧ HostSame s t ∧
      (∀ k, k < chunks.flatten.length → t.flash.read (base.toNat + k) = (chunks.flatten[k]?).getD erasedByte) ∧
      (∀ k, chunks.flatten.length ≤ k → k < 8 * ((chunks.flatten.length + 7) / 8) → t.flash.read (base.toNat + k) = 0xFF#8) ∧
      (∀ a, ¬ (base.toNat ≤ a ∧ a < base.toNat + 8 * ((chunks.flatten.length + 7) / 8)) → t.flash.read a = s.flash.read a) ∧
      (t.trace.drop s.trace.length).filter Event.isProg = progEvents base (wordsPadded chunks.flatten) ∧
      (t.trace.drop s.trace.length).filter (!·.isProg) =
        [.rsp (.aw .ok 0#32)] ++ feedResponses 0 chunks ++ [.rsp (.aw .ok (BitVec.ofNat 32 chunks.flatten.length))]

/-- R77 (D13), R10: the bytes of `AW.buf` behind the valid ones never reach the flash, a port or a response: with other stale bytes
FEED and FINISH end the same way. -/
def Obligations.StaleBufferIsUnobservable : Prop :=
  ∀ (s : State) (b : DWord) (i : Instr), s.pending.val ≤ 7 → (i = .awFinish ∨ ∃ base chunk, i = .awFeed base chunk) →
    b.toList.take s.pending.val = s.buf.toList.take s.pending.val →
    match exec i s, exec i { s with buf := b } with
    | .next t, .next t' => { t' with buf := t.buf } = t ∧ t'.pendingBytes = t.pendingBytes
    | .fault f, .fault f' => f = f'
    | _, _ => False

/-- R31, R47, R78: whatever FEED and FINISH do, no byte outside the application region changes (the declared region is the
application region, log 1). -/
def Obligations.WriterStaysInRegion : Prop :=
  ∀ (s t : State) (i : Instr), (i = .awFinish ∨ ∃ base chunk, i = .awFeed base chunk) → exec i s = .next t →
    ∀ a, ¬ (s.params.appBase.toNat ≤ a ∧ a < s.params.appBase.toNat + s.params.appMax) → t.flash.read a = s.flash.read a

/-- R16: `AW.aborted` is cleared by BEGIN (which ProgramApp and UpdateApp issue) and by a hardware reset, and by nothing else; it is
set only where a FEED or FINISH (or the end of a stream, which issues both) made a program that answered `Err`. -/
def Obligations.OnlyBeginAndResetClearAborted : Prop :=
  ∀ (s t : State) (i : Instr), exec i s = .next t →
    (s.aborted = true → t.aborted = false →
      i = .awBegin ∨ i = .hostProgramApp ∨ i = .hostUpdateApp ∨ i = .hostRestart ∨ .powerLoss ∈ t.trace.drop s.trace.length) ∧
    (s.aborted = false → t.aborted = true →
      (i = .awFinish ∨ (∃ base chunk, i = .awFeed base chunk) ∨ (∃ data, i = .hostEndOfStream data)) ∧
      ∃ a d, .prog a d .err ∈ t.trace.drop s.trace.length)

/-! ### Unit IV (41_integrity_verifier.md) -/

/-- R90: VERIFY always completes; it reads the two fields, fails on a length above `APP_MAX` without a CRC transaction, otherwise makes
exactly one over `appLength div CRC_WORD_BYTES` words from `APP_BASE` and compares; it changes nothing but the response. The strict
guard (D24, R92), the order of the reads (D26, R91), the divisor (D22, R94) and the byte order of the fields (D10, R36) are decisions
the spec marks as its own (log 30). -/
def Obligations.VerifyChecksImage : Prop :=
  ∀ s : State,
    let fieldBytes := s.flash.readBytes s.params.metaBase.toNat 4
    let sumBytes := s.flash.readBytes (s.params.metaBase.toNat + 4) 4
    let len := le32 fieldBytes
    let n := len.toNat / s.params.crcWordBytes
    let sum := Config.crc32Fn (s.flash.readBytes s.params.appBase.toNat (n * s.params.crcWordBytes))
    let reads := s.trace ++ [.read s.params.metaBase fieldBytes, .read (s.params.metaBase + 4#32) sumBytes]
    exec .ivVerify s =
      if len.toNat > s.params.appMax then .next { s with rsp := some (.iv false), trace := reads ++ [.rsp (.iv false)] }
      else .next { s with
        rsp := some (.iv (decide (sum = le32 sumBytes)))
        trace := reads ++ [.crc s.params.appBase (BitVec.ofNat 32 n) sum, .rsp (.iv (decide (sum = le32 sumBytes)))] }

/-- R92: an erased length field fails the guard whenever `APP_MAX < 0xFFFFFFFF`, and the checksum port is not used. -/
def Obligations.VerifyFailsOnErasedLength : Prop :=
  ∀ s : State, s.params.metaBase.toNat + 8 ≤ addressSpace → Erased s.flash s.params.metaBase.toNat 4 →
    s.params.appMax < 0xFFFFFFFF →
    ∃ t r1 r2, exec .ivVerify s = .next t ∧ t.rsp = some (.iv false) ∧
      t.trace = s.trace ++ [.read s.params.metaBase r1, .read (s.params.metaBase + 4#32) r2, .rsp (.iv false)]

/-- R94, R177 (a): the answer depends on the two fields and on the covered bytes alone: flashes that agree on them give the same
answer, whatever the last `appLength mod CRC_WORD_BYTES` bytes, the pad and the registers of unit AW hold. -/
def Obligations.VerifyDependsOnCoveredBytes : Prop :=
  ∀ s s' : State, s.params.Ok → s'.params = s.params → s'.appLength = s.appLength → s'.appChecksum = s.appChecksum →
    (∀ a, s.params.appBase.toNat ≤ a →
      a < s.params.appBase.toNat + (s.appLength.toNat - s.appLength.toNat % s.params.crcWordBytes) →
      s'.flash.read a = s.flash.read a) →
    ∃ t t', exec .ivVerify s = .next t ∧ exec .ivVerify s' = .next t' ∧ t'.rsp = t.rsp

/-! ### FlashDevice (42_external_capabilities.md) -/

/-- R37: a program at an address that is not a multiple of 8 is not split and not rounded: it is refused with `Err`, and the flash, as
everything but the record on the port, is unchanged by it (this spec's choice by R101 with D20; log 26). -/
def Obligations.MisalignedProgramRefused : Prop :=
  ∀ (r : Region) (addr : Word) (d : DWord) (s : State), addr.toNat % 8 ≠ 0 →
    ∃ t, flashProgram r addr d s = .next (.err, t) ∧ t = { s with trace := s.trace ++ [.prog addr d .err] } ∧
      ∀ a, t.flash.read a = s.flash.read a

/-- R103: a read answers the `n` bytes at `addr`, `addr + 1`, ... (a sum modulo `2^ADDR_W`, R7), at any address and of any length; it
cannot fail, and it changes nothing but the record on the port. -/
def Obligations.FlashReadContract : Prop :=
  ∀ (s : State) (addr : Word) (n : Nat), ∃ bs : List Byte,
    s.flashRead addr n = { s with trace := s.trace ++ [.read addr bs] } ∧ bs.length = n ∧
    ∀ j, j < n → bs[j]? = some (s.flash.read ((addr.toNat + j) % addressSpace))

/-- R101, R102, R35, R43: FlashProgram. A misaligned address, tested first, answers `Err` with the flash unchanged and takes no answer of
the environment (this spec's choice by R101, D20; log 26); outside the region it is the model's fault, unless power is lost first; an
`Err` of the environment leaves the eight bytes unspecified and every other byte as it was; a successful program of an erased
double-word puts byte `j` at `addr + j` and changes no other byte; of one that is not erased it is the fault. -/
def Obligations.FlashProgramContract : Prop :=
  ∀ (r : Region) (addr : Word) (d : DWord) (s : State), s.flash.wf = true →
    (addr.toNat % 8 ≠ 0 → flashProgram r addr d s = .next (.err, { s with trace := s.trace ++ [.prog addr d .err] })) ∧
    (addr.toNat % 8 = 0 → ¬ (r.start ≤ addr.toNat ∧ addr.toNat + 8 ≤ r.stop) → s.answers.head? ≠ some .lostBefore →
      flashProgram r addr d s = .fault .regionViolation) ∧
    (addr.toNat % 8 = 0 → r.start ≤ addr.toNat → addr.toNat + 8 ≤ r.stop → s.answers.head? = some .err →
      ∃ m, flashProgram r addr d s = .next (.err, { s with
          flash := m, answers := s.answers.tail, draws := s.draws + 1, trace := s.trace ++ [.prog addr d .err] }) ∧
        ∀ a, ¬ (addr.toNat ≤ a ∧ a < addr.toNat + 8) → m.read a = s.flash.read a) ∧
    (addr.toNat % 8 = 0 → r.start ≤ addr.toNat → addr.toNat + 8 ≤ r.stop → s.answers.head? = some .ok →
      Erased s.flash addr.toNat 8 →
      ∃ m, flashProgram r addr d s = .next (.ok, { s with
          flash := m, answers := s.answers.tail, draws := s.draws + 1, trace := s.trace ++ [.prog addr d .ok] }) ∧
        ∀ a, m.read a =
          if addr.toNat ≤ a ∧ a < addr.toNat + 8 then (d.toList[a - addr.toNat]?).getD erasedByte else s.flash.read a) ∧
    (addr.toNat % 8 = 0 → r.start ≤ addr.toNat → addr.toNat + 8 ≤ r.stop → s.answers.head? = some .ok →
      ¬ Erased s.flash addr.toNat 8 → flashProgram r addr d s = .fault .programNotErased)

/-- R163: loss of power is a hardware reset at an arbitrary point. Lost during the program of FINISH: the block's registers are at their
reset values, no response is given, the flash outside the eight bytes is as it was. Lost inside any action of a step, once it has made
`k` records: those stand in the trace, nothing after them happened, the flash is what they made of it (`replay`), a control transfer
included in the action is undone. Lost inside a VERIFY: the flash is as it was, and with at most two records made neither the checksum
nor the response was. What `replay` makes of the records of a whole instruction is the flash that instruction leaves (R43). Listed before
an aligned program, inside the region or not, it comes before anything of the program. That the host is then in `Idle` with an empty
slot, the receive interrupt and the transport enabled, is log 18; where a loss can be placed is log 19. -/
def Obligations.PowerLossIsReset : Prop :=
  (∀ s : State, s.aborted = false → 0 < s.pending.val → s.writeAddr % 8 = 0 → s.params.appRegion.start ≤ s.writeAddr →
    s.writeAddr + 8 ≤ s.params.appRegion.stop → s.writeAddr + 8 ≤ addressSpace → s.answers.head? = some .lostDuring →
    ∃ t, exec .awFinish s = .next t ∧ t.pending = 0 ∧ t.count = 0#32 ∧ t.aborted = false ∧ t.rsp = none ∧
      t.dispatcher = .idle ∧ t.boot = .commandWindow ∧ t.ticks = 30 ∧ t.commandSeen = false ∧ t.frame = none ∧
      t.interrupts = true ∧ t.transport = true ∧ t.app = none ∧ t.params = s.params ∧
      (∀ a, ¬ (s.writeAddr ≤ a ∧ a < s.writeAddr + 8) → t.flash.read a = s.flash.read a)) ∧
  (∀ (s u : State) (k : Nat) (later : List Outside), s.app = none → s.wire = ⟨some k, []⟩ :: later → consumerTurn s = .next u →
    ∃ t, step s = .next t ∧ t.pending = 0 ∧ t.count = 0#32 ∧ t.aborted = false ∧ t.rsp = none ∧
      t.dispatcher = .idle ∧ t.boot = .commandWindow ∧ t.ticks = 30 ∧ t.commandSeen = false ∧ t.frame = none ∧
      t.interrupts = true ∧ t.transport = true ∧ t.app = none ∧ t.params = s.params ∧ t.cmds = u.cmds ∧ t.wire = later ∧
      t.trace = s.trace ++ (u.trace.drop s.trace.length).take k ++ [.powerLoss] ∧
      t.flash = if k < (u.trace.drop s.trace.length).length
        then (((u.trace.drop s.trace.length).take k).foldl replay s).flash else u.flash) ∧
  (∀ (s : State) (k : Nat) (c : Cmd) (rest : List Cmd) (later : List Outside), s.app = none → s.wire = ⟨some k, []⟩ :: later →
    s.cmds = c :: rest → c.op = 3#2 →
    ∃ t, step s = .next t ∧ t.flash = s.flash ∧ t.rsp = none ∧
      (k ≤ 2 → t.trace = s.trace ++ [.read s.params.metaBase (s.flash.readBytes s.params.metaBase.toNat 4),
        .read (s.params.metaBase + 4#32) (s.flash.readBytes (s.params.metaBase + 4#32).toNat 4)].take k ++ [.powerLoss])) ∧
  (∀ (s t : State) (i : Instr), exec i s = .next t → .powerLoss ∉ t.trace.drop s.trace.length →
    ((t.trace.drop s.trace.length).foldl replay s).flash = t.flash) ∧
  (∀ (r : Region) (addr : Word) (d : DWord) (s : State), addr.toNat % 8 = 0 → s.answers.head? = some .lostBefore →
    ∃ t, flashProgram r addr d s = .next (.lost, t) ∧ t.flash = s.flash ∧ t.trace = s.trace ++ [.powerLoss] ∧ t.rsp = none)

/-! ### The host's commands (43_host_sequences.md) -/

/-- R118: Connect sends the fixed acknowledgment and changes no state. -/
def Obligations.ConnectAcknowledges : Prop :=
  ∀ s : State, exec .hostConnect s = .next { s with
    trace := s.trace ++ [.send [0xFE#8, 0xA5#8, 0x01#8, 0x03#8, 0xFF#8, 0x03#8, 0x00#8, 0x01#8]] }

/-- R118, R104: EraseApp whose erase succeeds makes every byte of the application region `0xFF`, leaves every other byte, and issues
no operation to the block. -/
def Obligations.EraseAppErasesRegion : Prop :=
  ∀ (s : State) (rest : List Answer), s.flash.wf = true → s.params.appRegion.wholePages s.params.pageSize →
    s.answers = .ok :: rest →
    ∃ t, exec .hostEraseApp s = .next t ∧
      t = { s with
        flash := t.flash, answers := rest, draws := s.draws + 1, trace := s.trace ++ [.erase s.params.appRegion .ok] } ∧
      ∀ a, t.flash.read a =
        if s.params.appBase.toNat ≤ a ∧ a < s.params.appBase.toNat + s.params.appMax then 0xFF#8 else s.flash.read a

/-- R118, R104: an EraseApp that fails reports FlashEraseError and leaves every byte outside the region; a region of partial pages is
refused, unless power is lost first (U14; log 21; where pages begin is log 32). -/
def Obligations.EraseAppFailures : Prop :=
  ∀ s : State,
    (s.params.appRegion.wholePages s.params.pageSize → s.answers.head? = some .err →
      ∃ t, exec .hostEraseApp s = .next t ∧ WriterSame s t ∧ HostSame s t ∧
        t.trace = s.trace ++ [.erase s.params.appRegion .err, .report .flashEraseError] ∧
        ∀ a, ¬ (s.params.appBase.toNat ≤ a ∧ a < s.params.appBase.toNat + s.params.appMax) →
          t.flash.read a = s.flash.read a) ∧
    (¬ s.params.appRegion.wholePages s.params.pageSize → s.answers.head? ≠ some .lostBefore →
      exec .hostEraseApp s = .refused .partialPageErase)

/-- R119: ProgramApp issues BEGIN and waits for payload Frames; it does not erase. -/
def Obligations.ProgramAppStartsStream : Prop :=
  ∀ s : State, exec .hostProgramApp s = .next { s with
    pending := 0, count := 0#32, aborted := false, rsp := some (.aw .ok 0#32), dispatcher := .awaitingMore .programApp,
    trace := s.trace ++ [.rsp (.aw .ok 0#32)] }

/-- R121: UpdateApp whose erase succeeds erases the application region, then starts a stream as ProgramApp does; whose erase fails
reports FlashEraseError and starts none (R125). -/
def Obligations.UpdateAppErasesAndStarts : Prop :=
  ∀ s : State, s.flash.wf = true → s.params.appRegion.wholePages s.params.pageSize →
    (s.answers.head? = some .ok →
      ∃ t, exec .hostUpdateApp s = .next t ∧
        t = { s with
          pending := 0, count := 0#32, aborted := false, rsp := some (.aw .ok 0#32), dispatcher := .awaitingMore .updateApp,
          flash := t.flash, answers := s.answers.tail, draws := s.draws + 1, trace := s.trace ++ [.erase s.params.appRegion .ok, .rsp (.aw .ok 0#32)] } ∧
        ∀ a, t.flash.read a =
          if s.params.appBase.toNat ≤ a ∧ a < s.params.appBase.toNat + s.params.appMax then 0xFF#8 else s.flash.read a) ∧
    (s.answers.head? = some .err →
      ∃ t, exec .hostUpdateApp s = .next t ∧ WriterSame s t ∧ HostSame s t ∧
        t.trace = s.trace ++ [.erase s.params.appRegion .err, .report .flashEraseError])

/-- R119, R121, R134: the end of the stream feeds the Frame without its marker, finishes the image, stores the total as `appLength`
and returns to `Idle`; ProgramApp does not jump, UpdateApp then does what JumpToApp does, without VERIFY. Every program and the erase
answering `Ok`, over an erased application region and a metadata sector of whole pages. Exactly the image, with its `0xFF` pad, and the
length field change in the flash; outside the block and the flash only the dispatcher's state changes before the jump. -/
def Obligations.EndOfStreamStoresLength : Prop :=
  ∀ (s : State) (data : List Byte) (op : MultiFrame), Inv s → s.dispatcher = .awaitingMore op → op ≠ .writeChecksum →
    s.aborted = false → s.count.toNat % 8 = 0 →
    s.count.toNat + 8 * ((s.pending.val + data.length + 7) / 8) ≤ s.params.appMax →
    s.count.toNat + 8 * ((s.pending.val + data.length + 7) / 8) < counterSpace →
    Erased s.flash (s.params.appBase.toNat + s.count.toNat) (8 * ((s.pending.val + data.length + 7) / 8)) →
    s.params.metaSector.wholePages s.params.pageSize →
    AnswersOk ((s.pending.val + data.length + 7) / 8 + 1 + s.params.metaSectorSize / 8) s →
    ∃ t u, exec (.hostEndOfStream data) s = .next t ∧
      (op = .programApp → t = u) ∧ (op = .updateApp → exec .hostJumpToApp u = .next t) ∧
      u = { s with
        buf := u.buf, pending := 0, count := s.count + BitVec.ofNat 32 (s.pending.val + data.length), base := s.params.appBase,
        rsp := some (.aw .ok (s.count + BitVec.ofNat 32 (s.pending.val + data.length))), flash := u.flash, dispatcher := .idle,
        answers := s.answers.drop ((s.pending.val + data.length + 7) / 8 + 1 + s.params.metaSectorSize / 8),
        draws := s.draws + ((s.pending.val + data.length + 7) / 8 + 1 + s.params.metaSectorSize / 8), trace := u.trace } ∧
      ∀ a, u.flash.read a =
        if s.params.appBase.toNat + s.count.toNat ≤ a ∧
          a < s.params.appBase.toNat + s.count.toNat + 8 * ((s.pending.val + data.length + 7) / 8)
        then ((s.pendingBytes ++ data)[a - (s.params.appBase.toNat + s.count.toNat)]?).getD 0xFF#8
        else if s.params.metaBase.toNat ≤ a ∧ a < s.params.metaBase.toNat + 4
        then ((le32Bytes (s.count + BitVec.ofNat 32 (s.pending.val + data.length)))[a - s.params.metaBase.toNat]?).getD 0xFF#8
        else s.flash.read a

/-- R125: a stream is given up after the first failure: the dispatcher is `Idle`, the error is reported, no further operation is issued.
A payload Frame whose FEED answers `FLASH_PROGRAM_ERROR`, for whatever reason, or `ABORTED` (log 23): `appLength` is as before.
The same with premises on the state alone: in hardware after `k` successful programs, by a misaligned address, by the sticky flag. At
the end of the stream: a failed FEED or FINISH, where no length is written, and a failed field write, whose error is reported
(log 13); in all three UpdateApp does not jump (log 13, log 23). Last, a WriteChecksum (R120) whose field write fails: its error is
reported, the dispatcher is `Idle`, nothing jumps (log 13), and with premises on the state alone for the failed erase. That a misaligned
program leaves the flash as it was is this spec's choice by R101, D20 (log 26). -/
def Obligations.StreamGivenUpOnError : Prop :=
  (∀ (s : State) (f : List Byte) (op : MultiFrame), s.app = none → s.cmds = [] → s.wire = [] →
    s.dispatcher = .awaitingMore op → op ≠ .writeChecksum → s.frame = some f → f.length ≤ s.params.maxChunk →
    stripMarker f = none →
    (∀ (u : State) (st : Status) (n : Word), exec (.awFeed s.params.appBase f) { s with frame := none } = .next u →
      u.rsp = some (.aw st n) → st ≠ .ok →
      step s = .next { u with dispatcher := .idle, trace := u.trace ++ [.report .flashProgramError] } ∧ u.app = none ∧
      (Inv s → u.appLength = s.appLength)) ∧
    (∀ k : Nat, Inv s → s.aborted = false → k < feedPrograms s f → s.count.toNat % 8 = 0 →
      Erased s.flash (s.params.appBase.toNat + s.count.toNat) (8 * k) → s.count.toNat + 8 * (k + 1) ≤ s.params.appMax →
      s.count.toNat + 8 * k < counterSpace → AnswersOk k s → s.answers[k]? = some .err →
      ∃ t d, step s = .next t ∧ t.dispatcher = .idle ∧ t.aborted = true ∧ t.count = s.count + BitVec.ofNat 32 (8 * k) ∧
        t.app = none ∧ t.appLength = s.appLength ∧
        t.trace = s.trace ++ progEvents (s.params.appBase + s.count) ((wordsOf (s.pendingBytes ++ f)).take k) ++
          [.prog (s.params.appBase + s.count + BitVec.ofNat 32 (8 * k)) d .err,
           .rsp (.aw .flashProgramError (s.count + BitVec.ofNat 32 (8 * k))), .report .flashProgramError]) ∧
    (s.aborted = false → s.pending.val ≤ 7 → 8 ≤ s.pending.val + f.length →
      (s.params.appBase.toNat + s.count.toNat) % 8 ≠ 0 → s.params.appBase.toNat + s.count.toNat < addressSpace →
      ∃ t d, step s = .next t ∧ t.dispatcher = .idle ∧ t.aborted = true ∧ t.count = s.count ∧ t.flash = s.flash ∧
        t.trace = s.trace ++ [.prog (s.params.appBase + s.count) d .err, .rsp (.aw .flashProgramError s.count),
          .report .flashProgramError]) ∧
    (s.aborted = true → step s = .next { s with
      frame := none, dispatcher := .idle, rsp := some (.aw .aborted s.count),
      trace := s.trace ++ [.rsp (.aw .aborted s.count), .report .flashProgramError] })) ∧
  (∀ (s u : State) (data : List Byte) (op : MultiFrame) (st : Status) (n : Word), s.dispatcher = .awaitingMore op →
    op ≠ .writeChecksum → exec (.awFeed s.params.appBase data) s = .next u → u.rsp = some (.aw st n) →
    (st ≠ .ok →
      exec (.hostEndOfStream data) s = .next { u with dispatcher := .idle, trace := u.trace ++ [.report .flashProgramError] } ∧
      u.app = s.app ∧ (Inv s → u.appLength = s.appLength)) ∧
    (st = .ok → ∀ (v : State) (st' : Status) (total : Word), exec .awFinish u = .next v → v.rsp = some (.aw st' total) →
      (st' ≠ .ok →
        exec (.hostEndOfStream data) s = .next { v with dispatcher := .idle, trace := v.trace ++ [.report .flashProgramError] } ∧
        v.app = s.app ∧ (Inv s → v.appLength = s.appLength)) ∧
      (st' = .ok → ∀ (w : State) (e : HostError), writeField Config.lenOff (le32Bytes total) v = .next (.error e, w) →
        exec (.hostEndOfStream data) s = .next { w with dispatcher := .idle, trace := w.trace ++ [.report e] } ∧
        w.app = s.app))) ∧
  (∀ (s : State) (f : List Byte), s.app = none → s.cmds = [] → s.wire = [] → s.dispatcher = .awaitingMore .writeChecksum →
    s.frame = some f → 4 ≤ f.length →
    (∀ (w : State) (e : HostError), writeField Config.crcOff (f.take 4) { s with frame := none } = .next (.error e, w) →
      step s = .next { w with dispatcher := .idle, trace := w.trace ++ [.report e] } ∧ w.app = none) ∧
    (8 ≤ s.params.metaMax → s.params.metaSector.wholePages s.params.pageSize → s.answers.head? = some .err →
      ∃ t, step s = .next t ∧ t.dispatcher = .idle ∧ t.frame = none ∧ t.app = none ∧ t.rsp = s.rsp ∧ WriterSame s t ∧
        t.trace = s.trace ++ [.read s.params.metaBase (s.flash.readBytes s.params.metaBase.toNat s.params.metaSectorSize),
          .erase s.params.metaSector .err, .report .flashEraseError] ∧
        ∀ a, ¬ (s.params.metaBase.toNat ≤ a ∧ a < s.params.metaBase.toNat + s.params.metaSectorSize) →
          t.flash.read a = s.flash.read a))

/-- R120: WriteChecksum enters `AwaitingMore`; with no Frame the wait goes on; a Frame shorter than four bytes is passed over; one of at
least four bytes is stored, its first four bytes unchanged at `CRC_OFF`, the bytes after them ignored, and the host returns to `Idle`.
No operation is issued to the block: its registers and the response port are as before. Stated for steps after which nothing arrives
from outside. -/
def Obligations.WriteChecksumStores : Prop :=
  (∀ s : State, exec .hostWriteChecksum s = .next { s with dispatcher := .awaitingMore .writeChecksum }) ∧
  ∀ s : State, s.app = none → s.cmds = [] → s.wire = [] → s.dispatcher = .awaitingMore .writeChecksum →
    (s.frame = none → step s = .next s) ∧
    ∀ f : List Byte, s.frame = some f →
      (f.length < 4 → step s = .next { s with frame := none }) ∧
      (Inv s → 4 ≤ f.length → s.params.metaSector.wholePages s.params.pageSize → AnswersOk (1 + s.params.metaSectorSize / 8) s →
        ∃ t, step s = .next t ∧
          t = { s with
            frame := none, dispatcher := .idle, flash := t.flash, answers := s.answers.drop (1 + s.params.metaSectorSize / 8),
            draws := s.draws + (1 + s.params.metaSectorSize / 8), trace := t.trace } ∧
          t.appChecksum = le32 (f.take 4) ∧ t.appLength = s.appLength ∧
          ∀ a, ¬ (s.params.metaBase.toNat + 4 ≤ a ∧ a < s.params.metaBase.toNat + 8) → t.flash.read a = s.flash.read a)

/-- R126, R108, R160, R162: Restart is a hardware reset: registers and host state go to their reset values, no response is sent, the
flash and the constants stay. That the host is then in `Idle` with an empty slot, the receive interrupt and the transport enabled, is
log 18. -/
def Obligations.RestartResets : Prop :=
  ∀ s : State, ∃ t, exec .hostRestart s = .next t ∧ t.pending = 0 ∧ t.count = 0#32 ∧ t.aborted = false ∧ t.rsp = none ∧
    t.dispatcher = .idle ∧ t.boot = .commandWindow ∧ t.ticks = 30 ∧ t.commandSeen = false ∧ t.frame = none ∧
    t.interrupts = true ∧ t.transport = true ∧ t.app = none ∧ t.flash = s.flash ∧ t.params = s.params ∧
    t.trace = s.trace ++ [.systemReset]

/-- R121, R130: JumpToApp jumps without an integrity check: where the high bits of the word at `APP_BASE` match, interrupt sources and
transport are disabled and control goes to the word at `APP_BASE + 4` with that stack pointer; otherwise `NoApplicationFound` is
reported and control returns (the words are read least significant byte first, log 16). -/
def Obligations.JumpToAppLaunches : Prop :=
  ∀ s : State,
    let sp := le32 (s.flash.readBytes s.params.appBase.toNat 4)
    let entry := le32 (s.flash.readBytes (s.params.appBase.toNat + 4) 4)
    exec .hostJumpToApp s =
      if sp >>> (32 - s.params.stackBits) = s.params.stackPattern >>> (32 - s.params.stackBits) then
        .next { s with interrupts := false, transport := false, app := some ⟨sp, entry⟩, trace := s.trace ++ [.disableInterrupts] }
      else .next { s with trace := s.trace ++ [.report .noApplicationFound] }

/-- R121: VerifyAndJump issues VERIFY and jumps exactly where it answers `valid = 1` and the launcher's check passes; it changes no
flash byte and no register of unit AW. The two words of the image are read least significant byte first (log 16). -/
def Obligations.VerifyAndJumpGated : Prop :=
  ∀ s : State, ∃ v t, exec .ivVerify s = .next v ∧ exec .hostVerifyAndJump s = .next t ∧ t.rsp = v.rsp ∧
    t.flash = s.flash ∧ WriterSame s t ∧ t.dispatcher = s.dispatcher ∧
    (v.rsp ≠ some (.iv true) → t = v) ∧
    (v.rsp = some (.iv true) → t.app =
      if stackPlausible s.params (le32 (s.flash.readBytes s.params.appBase.toNat 4)) then
        some ⟨le32 (s.flash.readBytes s.params.appBase.toNat 4), le32 (s.flash.readBytes (s.params.appBase.toNat + 4) 4)⟩
      else s.app)

/-- The commands that are no erase, no program and no metadata write leave every flash byte as it was. -/
def Obligations.OnlyWritersTouchFlash : Prop :=
  ∀ (s t : State) (i : Instr),
    i ∈ [.awBegin, .ivVerify, .hostConnect, .hostProgramApp, .hostWriteChecksum, .hostRestart, .hostJumpToApp,
      .hostVerifyAndJump] →
    exec i s = .next t → t.flash = s.flash ∧ t.params = s.params ∧ t.cmds = s.cmds ∧ t.wire = s.wire ∧ t.answers = s.answers

/-! ### MetadataStore (R122 to R124) -/

/-- R122: a field write stores the bytes at the offset and leaves every other byte of the flash, the rest of the sector included, and
everything but the flash and the environment's fields. -/
def Obligations.WriteFieldKeepsOthers : Prop :=
  ∀ (s : State) (off : Nat) (bs : List Byte), Inv s → off + bs.length ≤ s.params.metaMax →
    s.params.metaSector.wholePages s.params.pageSize → AnswersOk (1 + s.params.metaSectorSize / 8) s →
    ∃ t, writeField off bs s = .next (.stored, t) ∧
      t = { s with
        flash := t.flash, answers := s.answers.drop (1 + s.params.metaSectorSize / 8),
        draws := s.draws + (1 + s.params.metaSectorSize / 8), trace := t.trace } ∧
      ∀ a, t.flash.read a =
        if s.params.metaBase.toNat + off ≤ a ∧ a < s.params.metaBase.toNat + off + bs.length
        then (bs[a - (s.params.metaBase.toNat + off)]?).getD erasedByte else s.flash.read a

/-- R123: a field write past the usable size is rejected with MetadataOverflowError before any flash access, and nothing changes; the
two writes the host makes always pass the guard. -/
def Obligations.WriteFieldRejectsOverflow : Prop :=
  ∀ (s : State) (off : Nat) (bs : List Byte),
    (s.params.metaMax < off + bs.length → writeField off bs s = .next (.error .metadataOverflowError, s)) ∧
    (8 ≤ s.params.metaMax → bs.length = 4 → ∀ (t : State) (e : HostError),
      (writeField Config.lenOff bs s = .next (.error e, t) ∨ writeField Config.crcOff bs s = .next (.error e, t)) →
      e ≠ .metadataOverflowError)

/-- R124: power lost between the erase and the reprogram of a field write loses all fields of the sector, not just the one being
written: both read `0xFFFFFFFF`, and VERIFY then fails by the length guard. -/
def Obligations.PowerLossLosesMetadata : Prop :=
  ∀ (s : State) (off : Nat) (bs : List Byte) (rest : List Answer), Inv s → off + bs.length ≤ s.params.metaMax →
    s.params.metaSector.wholePages s.params.pageSize → s.answers = .ok :: .lostBefore :: rest →
    s.params.appMax < 0xFFFFFFFF →
    ∃ t v, writeField off bs s = .next (.lost, t) ∧ t.appLength = 0xFFFFFFFF#32 ∧ t.appChecksum = 0xFFFFFFFF#32 ∧
      (∀ a, s.params.metaBase.toNat ≤ a → a < s.params.metaBase.toNat + s.params.metaSectorSize → t.flash.read a = 0xFF#8) ∧
      exec .ivVerify t = .next v ∧ v.rsp = some (.iv false)

/-- R95, R165: storing a length of at most `APP_MAX` and a checksum, then VERIFY, answers `valid = 1` exactly where the checksum equals
`CRC32_FN` of the covered bytes of the image. -/
def Obligations.StoredChecksumRoundTrip : Prop :=
  ∀ (s : State) (n c : Word), Inv s → n.toNat ≤ s.params.appMax → s.params.metaSector.wholePages s.params.pageSize →
    AnswersOk (2 * (1 + s.params.metaSectorSize / 8)) s →
    ∃ t u v, writeField Config.lenOff (le32Bytes n) s = .next (.stored, t) ∧
      writeField Config.crcOff (le32Bytes c) t = .next (.stored, u) ∧ exec .ivVerify u = .next v ∧
      v.rsp = some (.iv (decide (Config.crc32Fn (s.flash.readBytes s.params.appBase.toNat
        (n.toNat / s.params.crcWordBytes * s.params.crcWordBytes)) = c)))

/-! ### FrameReceiver, CommandDispatcher and BootSequencer (R116, R117, R127) -/

/-- R116: at most one unconsumed Frame exists: a Frame arriving at the empty slot fills it, one arriving while the previous is
unconsumed is dropped. -/
def Obligations.NewestFrameIsDropped : Prop :=
  ∀ (s : State) (f g : List Byte), s.interrupts = true → s.transport = true →
    (s.frame = none → arrive s (.frame f) = { s with frame := some f } ∧
      arrive (arrive s (.frame f)) (.frame g) = { s with frame := some f }) ∧
    (s.frame = some g → arrive s (.frame f) = s)

/-- R62, R117, U15: a Frame in `Idle` that is no command of the table, one with an unknown code included, is dropped: apart from the
tick and the slot nothing changes, 'command seen' included, nothing is answered, nothing reaches the block. The end marker is no
command in `Idle` either: executed there, it changes nothing. -/
def Obligations.UnknownFramesDropped : Prop :=
  (∀ (s : State) (f : List Byte), s.app = none → s.cmds = [] → s.wire = [] → s.dispatcher = .idle → s.ticks ≠ 0 →
    s.frame = some f → (∀ i, decodeCommand f ≠ .instr i) →
    step s = .next { s with ticks := s.ticks - 1, frame := none }) ∧
  (∀ (s : State) (data : List Byte), s.dispatcher = .idle →
    (∀ i, decodeCommand endMarker ≠ .instr i) ∧ exec (.hostEndOfStream data) s = .next s)

/-- R127: the decision at the end of a countdown. With a command seen the device stays in update mode; otherwise VERIFY decides:
failure restarts the countdown, success invokes AppLauncher, and where its check passes the application is launched (what follows
`NoApplicationFound` is log 14; the check and the launch read the words of the image least significant byte first, log 16). A Frame that
waits unpolled at the end of the countdown does not count: the model's choice, log 33. -/
def Obligations.BootDecision : Prop :=
  ∀ s : State, s.app = none → s.cmds = [] → s.wire = [] → s.dispatcher = .idle → s.ticks = 0 → s.boot = .commandWindow →
    (s.commandSeen = true → step s = .next { s with boot := .stay, ticks := 30 }) ∧
    (s.commandSeen = false → ∃ v t, exec .ivVerify s = .next v ∧ step s = .next t ∧
      (v.rsp ≠ some (.iv true) → t = { v with ticks := 30 }) ∧
      (v.rsp = some (.iv true) →
        stackPlausible s.params (le32 (s.flash.readBytes s.params.appBase.toNat 4)) = true →
        t.boot = .launch ∧ t.interrupts = false ∧ t.transport = false ∧
        t.app = some ⟨le32 (s.flash.readBytes s.params.appBase.toNat 4),
          le32 (s.flash.readBytes (s.params.appBase.toNat + 4) 4)⟩))

/-- R127: in `Stay` the window is run again and again and VERIFY is never consulted; a tick without a Frame only counts down. -/
def Obligations.StayRerunsWindow : Prop :=
  ∀ s : State, s.app = none → s.cmds = [] → s.wire = [] → s.dispatcher = .idle → s.frame = none →
    (s.ticks = 0 → s.boot = .stay → step s = .next { s with ticks := 30 }) ∧
    (s.ticks ≠ 0 → step s = .next { s with ticks := s.ticks - 1 })

/-- R127 "if a command Frame arrives at any point in the window, the device never autonomously jumps for the remainder of the run":
from a state with a command seen, no step transfers control, and the flag stays set unless power is lost, but for the two steps in
which a command of the protocol has its effect: a command Frame polled in `Idle`, and the end of the stream of an UpdateApp. CMD records,
ticks, decisions (a Frame that waits unpolled included; that a Frame is observed only by a poll of the window is log 33), the payload Frames and the end of a ProgramApp, the waits and the Frame of a WriteChecksum are all covered. -/
def Obligations.NoAutonomousJumpAfterCommand : Prop :=
  ∀ s t : State, s.commandSeen = true →
    (s.cmds = [] → s.dispatcher = .idle → s.ticks ≠ 0 → ∀ f i, s.frame = some f → decodeCommand f ≠ .instr i) →
    (s.cmds = [] → s.dispatcher = .awaitingMore .updateApp → ∀ f data, s.frame = some f → stripMarker f ≠ some data) →
    step s = .next t →
    t.app = none ∧ (t.commandSeen = true ∨ .powerLoss ∈ t.trace.drop s.trace.length)

/-! ### Rules of the whole machine -/

/-- Where the machine refuses by name: a step once the application runs (R45, R130; log 22), a chunk or a payload Frame longer than
`MAX_CHUNK` (R52; log 20), an erase of partial pages by UpdateApp or by a field write, unless power is lost first (U14; log 21; where
pages begin is log 32). -/
def Obligations.RefusalsByName : Prop :=
  ∀ s : State,
    (∀ l : Launch, s.app = some l → step s = .refused .applicationRunning) ∧
    (∀ (c : Cmd) (rest : List Cmd), s.app = none → s.cmds = c :: rest → c.op = 1#2 → s.params.maxChunk < c.chunk.length →
      step s = .refused .oversizeChunk) ∧
    (∀ (f : List Byte) (op : MultiFrame), s.app = none → s.cmds = [] → s.dispatcher = .awaitingMore op → op ≠ .writeChecksum →
      s.frame = some f → s.params.maxChunk < f.length → step s = .refused .oversizeChunk) ∧
    (¬ s.params.appRegion.wholePages s.params.pageSize → s.answers.head? ≠ some .lostBefore →
      exec .hostUpdateApp s = .refused .partialPageErase) ∧
    (∀ (off : Nat) (bs : List Byte), off + bs.length ≤ s.params.metaMax → ¬ s.params.metaSector.wholePages s.params.pageSize →
      s.answers.head? ≠ some .lostBefore → writeField off bs s = .refused .partialPageErase)


/-- R121 "No command's jump passes the reset-vector check of rule R130 by", R130: after every step, control has passed to an
application only where the high bits of the word at `APP_BASE` match the pattern; then that word is the stack pointer, the word behind
it is where execution goes, and interrupt sources and transport are off (log 16). -/
def Obligations.JumpsOnlyToPlausibleImages : Prop :=
  ∀ (s t : State) (l : Launch), step s = .next t → t.app = some l →
    l.stackPointer = le32 (t.flash.readBytes t.params.appBase.toNat 4) ∧
    l.entry = le32 (t.flash.readBytes (t.params.appBase.toNat + 4) 4) ∧
    l.stackPointer >>> (32 - t.params.stackBits) = t.params.stackPattern >>> (32 - t.params.stackBits) ∧
    t.interrupts = false ∧ t.transport = false

/-- R31, R32, R47: whatever a step does, no flash byte outside the application region and the metadata sector changes. -/
def Obligations.StepWritesOnlyDeclaredRegions : Prop :=
  ∀ s t : State, step s = .next t → ∀ a,
    ¬ (s.params.appBase.toNat ≤ a ∧ a < s.params.appBase.toNat + s.params.appMax) →
    ¬ (s.params.metaBase.toNat ≤ a ∧ a < s.params.metaBase.toNat + s.params.metaSectorSize) →
    t.flash.read a = s.flash.read a
end

