-- ==== Sys2Proof/Laws/Memory.lean ====
section
/-! SUPPORT. Laws of the flash as plain data: read after write, frames, and the canonical form. -/

namespace Sys2Proof.Machine

@[simp] theorem Memory.read_nil (a : Nat) : Memory.read [] a = erasedByte := rfl

/-- Below the first listed address everything is erased. -/
theorem Memory.read_of_wfFrom_lt {m : Memory} {lo a : Nat} (h : m.wfFrom lo = true) (ha : a < lo) :
    m.read a = erasedByte := by
  induction m generalizing lo with
  | nil => rfl
  | cons c m ih =>
    obtain ⟨k, v⟩ := c
    simp only [Memory.wfFrom, Bool.and_eq_true, decide_eq_true_eq] at h
    simp only [Memory.read, if_neg (show ¬ k = a by omega)]
    exact ih h.2 (by omega)

theorem Memory.wfFrom_mono {m : Memory} {lo lo' : Nat} (h : m.wfFrom lo = true) (hl : lo' ≤ lo) :
    m.wfFrom lo' = true := by
  cases m with
  | nil => rfl
  | cons c m =>
    obtain ⟨k, v⟩ := c
    simp only [Memory.wfFrom, Bool.and_eq_true, decide_eq_true_eq] at h ⊢
    exact ⟨⟨by omega, h.1.2⟩, h.2⟩

/-- A write keeps the canonical form. -/
theorem Memory.wfFrom_write {m : Memory} {lo a : Nat} (b : Byte) (h : m.wfFrom lo = true) (ha : lo ≤ a) :
    (m.write a b).wfFrom lo = true := by
  induction m generalizing lo with
  | nil => by_cases hb : b = erasedByte <;> simp [Memory.write, Memory.wfFrom, hb, ha]
  | cons c m ih =>
    obtain ⟨k, v⟩ := c
    simp only [Memory.wfFrom, Bool.and_eq_true, decide_eq_true_eq] at h
    simp only [Memory.write]
    split
    · rename_i hak
      split
      · simp [Memory.wfFrom, h.1.1, h.1.2, h.2]
      · rename_i hb
        simp only [Memory.wfFrom, Bool.and_eq_true, decide_eq_true_eq]
        exact ⟨⟨ha, hb⟩, ⟨⟨by omega, h.1.2⟩, h.2⟩⟩
    · split
      · rename_i hak
        split
        · exact Memory.wfFrom_mono h.2 (by omega)
        · rename_i hb
          simp only [Memory.wfFrom, Bool.and_eq_true, decide_eq_true_eq]
          exact ⟨⟨ha, hb⟩, by rw [hak]; exact h.2⟩
      · simp only [Memory.wfFrom, Bool.and_eq_true, decide_eq_true_eq]
        exact ⟨h.1, ih h.2 (by omega)⟩

theorem Memory.wf_write {m : Memory} (h : m.wf = true) (a : Nat) (b : Byte) : (m.write a b).wf = true :=
  Memory.wfFrom_write b h (Nat.zero_le a)

theorem Memory.wf_writeBytes {m : Memory} (h : m.wf = true) (a : Nat) (bs : List Byte) :
    (m.writeBytes a bs).wf = true := by
  induction bs generalizing m a with
  | nil => exact h
  | cons b bs ih => exact ih (Memory.wf_write h a b) (a + 1)

theorem Memory.wfFrom_erase {m : Memory} {lo : Nat} (h : m.wfFrom lo = true) (r : Region) :
    (m.erase r).wfFrom lo = true := by
  induction m generalizing lo with
  | nil => rfl
  | cons c m ih =>
    obtain ⟨k, v⟩ := c
    simp only [Memory.wfFrom, Bool.and_eq_true, decide_eq_true_eq] at h
    simp only [Memory.erase, List.filter_cons]
    split
    · simp only [Memory.wfFrom, Bool.and_eq_true, decide_eq_true_eq]
      exact ⟨h.1, ih h.2⟩
    · exact ih (Memory.wfFrom_mono h.2 (by omega))

theorem Memory.wf_erase {m : Memory} (h : m.wf = true) (r : Region) : (m.erase r).wf = true :=
  Memory.wfFrom_erase h r

/-- Reading back the byte written. -/
theorem Memory.read_write_same {m : Memory} (h : m.wf = true) (a : Nat) (b : Byte) : (m.write a b).read a = b := by
  have aux : ∀ (m : Memory) (lo : Nat), m.wfFrom lo = true → (m.write a b).read a = b := by
    intro m
    induction m with
    | nil => intro _ _; by_cases hb : b = erasedByte <;> simp [Memory.write, Memory.read, hb]
    | cons c m ih =>
      intro lo h
      obtain ⟨k, v⟩ := c
      simp only [Memory.wfFrom, Bool.and_eq_true, decide_eq_true_eq] at h
      simp only [Memory.write]
      split
      · rename_i hak
        split
        · rename_i hb
          simp only [Memory.read, if_neg (show ¬ k = a by omega)]
          rw [Memory.read_of_wfFrom_lt h.2 (by omega), hb]
        · simp [Memory.read]
      · split
        · rename_i hak
          split
          · rename_i hb
            rw [Memory.read_of_wfFrom_lt h.2 (by omega), hb]
          · simp [Memory.read]
        · rename_i h1 h2
          simp only [Memory.read, if_neg (show ¬ k = a by omega)]
          exact ih _ h.2
  exact aux m 0 h

/-- A write leaves every other byte alone. -/
theorem Memory.read_write_other {m : Memory} {a c : Nat} (b : Byte) (hne : c ≠ a) : (m.write a b).read c = m.read c := by
  induction m with
  | nil => by_cases hb : b = erasedByte <;> simp [Memory.write, Memory.read, hb, Ne.symm hne]
  | cons d m ih =>
    obtain ⟨k, v⟩ := d
    simp only [Memory.write]
    split
    · split
      · rfl
      · simp [Memory.read, Ne.symm hne]
    · split
      · rename_i hak
        split <;> simp [Memory.read, ← hak, Ne.symm hne]
      · simp only [Memory.read, ih]

/-- What each address holds after a write of several bytes (R35, R43). -/
theorem Memory.read_writeBytes {m : Memory} (h : m.wf = true) (a : Nat) (bs : List Byte) (c : Nat) :
    (m.writeBytes a bs).read c = if a ≤ c ∧ c < a + bs.length then (bs[c - a]?).getD erasedByte else m.read c := by
  induction bs generalizing m a with
  | nil =>
    have : ¬ (a ≤ c ∧ c < a + ([] : List Byte).length) := by simp only [List.length_nil]; omega
    rw [if_neg this]; rfl
  | cons b bs ih =>
    simp only [Memory.writeBytes]
    rw [ih (Memory.wf_write h a b)]
    by_cases hc : c = a
    · subst hc
      rw [if_neg (by omega), if_pos (by simp), Memory.read_write_same h]
      simp
    · rw [Memory.read_write_other b hc]
      by_cases hin : a + 1 ≤ c ∧ c < a + 1 + bs.length
      · rw [if_pos hin, if_pos (by simp only [List.length_cons]; omega)]
        have : c - a = (c - (a + 1)) + 1 := by omega
        rw [this, List.getElem?_cons_succ]
      · rw [if_neg hin, if_neg (by simp only [List.length_cons]; omega)]

/-- A write of several bytes leaves every address outside it alone, in any memory. -/
theorem Memory.read_writeBytes_other {m : Memory} {a c : Nat} {bs : List Byte} (h : ¬ (a ≤ c ∧ c < a + bs.length)) :
    (m.writeBytes a bs).read c = m.read c := by
  induction bs generalizing m a with
  | nil => rfl
  | cons b bs ih =>
    simp only [List.length_cons] at h
    simp only [Memory.writeBytes]
    rw [ih (by omega), Memory.read_write_other b (by omega)]

theorem Memory.writeBytes_append (m : Memory) (a : Nat) (xs ys : List Byte) :
    m.writeBytes a (xs ++ ys) = (m.writeBytes a xs).writeBytes (a + xs.length) ys := by
  induction xs generalizing m a with
  | nil => rfl
  | cons x xs ih =>
    simp only [List.cons_append, Memory.writeBytes, List.length_cons]
    rw [ih]
    congr 1
    omega

/-- What each address holds after an erase (R104). -/
theorem Memory.read_erase {m : Memory} (h : m.wf = true) (r : Region) (c : Nat) :
    (m.erase r).read c = if r.start ≤ c ∧ c < r.stop then erasedByte else m.read c := by
  have aux : ∀ (m : Memory) (lo : Nat), m.wfFrom lo = true →
      (m.erase r).read c = if r.start ≤ c ∧ c < r.stop then erasedByte else m.read c := by
    intro m
    induction m with
    | nil => intro _ _; simp [Memory.erase]
    | cons d m ih =>
      intro lo h
      obtain ⟨k, v⟩ := d
      simp only [Memory.wfFrom, Bool.and_eq_true, decide_eq_true_eq] at h
      simp only [Memory.erase, List.filter_cons]
      by_cases hk : k = c
      · subst hk
        by_cases hin : r.start ≤ k ∧ k < r.stop
        · rw [if_neg (by simp [hin]), if_pos hin]
          have := ih _ h.2
          rw [if_pos hin] at this
          exact this
        · have hb : (!(decide (r.start ≤ k) && decide (k < r.stop))) = true := by
            simp only [Bool.not_eq_true', Bool.and_eq_false_iff, decide_eq_false_iff_not]; omega
          rw [if_pos hb, if_neg hin]
          simp [Memory.read]
      · split
        · simp only [Memory.read, if_neg hk]
          exact ih _ h.2
        · rw [show Memory.read ((k, v) :: m) c = Memory.read m c by simp [Memory.read, hk]]
          exact ih _ h.2
  exact aux m 0 h

theorem Memory.inSpace_write {m : Memory} (h : m.inSpace) {a : Nat} (b : Byte) (ha : a < addressSpace) :
    (m.write a b).inSpace := by
  induction m with
  | nil =>
    intro c hc
    simp only [Memory.write] at hc
    split at hc
    · cases hc
    · simp only [List.mem_singleton] at hc; subst hc; exact ha
  | cons d m ih =>
    obtain ⟨k, v⟩ := d
    have hk : k < addressSpace := h (k, v) (List.mem_cons_self ..)
    have hm : Memory.inSpace m := fun c hc => h c (List.mem_cons_of_mem _ hc)
    intro c hc
    simp only [Memory.write] at hc
    split at hc
    · split at hc
      · exact h c hc
      · rcases List.mem_cons.1 hc with rfl | hc
        · exact ha
        · exact h c hc
    · split at hc
      · split at hc
        · exact hm c hc
        · rcases List.mem_cons.1 hc with rfl | hc
          · exact ha
          · exact hm c hc
      · rcases List.mem_cons.1 hc with rfl | hc
        · exact hk
        · exact ih hm c hc

theorem Memory.inSpace_writeBytes {m : Memory} (h : m.inSpace) {a : Nat} {bs : List Byte}
    (ha : a + bs.length ≤ addressSpace) : (m.writeBytes a bs).inSpace := by
  induction bs generalizing m a with
  | nil => exact h
  | cons b bs ih =>
    simp only [List.length_cons] at ha
    exact ih (Memory.inSpace_write h b (by omega)) (by omega)

theorem Memory.inSpace_erase {m : Memory} (h : m.inSpace) (r : Region) : (m.erase r).inSpace :=
  fun c hc => h c (List.mem_of_mem_filter hc)

@[simp] theorem Memory.length_readBytes (m : Memory) (a n : Nat) : (m.readBytes a n).length = n := by
  induction n generalizing a with
  | zero => rfl
  | succ n ih => simp [Memory.readBytes, ih]

/-- Byte `j` of a read is the byte at `a + j` (R103). -/
theorem Memory.getElem?_readBytes (m : Memory) (a n j : Nat) :
    (m.readBytes a n)[j]? = if j < n then some (m.read ((a + j) % addressSpace)) else none := by
  induction n generalizing a j with
  | zero => simp [Memory.readBytes]
  | succ n ih =>
    cases j with
    | zero => simp [Memory.readBytes]
    | succ j =>
      simp only [Memory.readBytes, List.getElem?_cons_succ, ih]
      simp only [Nat.add_lt_add_iff_right, show a + 1 + j = a + (j + 1) by omega]

/-- Two memories that agree on the addresses of a read give the same bytes. -/
theorem Memory.readBytes_congr {m m' : Memory} {a n : Nat}
    (h : ∀ j, j < n → m.read ((a + j) % addressSpace) = m'.read ((a + j) % addressSpace)) :
    m.readBytes a n = m'.readBytes a n := by
  apply List.ext_getElem?
  intro j
  rw [Memory.getElem?_readBytes, Memory.getElem?_readBytes]
  split
  · rw [h j ‹_›]
  · rfl

end Sys2Proof.Machine
end

