-- ==== Sys2Proof/Laws/Operands.lean ====
section
/-! SUPPORT. Laws of the operand forms: byte order, grouping into double-words, the accumulator's buffer. -/

namespace Sys2Proof.Machine

/-- `le32` undoes `le32_bytes` (R7). -/
theorem le32_le32Bytes (v : Word) : le32 (le32Bytes v) = v := by
  apply BitVec.eq_of_toNat_eq
  simp only [le32, le32Bytes, leNat, BitVec.toNat_ofNat]
  have := v.isLt
  omega

@[simp] theorem le32Bytes_length (v : Word) : (le32Bytes v).length = 4 := rfl

@[simp] theorem freeBytes_length (d a n : Nat) : (freeBytes d a n).length = n := by
  induction n generalizing a with
  | zero => rfl
  | succ n ih => simp [freeBytes, ih]

theorem wordsOf_short {bs : List Byte} (h : bs.length < 8) : wordsOf bs = [] := by
  unfold wordsOf; split
  · simp at h; omega
  · rfl

theorem tailOf_short {bs : List Byte} (h : bs.length < 8) : tailOf bs = bs := by
  unfold tailOf; split
  · simp at h; omega
  · rfl

/-- A double-word in front of a byte sequence is its first group. -/
theorem wordsOf_append (d : DWord) (bs : List Byte) : wordsOf (d.toList ++ bs) = d :: wordsOf bs := by
  obtain ⟨⟨l⟩, hl⟩ := d
  match l, hl with
  | [b0, b1, b2, b3, b4, b5, b6, b7], _ => rfl

theorem tailOf_append (d : DWord) (bs : List Byte) : tailOf (d.toList ++ bs) = tailOf bs := by
  obtain ⟨⟨l⟩, hl⟩ := d
  match l, hl with
  | [b0, b1, b2, b3, b4, b5, b6, b7], _ => rfl

theorem wordsOf_length (bs : List Byte) : (wordsOf bs).length = bs.length / 8 := by
  induction bs using wordsOf.induct with
  | case1 b0 b1 b2 b3 b4 b5 b6 b7 rest ih => simp only [wordsOf, List.length_cons, ih]; omega
  | case2 bs h =>
    have hs : bs.length < 8 := by
      by_contra hc
      match bs, hc with
      | a0 :: a1 :: a2 :: a3 :: a4 :: a5 :: a6 :: a7 :: r, _ => exact h _ _ _ _ _ _ _ _ _ rfl
      | [], hc | [_], hc | [_, _], hc | [_, _, _], hc | [_, _, _, _], hc | [_, _, _, _, _], hc
      | [_, _, _, _, _, _], hc | [_, _, _, _, _, _, _], hc => simp at hc
    rw [wordsOf_short hs]; simp; omega

/-- Grouping loses no byte: the groups in order, then the tail. -/
theorem words_tail (bs : List Byte) : ((wordsOf bs).map (·.toList)).flatten ++ tailOf bs = bs := by
  induction bs using wordsOf.induct with
  | case1 b0 b1 b2 b3 b4 b5 b6 b7 rest ih =>
    simp only [wordsOf, tailOf, List.map_cons, List.flatten_cons, List.append_assoc, ih]
    rfl
  | case2 bs h =>
    have hw : wordsOf bs = [] := by unfold wordsOf; split; exact absurd rfl (h _ _ _ _ _ _ _ _ _); rfl
    have ht : tailOf bs = bs := by unfold tailOf; split; exact absurd rfl (h _ _ _ _ _ _ _ _ _); rfl
    simp [hw, ht]

theorem flatten_dwords_length (ds : List DWord) : ((ds.map (·.toList)).flatten).length = 8 * ds.length := by
  induction ds with
  | nil => rfl
  | cons d ds ih => simp only [List.map_cons, List.flatten_cons, List.length_append, ih, Vector.length_toList, List.length_cons]; omega

/-- The bytes of the groups are the first `8 * (length div 8)` bytes. -/
theorem flatten_wordsOf (bs : List Byte) : ((wordsOf bs).map (·.toList)).flatten = bs.take (8 * (bs.length / 8)) := by
  conv_rhs => rw [← words_tail bs]
  rw [List.take_append_of_le_length, List.take_of_length_le]
  · rw [flatten_dwords_length, wordsOf_length, words_tail]
  · rw [flatten_dwords_length, wordsOf_length, words_tail]

theorem tailOf_eq_drop (bs : List Byte) : tailOf bs = bs.drop (8 * (bs.length / 8)) := by
  conv_rhs => rw [← words_tail bs]
  rw [List.drop_append_of_le_length, List.drop_of_length_le, List.nil_append]
  · rw [flatten_dwords_length, wordsOf_length, words_tail]
  · rw [flatten_dwords_length, wordsOf_length, words_tail]

theorem tailOf_length (bs : List Byte) : (tailOf bs).length = bs.length % 8 := by
  rw [tailOf_eq_drop, List.length_drop]; omega

theorem tailOf_length_lt (bs : List Byte) : (tailOf bs).length < 8 := by
  rw [tailOf_length]; omega

theorem getElem?_fillBuf (buf : DWord) (start : Nat) (bs : List Byte) (j : Nat) :
    (fillBuf buf start bs).toList[j]? =
      if j < start then buf.toList[j]? else if j < 8 then some ((bs[j - start]?).getD ((buf.toList[j]?).getD erasedByte)) else none := by
  by_cases hj : j < 8
  · simp only [fillBuf, Vector.getElem?_toList, Vector.getElem?_ofFn, hj, dite_true, if_true]
    split <;> simp [Vector.getElem?_eq_getElem hj]
  · simp only [fillBuf, Vector.getElem?_toList, Vector.getElem?_ofFn, hj, dite_false, if_false]
    split
    · rw [Vector.getElem?_eq_none (by omega)]
    · rfl

/-- After a copy that fits, the valid bytes are the old ones followed by the copied ones (R74). -/
theorem take_fillBuf (buf : DWord) (start : Nat) (bs : List Byte) (h : start + bs.length ≤ 8) :
    (fillBuf buf start bs).toList.take (start + bs.length) = buf.toList.take start ++ bs := by
  apply List.ext_getElem?
  intro j
  rw [List.getElem?_take, getElem?_fillBuf, List.getElem?_append]
  simp only [List.length_take, Vector.length_toList, List.getElem?_take]
  have hm : min start 8 = start := by omega
  rw [hm]
  by_cases h1 : j < start
  · simp [h1, show j < start + bs.length by omega]
  · by_cases h2 : j < start + bs.length
    · simp only [h1, h2, if_true, if_false, show j < 8 by omega]
      rw [List.getElem?_eq_getElem (by omega)]; rfl
    · simp only [h1, h2, if_false]
      rw [List.getElem?_eq_none (by omega)]

/-- The padded double-word: the valid bytes, then `0xFF` (R60, R77). -/
theorem padded_toList (buf : DWord) (n : Nat) :
    (padded buf n).toList = buf.toList.take n ++ List.replicate (8 - n) erasedByte := by
  apply List.ext_getElem?
  intro j
  rw [List.getElem?_append]
  simp only [padded, Vector.getElem?_toList, Vector.getElem?_ofFn, List.length_take, Vector.length_toList, List.getElem?_take,
    List.getElem?_replicate]
  by_cases hj : j < 8
  · simp only [hj, dite_true]
    by_cases hn : j < n
    · simp [hn, show j < min n 8 by omega, Vector.getElem?_eq_getElem hj]
    · simp [hn, show j - min n 8 < 8 - n by omega]
  · simp only [hj, dite_false]
    rw [if_neg (by omega), if_neg (by omega)]

theorem State.pendingBytes_length (s : State) (h : s.pending.val ≤ 8) : s.pendingBytes.length = s.pending.val := by
  simp [State.pendingBytes]; omega

end Sys2Proof.Machine
end

