-- ==== Sys2Proof/Laws/State.lean ====
section
/-! SUPPORT. One lemma per field per named update of State, each true by definition: no later proof unfolds a record update. -/

namespace Sys2Proof.Machine

section
@[simp] theorem log_buf (s : State) (e : Event) : (s.log e).buf = s.buf := rfl
@[simp] theorem log_pending (s : State) (e : Event) : (s.log e).pending = s.pending := rfl
@[simp] theorem log_count (s : State) (e : Event) : (s.log e).count = s.count := rfl
@[simp] theorem log_base (s : State) (e : Event) : (s.log e).base = s.base := rfl
@[simp] theorem log_aborted (s : State) (e : Event) : (s.log e).aborted = s.aborted := rfl
@[simp] theorem log_rsp (s : State) (e : Event) : (s.log e).rsp = s.rsp := rfl
@[simp] theorem log_flash (s : State) (e : Event) : (s.log e).flash = s.flash := rfl
@[simp] theorem log_params (s : State) (e : Event) : (s.log e).params = s.params := rfl
@[simp] theorem log_dispatcher (s : State) (e : Event) : (s.log e).dispatcher = s.dispatcher := rfl
@[simp] theorem log_boot (s : State) (e : Event) : (s.log e).boot = s.boot := rfl
@[simp] theorem log_ticks (s : State) (e : Event) : (s.log e).ticks = s.ticks := rfl
@[simp] theorem log_commandSeen (s : State) (e : Event) : (s.log e).commandSeen = s.commandSeen := rfl
@[simp] theorem log_frame (s : State) (e : Event) : (s.log e).frame = s.frame := rfl
@[simp] theorem log_interrupts (s : State) (e : Event) : (s.log e).interrupts = s.interrupts := rfl
@[simp] theorem log_transport (s : State) (e : Event) : (s.log e).transport = s.transport := rfl
@[simp] theorem log_app (s : State) (e : Event) : (s.log e).app = s.app := rfl
@[simp] theorem log_cmds (s : State) (e : Event) : (s.log e).cmds = s.cmds := rfl
@[simp] theorem log_wire (s : State) (e : Event) : (s.log e).wire = s.wire := rfl
@[simp] theorem log_answers (s : State) (e : Event) : (s.log e).answers = s.answers := rfl
@[simp] theorem log_draws (s : State) (e : Event) : (s.log e).draws = s.draws := rfl
@[simp] theorem log_trace (s : State) (e : Event) : (s.log e).trace = s.trace ++ [e] := rfl
end

section
@[simp] theorem respond_buf (s : State) (r : Rsp) : (s.respond r).buf = s.buf := rfl
@[simp] theorem respond_pending (s : State) (r : Rsp) : (s.respond r).pending = s.pending := rfl
@[simp] theorem respond_count (s : State) (r : Rsp) : (s.respond r).count = s.count := rfl
@[simp] theorem respond_base (s : State) (r : Rsp) : (s.respond r).base = s.base := rfl
@[simp] theorem respond_aborted (s : State) (r : Rsp) : (s.respond r).aborted = s.aborted := rfl
@[simp] theorem respond_rsp (s : State) (r : Rsp) : (s.respond r).rsp = some r := rfl
@[simp] theorem respond_flash (s : State) (r : Rsp) : (s.respond r).flash = s.flash := rfl
@[simp] theorem respond_params (s : State) (r : Rsp) : (s.respond r).params = s.params := rfl
@[simp] theorem respond_dispatcher (s : State) (r : Rsp) : (s.respond r).dispatcher = s.dispatcher := rfl
@[simp] theorem respond_boot (s : State) (r : Rsp) : (s.respond r).boot = s.boot := rfl
@[simp] theorem respond_ticks (s : State) (r : Rsp) : (s.respond r).ticks = s.ticks := rfl
@[simp] theorem respond_commandSeen (s : State) (r : Rsp) : (s.respond r).commandSeen = s.commandSeen := rfl
@[simp] theorem respond_frame (s : State) (r : Rsp) : (s.respond r).frame = s.frame := rfl
@[simp] theorem respond_interrupts (s : State) (r : Rsp) : (s.respond r).interrupts = s.interrupts := rfl
@[simp] theorem respond_transport (s : State) (r : Rsp) : (s.respond r).transport = s.transport := rfl
@[simp] theorem respond_app (s : State) (r : Rsp) : (s.respond r).app = s.app := rfl
@[simp] theorem respond_cmds (s : State) (r : Rsp) : (s.respond r).cmds = s.cmds := rfl
@[simp] theorem respond_wire (s : State) (r : Rsp) : (s.respond r).wire = s.wire := rfl
@[simp] theorem respond_answers (s : State) (r : Rsp) : (s.respond r).answers = s.answers := rfl
@[simp] theorem respond_draws (s : State) (r : Rsp) : (s.respond r).draws = s.draws := rfl
@[simp] theorem respond_trace (s : State) (r : Rsp) : (s.respond r).trace = s.trace ++ [.rsp r] := rfl
end

section
@[simp] theorem setAborted_buf (s : State) : s.setAborted.buf = freeDWord s.draws := rfl
@[simp] theorem setAborted_pending (s : State) : s.setAborted.pending = Config.freePending s.draws := rfl
@[simp] theorem setAborted_count (s : State) : s.setAborted.count = s.count := rfl
@[simp] theorem setAborted_base (s : State) : s.setAborted.base = s.base := rfl
@[simp] theorem setAborted_aborted (s : State) : s.setAborted.aborted = true := rfl
@[simp] theorem setAborted_rsp (s : State) : s.setAborted.rsp = s.rsp := rfl
@[simp] theorem setAborted_flash (s : State) : s.setAborted.flash = s.flash := rfl
@[simp] theorem setAborted_params (s : State) : s.setAborted.params = s.params := rfl
@[simp] theorem setAborted_dispatcher (s : State) : s.setAborted.dispatcher = s.dispatcher := rfl
@[simp] theorem setAborted_boot (s : State) : s.setAborted.boot = s.boot := rfl
@[simp] theorem setAborted_ticks (s : State) : s.setAborted.ticks = s.ticks := rfl
@[simp] theorem setAborted_commandSeen (s : State) : s.setAborted.commandSeen = s.commandSeen := rfl
@[simp] theorem setAborted_frame (s : State) : s.setAborted.frame = s.frame := rfl
@[simp] theorem setAborted_interrupts (s : State) : s.setAborted.interrupts = s.interrupts := rfl
@[simp] theorem setAborted_transport (s : State) : s.setAborted.transport = s.transport := rfl
@[simp] theorem setAborted_app (s : State) : s.setAborted.app = s.app := rfl
@[simp] theorem setAborted_cmds (s : State) : s.setAborted.cmds = s.cmds := rfl
@[simp] theorem setAborted_wire (s : State) : s.setAborted.wire = s.wire := rfl
@[simp] theorem setAborted_answers (s : State) : s.setAborted.answers = s.answers := rfl
@[simp] theorem setAborted_draws (s : State) : s.setAborted.draws = s.draws + 1 := rfl
@[simp] theorem setAborted_trace (s : State) : s.setAborted.trace = s.trace := rfl
end

section
@[simp] theorem clearAccumulator_buf (s : State) : s.clearAccumulator.buf = s.buf := rfl
@[simp] theorem clearAccumulator_pending (s : State) : s.clearAccumulator.pending = 0 := rfl
@[simp] theorem clearAccumulator_count (s : State) : s.clearAccumulator.count = 0#32 := rfl
@[simp] theorem clearAccumulator_base (s : State) : s.clearAccumulator.base = s.base := rfl
@[simp] theorem clearAccumulator_aborted (s : State) : s.clearAccumulator.aborted = false := rfl
@[simp] theorem clearAccumulator_rsp (s : State) : s.clearAccumulator.rsp = s.rsp := rfl
@[simp] theorem clearAccumulator_flash (s : State) : s.clearAccumulator.flash = s.flash := rfl
@[simp] theorem clearAccumulator_params (s : State) : s.clearAccumulator.params = s.params := rfl
@[simp] theorem clearAccumulator_dispatcher (s : State) : s.clearAccumulator.dispatcher = s.dispatcher := rfl
@[simp] theorem clearAccumulator_boot (s : State) : s.clearAccumulator.boot = s.boot := rfl
@[simp] theorem clearAccumulator_ticks (s : State) : s.clearAccumulator.ticks = s.ticks := rfl
@[simp] theorem clearAccumulator_commandSeen (s : State) : s.clearAccumulator.commandSeen = s.commandSeen := rfl
@[simp] theorem clearAccumulator_frame (s : State) : s.clearAccumulator.frame = s.frame := rfl
@[simp] theorem clearAccumulator_interrupts (s : State) : s.clearAccumulator.interrupts = s.interrupts := rfl
@[simp] theorem clearAccumulator_transport (s : State) : s.clearAccumulator.transport = s.transport := rfl
@[simp] theorem clearAccumulator_app (s : State) : s.clearAccumulator.app = s.app := rfl
@[simp] theorem clearAccumulator_cmds (s : State) : s.clearAccumulator.cmds = s.cmds := rfl
@[simp] theorem clearAccumulator_wire (s : State) : s.clearAccumulator.wire = s.wire := rfl
@[simp] theorem clearAccumulator_answers (s : State) : s.clearAccumulator.answers = s.answers := rfl
@[simp] theorem clearAccumulator_draws (s : State) : s.clearAccumulator.draws = s.draws := rfl
@[simp] theorem clearAccumulator_trace (s : State) : s.clearAccumulator.trace = s.trace := rfl
end

section
@[simp] theorem advance_buf (s : State) (n : Nat) : (s.advance n).buf = s.buf := rfl
@[simp] theorem advance_pending (s : State) (n : Nat) : (s.advance n).pending = s.pending := rfl
@[simp] theorem advance_count (s : State) (n : Nat) : (s.advance n).count = s.count + BitVec.ofNat 32 n := rfl
@[simp] theorem advance_base (s : State) (n : Nat) : (s.advance n).base = s.base := rfl
@[simp] theorem advance_aborted (s : State) (n : Nat) : (s.advance n).aborted = s.aborted := rfl
@[simp] theorem advance_rsp (s : State) (n : Nat) : (s.advance n).rsp = s.rsp := rfl
@[simp] theorem advance_flash (s : State) (n : Nat) : (s.advance n).flash = s.flash := rfl
@[simp] theorem advance_params (s : State) (n : Nat) : (s.advance n).params = s.params := rfl
@[simp] theorem advance_dispatcher (s : State) (n : Nat) : (s.advance n).dispatcher = s.dispatcher := rfl
@[simp] theorem advance_boot (s : State) (n : Nat) : (s.advance n).boot = s.boot := rfl
@[simp] theorem advance_ticks (s : State) (n : Nat) : (s.advance n).ticks = s.ticks := rfl
@[simp] theorem advance_commandSeen (s : State) (n : Nat) : (s.advance n).commandSeen = s.commandSeen := rfl
@[simp] theorem advance_frame (s : State) (n : Nat) : (s.advance n).frame = s.frame := rfl
@[simp] theorem advance_interrupts (s : State) (n : Nat) : (s.advance n).interrupts = s.interrupts := rfl
@[simp] theorem advance_transport (s : State) (n : Nat) : (s.advance n).transport = s.transport := rfl
@[simp] theorem advance_app (s : State) (n : Nat) : (s.advance n).app = s.app := rfl
@[simp] theorem advance_cmds (s : State) (n : Nat) : (s.advance n).cmds = s.cmds := rfl
@[simp] theorem advance_wire (s : State) (n : Nat) : (s.advance n).wire = s.wire := rfl
@[simp] theorem advance_answers (s : State) (n : Nat) : (s.advance n).answers = s.answers := rfl
@[simp] theorem advance_draws (s : State) (n : Nat) : (s.advance n).draws = s.draws := rfl
@[simp] theorem advance_trace (s : State) (n : Nat) : (s.advance n).trace = s.trace := rfl
end

section
@[simp] theorem setFlash_buf (s : State) (m : Memory) : (s.setFlash m).buf = s.buf := rfl
@[simp] theorem setFlash_pending (s : State) (m : Memory) : (s.setFlash m).pending = s.pending := rfl
@[simp] theorem setFlash_count (s : State) (m : Memory) : (s.setFlash m).count = s.count := rfl
@[simp] theorem setFlash_base (s : State) (m : Memory) : (s.setFlash m).base = s.base := rfl
@[simp] theorem setFlash_aborted (s : State) (m : Memory) : (s.setFlash m).aborted = s.aborted := rfl
@[simp] theorem setFlash_rsp (s : State) (m : Memory) : (s.setFlash m).rsp = s.rsp := rfl
@[simp] theorem setFlash_flash (s : State) (m : Memory) : (s.setFlash m).flash = m := rfl
@[simp] theorem setFlash_params (s : State) (m : Memory) : (s.setFlash m).params = s.params := rfl
@[simp] theorem setFlash_dispatcher (s : State) (m : Memory) : (s.setFlash m).dispatcher = s.dispatcher := rfl
@[simp] theorem setFlash_boot (s : State) (m : Memory) : (s.setFlash m).boot = s.boot := rfl
@[simp] theorem setFlash_ticks (s : State) (m : Memory) : (s.setFlash m).ticks = s.ticks := rfl
@[simp] theorem setFlash_commandSeen (s : State) (m : Memory) : (s.setFlash m).commandSeen = s.commandSeen := rfl
@[simp] theorem setFlash_frame (s : State) (m : Memory) : (s.setFlash m).frame = s.frame := rfl
@[simp] theorem setFlash_interrupts (s : State) (m : Memory) : (s.setFlash m).interrupts = s.interrupts := rfl
@[simp] theorem setFlash_transport (s : State) (m : Memory) : (s.setFlash m).transport = s.transport := rfl
@[simp] theorem setFlash_app (s : State) (m : Memory) : (s.setFlash m).app = s.app := rfl
@[simp] theorem setFlash_cmds (s : State) (m : Memory) : (s.setFlash m).cmds = s.cmds := rfl
@[simp] theorem setFlash_wire (s : State) (m : Memory) : (s.setFlash m).wire = s.wire := rfl
@[simp] theorem setFlash_answers (s : State) (m : Memory) : (s.setFlash m).answers = s.answers := rfl
@[simp] theorem setFlash_draws (s : State) (m : Memory) : (s.setFlash m).draws = s.draws := rfl
@[simp] theorem setFlash_trace (s : State) (m : Memory) : (s.setFlash m).trace = s.trace := rfl
end

section
@[simp] theorem latch_buf (s : State) (b : Word) : (s.latch b).buf = s.buf := rfl
@[simp] theorem latch_pending (s : State) (b : Word) : (s.latch b).pending = s.pending := rfl
@[simp] theorem latch_count (s : State) (b : Word) : (s.latch b).count = s.count := rfl
@[simp] theorem latch_base (s : State) (b : Word) : (s.latch b).base = b := rfl
@[simp] theorem latch_aborted (s : State) (b : Word) : (s.latch b).aborted = s.aborted := rfl
@[simp] theorem latch_rsp (s : State) (b : Word) : (s.latch b).rsp = s.rsp := rfl
@[simp] theorem latch_flash (s : State) (b : Word) : (s.latch b).flash = s.flash := rfl
@[simp] theorem latch_params (s : State) (b : Word) : (s.latch b).params = s.params := rfl
@[simp] theorem latch_dispatcher (s : State) (b : Word) : (s.latch b).dispatcher = s.dispatcher := rfl
@[simp] theorem latch_boot (s : State) (b : Word) : (s.latch b).boot = s.boot := rfl
@[simp] theorem latch_ticks (s : State) (b : Word) : (s.latch b).ticks = s.ticks := rfl
@[simp] theorem latch_commandSeen (s : State) (b : Word) : (s.latch b).commandSeen = s.commandSeen := rfl
@[simp] theorem latch_frame (s : State) (b : Word) : (s.latch b).frame = s.frame := rfl
@[simp] theorem latch_interrupts (s : State) (b : Word) : (s.latch b).interrupts = s.interrupts := rfl
@[simp] theorem latch_transport (s : State) (b : Word) : (s.latch b).transport = s.transport := rfl
@[simp] theorem latch_app (s : State) (b : Word) : (s.latch b).app = s.app := rfl
@[simp] theorem latch_cmds (s : State) (b : Word) : (s.latch b).cmds = s.cmds := rfl
@[simp] theorem latch_wire (s : State) (b : Word) : (s.latch b).wire = s.wire := rfl
@[simp] theorem latch_answers (s : State) (b : Word) : (s.latch b).answers = s.answers := rfl
@[simp] theorem latch_draws (s : State) (b : Word) : (s.latch b).draws = s.draws := rfl
@[simp] theorem latch_trace (s : State) (b : Word) : (s.latch b).trace = s.trace := rfl
end

section
@[simp] theorem clearPending_buf (s : State) : s.clearPending.buf = s.buf := rfl
@[simp] theorem clearPending_pending (s : State) : s.clearPending.pending = 0 := rfl
@[simp] theorem clearPending_count (s : State) : s.clearPending.count = s.count := rfl
@[simp] theorem clearPending_base (s : State) : s.clearPending.base = s.base := rfl
@[simp] theorem clearPending_aborted (s : State) : s.clearPending.aborted = s.aborted := rfl
@[simp] theorem clearPending_rsp (s : State) : s.clearPending.rsp = s.rsp := rfl
@[simp] theorem clearPending_flash (s : State) : s.clearPending.flash = s.flash := rfl
@[simp] theorem clearPending_params (s : State) : s.clearPending.params = s.params := rfl
@[simp] theorem clearPending_dispatcher (s : State) : s.clearPending.dispatcher = s.dispatcher := rfl
@[simp] theorem clearPending_boot (s : State) : s.clearPending.boot = s.boot := rfl
@[simp] theorem clearPending_ticks (s : State) : s.clearPending.ticks = s.ticks := rfl
@[simp] theorem clearPending_commandSeen (s : State) : s.clearPending.commandSeen = s.commandSeen := rfl
@[simp] theorem clearPending_frame (s : State) : s.clearPending.frame = s.frame := rfl
@[simp] theorem clearPending_interrupts (s : State) : s.clearPending.interrupts = s.interrupts := rfl
@[simp] theorem clearPending_transport (s : State) : s.clearPending.transport = s.transport := rfl
@[simp] theorem clearPending_app (s : State) : s.clearPending.app = s.app := rfl
@[simp] theorem clearPending_cmds (s : State) : s.clearPending.cmds = s.cmds := rfl
@[simp] theorem clearPending_wire (s : State) : s.clearPending.wire = s.wire := rfl
@[simp] theorem clearPending_answers (s : State) : s.clearPending.answers = s.answers := rfl
@[simp] theorem clearPending_draws (s : State) : s.clearPending.draws = s.draws := rfl
@[simp] theorem clearPending_trace (s : State) : s.clearPending.trace = s.trace := rfl
end

section
@[simp] theorem scramble_buf (s : State) (d a n : Nat) : (s.scramble d a n).buf = s.buf := rfl
@[simp] theorem scramble_pending (s : State) (d a n : Nat) : (s.scramble d a n).pending = s.pending := rfl
@[simp] theorem scramble_count (s : State) (d a n : Nat) : (s.scramble d a n).count = s.count := rfl
@[simp] theorem scramble_base (s : State) (d a n : Nat) : (s.scramble d a n).base = s.base := rfl
@[simp] theorem scramble_aborted (s : State) (d a n : Nat) : (s.scramble d a n).aborted = s.aborted := rfl
@[simp] theorem scramble_rsp (s : State) (d a n : Nat) : (s.scramble d a n).rsp = s.rsp := rfl
@[simp] theorem scramble_flash (s : State) (d a n : Nat) : (s.scramble d a n).flash = s.flash.writeBytes a (freeBytes d a n) := rfl
@[simp] theorem scramble_params (s : State) (d a n : Nat) : (s.scramble d a n).params = s.params := rfl
@[simp] theorem scramble_dispatcher (s : State) (d a n : Nat) : (s.scramble d a n).dispatcher = s.dispatcher := rfl
@[simp] theorem scramble_boot (s : State) (d a n : Nat) : (s.scramble d a n).boot = s.boot := rfl
@[simp] theorem scramble_ticks (s : State) (d a n : Nat) : (s.scramble d a n).ticks = s.ticks := rfl
@[simp] theorem scramble_commandSeen (s : State) (d a n : Nat) : (s.scramble d a n).commandSeen = s.commandSeen := rfl
@[simp] theorem scramble_frame (s : State) (d a n : Nat) : (s.scramble d a n).frame = s.frame := rfl
@[simp] theorem scramble_interrupts (s : State) (d a n : Nat) : (s.scramble d a n).interrupts = s.interrupts := rfl
@[simp] theorem scramble_transport (s : State) (d a n : Nat) : (s.scramble d a n).transport = s.transport := rfl
@[simp] theorem scramble_app (s : State) (d a n : Nat) : (s.scramble d a n).app = s.app := rfl
@[simp] theorem scramble_cmds (s : State) (d a n : Nat) : (s.scramble d a n).cmds = s.cmds := rfl
@[simp] theorem scramble_wire (s : State) (d a n : Nat) : (s.scramble d a n).wire = s.wire := rfl
@[simp] theorem scramble_answers (s : State) (d a n : Nat) : (s.scramble d a n).answers = s.answers := rfl
@[simp] theorem scramble_draws (s : State) (d a n : Nat) : (s.scramble d a n).draws = s.draws := rfl
@[simp] theorem scramble_trace (s : State) (d a n : Nat) : (s.scramble d a n).trace = s.trace := rfl
end

section
@[simp] theorem toIdle_buf (s : State) : s.toIdle.buf = s.buf := rfl
@[simp] theorem toIdle_pending (s : State) : s.toIdle.pending = s.pending := rfl
@[simp] theorem toIdle_count (s : State) : s.toIdle.count = s.count := rfl
@[simp] theorem toIdle_base (s : State) : s.toIdle.base = s.base := rfl
@[simp] theorem toIdle_aborted (s : State) : s.toIdle.aborted = s.aborted := rfl
@[simp] theorem toIdle_rsp (s : State) : s.toIdle.rsp = s.rsp := rfl
@[simp] theorem toIdle_flash (s : State) : s.toIdle.flash = s.flash := rfl
@[simp] theorem toIdle_params (s : State) : s.toIdle.params = s.params := rfl
@[simp] theorem toIdle_dispatcher (s : State) : s.toIdle.dispatcher = .idle := rfl
@[simp] theorem toIdle_boot (s : State) : s.toIdle.boot = s.boot := rfl
@[simp] theorem toIdle_ticks (s : State) : s.toIdle.ticks = s.ticks := rfl
@[simp] theorem toIdle_commandSeen (s : State) : s.toIdle.commandSeen = s.commandSeen := rfl
@[simp] theorem toIdle_frame (s : State) : s.toIdle.frame = s.frame := rfl
@[simp] theorem toIdle_interrupts (s : State) : s.toIdle.interrupts = s.interrupts := rfl
@[simp] theorem toIdle_transport (s : State) : s.toIdle.transport = s.transport := rfl
@[simp] theorem toIdle_app (s : State) : s.toIdle.app = s.app := rfl
@[simp] theorem toIdle_cmds (s : State) : s.toIdle.cmds = s.cmds := rfl
@[simp] theorem toIdle_wire (s : State) : s.toIdle.wire = s.wire := rfl
@[simp] theorem toIdle_answers (s : State) : s.toIdle.answers = s.answers := rfl
@[simp] theorem toIdle_draws (s : State) : s.toIdle.draws = s.draws := rfl
@[simp] theorem toIdle_trace (s : State) : s.toIdle.trace = s.trace := rfl
end

section
@[simp] theorem seeCommand_buf (s : State) : s.seeCommand.buf = s.buf := rfl
@[simp] theorem seeCommand_pending (s : State) : s.seeCommand.pending = s.pending := rfl
@[simp] theorem seeCommand_count (s : State) : s.seeCommand.count = s.count := rfl
@[simp] theorem seeCommand_base (s : State) : s.seeCommand.base = s.base := rfl
@[simp] theorem seeCommand_aborted (s : State) : s.seeCommand.aborted = s.aborted := rfl
@[simp] theorem seeCommand_rsp (s : State) : s.seeCommand.rsp = s.rsp := rfl
@[simp] theorem seeCommand_flash (s : State) : s.seeCommand.flash = s.flash := rfl
@[simp] theorem seeCommand_params (s : State) : s.seeCommand.params = s.params := rfl
@[simp] theorem seeCommand_dispatcher (s : State) : s.seeCommand.dispatcher = s.dispatcher := rfl
@[simp] theorem seeCommand_boot (s : State) : s.seeCommand.boot = s.boot := rfl
@[simp] theorem seeCommand_ticks (s : State) : s.seeCommand.ticks = s.ticks := rfl
@[simp] theorem seeCommand_commandSeen (s : State) : s.seeCommand.commandSeen = true := rfl
@[simp] theorem seeCommand_frame (s : State) : s.seeCommand.frame = s.frame := rfl
@[simp] theorem seeCommand_interrupts (s : State) : s.seeCommand.interrupts = s.interrupts := rfl
@[simp] theorem seeCommand_transport (s : State) : s.seeCommand.transport = s.transport := rfl
@[simp] theorem seeCommand_app (s : State) : s.seeCommand.app = s.app := rfl
@[simp] theorem seeCommand_cmds (s : State) : s.seeCommand.cmds = s.cmds := rfl
@[simp] theorem seeCommand_wire (s : State) : s.seeCommand.wire = s.wire := rfl
@[simp] theorem seeCommand_answers (s : State) : s.seeCommand.answers = s.answers := rfl
@[simp] theorem seeCommand_draws (s : State) : s.seeCommand.draws = s.draws := rfl
@[simp] theorem seeCommand_trace (s : State) : s.seeCommand.trace = s.trace := rfl
end

section
@[simp] theorem hardwareReset_buf (s : State) : (hardwareReset s).buf = freeDWord s.draws := rfl
@[simp] theorem hardwareReset_pending (s : State) : (hardwareReset s).pending = 0 := rfl
@[simp] theorem hardwareReset_count (s : State) : (hardwareReset s).count = 0#32 := rfl
@[simp] theorem hardwareReset_base (s : State) : (hardwareReset s).base = Config.freeWord s.draws := rfl
@[simp] theorem hardwareReset_aborted (s : State) : (hardwareReset s).aborted = false := rfl
@[simp] theorem hardwareReset_rsp (s : State) : (hardwareReset s).rsp = none := rfl
@[simp] theorem hardwareReset_flash (s : State) : (hardwareReset s).flash = s.flash := rfl
@[simp] theorem hardwareReset_params (s : State) : (hardwareReset s).params = s.params := rfl
@[simp] theorem hardwareReset_dispatcher (s : State) : (hardwareReset s).dispatcher = .idle := rfl
@[simp] theorem hardwareReset_boot (s : State) : (hardwareReset s).boot = .commandWindow := rfl
@[simp] theorem hardwareReset_ticks (s : State) : (hardwareReset s).ticks = Config.windowTicks := rfl
@[simp] theorem hardwareReset_commandSeen (s : State) : (hardwareReset s).commandSeen = false := rfl
@[simp] theorem hardwareReset_frame (s : State) : (hardwareReset s).frame = none := rfl
@[simp] theorem hardwareReset_interrupts (s : State) : (hardwareReset s).interrupts = true := rfl
@[simp] theorem hardwareReset_transport (s : State) : (hardwareReset s).transport = true := rfl
@[simp] theorem hardwareReset_app (s : State) : (hardwareReset s).app = none := rfl
@[simp] theorem hardwareReset_cmds (s : State) : (hardwareReset s).cmds = s.cmds := rfl
@[simp] theorem hardwareReset_wire (s : State) : (hardwareReset s).wire = s.wire := rfl
@[simp] theorem hardwareReset_answers (s : State) : (hardwareReset s).answers = s.answers := rfl
@[simp] theorem hardwareReset_draws (s : State) : (hardwareReset s).draws = s.draws + 1 := rfl
@[simp] theorem hardwareReset_trace (s : State) : (hardwareReset s).trace = s.trace := rfl
end

section
@[simp] theorem prefillCopy_buf (s : State) (c : List Byte) : (prefillCopy s c).buf = fillBuf s.buf s.pending.val (prefillBytes s c) := rfl
@[simp] theorem prefillCopy_pending (s : State) (c : List Byte) : (prefillCopy s c).pending = Fin.ofNat 9 (s.pending.val + (prefillBytes s c).length) := rfl
@[simp] theorem prefillCopy_count (s : State) (c : List Byte) : (prefillCopy s c).count = s.count := rfl
@[simp] theorem prefillCopy_base (s : State) (c : List Byte) : (prefillCopy s c).base = s.base := rfl
@[simp] theorem prefillCopy_aborted (s : State) (c : List Byte) : (prefillCopy s c).aborted = s.aborted := rfl
@[simp] theorem prefillCopy_rsp (s : State) (c : List Byte) : (prefillCopy s c).rsp = s.rsp := rfl
@[simp] theorem prefillCopy_flash (s : State) (c : List Byte) : (prefillCopy s c).flash = s.flash := rfl
@[simp] theorem prefillCopy_params (s : State) (c : List Byte) : (prefillCopy s c).params = s.params := rfl
@[simp] theorem prefillCopy_dispatcher (s : State) (c : List Byte) : (prefillCopy s c).dispatcher = s.dispatcher := rfl
@[simp] theorem prefillCopy_boot (s : State) (c : List Byte) : (prefillCopy s c).boot = s.boot := rfl
@[simp] theorem prefillCopy_ticks (s : State) (c : List Byte) : (prefillCopy s c).ticks = s.ticks := rfl
@[simp] theorem prefillCopy_commandSeen (s : State) (c : List Byte) : (prefillCopy s c).commandSeen = s.commandSeen := rfl
@[simp] theorem prefillCopy_frame (s : State) (c : List Byte) : (prefillCopy s c).frame = s.frame := rfl
@[simp] theorem prefillCopy_interrupts (s : State) (c : List Byte) : (prefillCopy s c).interrupts = s.interrupts := rfl
@[simp] theorem prefillCopy_transport (s : State) (c : List Byte) : (prefillCopy s c).transport = s.transport := rfl
@[simp] theorem prefillCopy_app (s : State) (c : List Byte) : (prefillCopy s c).app = s.app := rfl
@[simp] theorem prefillCopy_cmds (s : State) (c : List Byte) : (prefillCopy s c).cmds = s.cmds := rfl
@[simp] theorem prefillCopy_wire (s : State) (c : List Byte) : (prefillCopy s c).wire = s.wire := rfl
@[simp] theorem prefillCopy_answers (s : State) (c : List Byte) : (prefillCopy s c).answers = s.answers := rfl
@[simp] theorem prefillCopy_draws (s : State) (c : List Byte) : (prefillCopy s c).draws = s.draws := rfl
@[simp] theorem prefillCopy_trace (s : State) (c : List Byte) : (prefillCopy s c).trace = s.trace := rfl
end

section
@[simp] theorem carry_buf (t : List Byte) (s : State) : (carry t s).buf = fillBuf s.buf 0 t := rfl
@[simp] theorem carry_pending (t : List Byte) (s : State) : (carry t s).pending = Fin.ofNat 9 t.length := rfl
@[simp] theorem carry_count (t : List Byte) (s : State) : (carry t s).count = s.count := rfl
@[simp] theorem carry_base (t : List Byte) (s : State) : (carry t s).base = s.base := rfl
@[simp] theorem carry_aborted (t : List Byte) (s : State) : (carry t s).aborted = s.aborted := rfl
@[simp] theorem carry_rsp (t : List Byte) (s : State) : (carry t s).rsp = s.rsp := rfl
@[simp] theorem carry_flash (t : List Byte) (s : State) : (carry t s).flash = s.flash := rfl
@[simp] theorem carry_params (t : List Byte) (s : State) : (carry t s).params = s.params := rfl
@[simp] theorem carry_dispatcher (t : List Byte) (s : State) : (carry t s).dispatcher = s.dispatcher := rfl
@[simp] theorem carry_boot (t : List Byte) (s : State) : (carry t s).boot = s.boot := rfl
@[simp] theorem carry_ticks (t : List Byte) (s : State) : (carry t s).ticks = s.ticks := rfl
@[simp] theorem carry_commandSeen (t : List Byte) (s : State) : (carry t s).commandSeen = s.commandSeen := rfl
@[simp] theorem carry_frame (t : List Byte) (s : State) : (carry t s).frame = s.frame := rfl
@[simp] theorem carry_interrupts (t : List Byte) (s : State) : (carry t s).interrupts = s.interrupts := rfl
@[simp] theorem carry_transport (t : List Byte) (s : State) : (carry t s).transport = s.transport := rfl
@[simp] theorem carry_app (t : List Byte) (s : State) : (carry t s).app = s.app := rfl
@[simp] theorem carry_cmds (t : List Byte) (s : State) : (carry t s).cmds = s.cmds := rfl
@[simp] theorem carry_wire (t : List Byte) (s : State) : (carry t s).wire = s.wire := rfl
@[simp] theorem carry_answers (t : List Byte) (s : State) : (carry t s).answers = s.answers := rfl
@[simp] theorem carry_draws (t : List Byte) (s : State) : (carry t s).draws = s.draws := rfl
@[simp] theorem carry_trace (t : List Byte) (s : State) : (carry t s).trace = s.trace := rfl
end

/-- A draw takes the first listed answer and counts itself; it changes nothing else (R102). -/
theorem draw_snd (s : State) : s.draw.2 = { s with answers := s.answers.tail, draws := s.draws + 1 } := by
  unfold State.draw; split <;> simp_all

@[simp] theorem draw_buf (s : State) : s.draw.2.buf = s.buf := by rw [draw_snd]
@[simp] theorem draw_pending (s : State) : s.draw.2.pending = s.pending := by rw [draw_snd]
@[simp] theorem draw_count (s : State) : s.draw.2.count = s.count := by rw [draw_snd]
@[simp] theorem draw_base (s : State) : s.draw.2.base = s.base := by rw [draw_snd]
@[simp] theorem draw_aborted (s : State) : s.draw.2.aborted = s.aborted := by rw [draw_snd]
@[simp] theorem draw_rsp (s : State) : s.draw.2.rsp = s.rsp := by rw [draw_snd]
@[simp] theorem draw_flash (s : State) : s.draw.2.flash = s.flash := by rw [draw_snd]
@[simp] theorem draw_params (s : State) : s.draw.2.params = s.params := by rw [draw_snd]
@[simp] theorem draw_dispatcher (s : State) : s.draw.2.dispatcher = s.dispatcher := by rw [draw_snd]
@[simp] theorem draw_boot (s : State) : s.draw.2.boot = s.boot := by rw [draw_snd]
@[simp] theorem draw_ticks (s : State) : s.draw.2.ticks = s.ticks := by rw [draw_snd]
@[simp] theorem draw_commandSeen (s : State) : s.draw.2.commandSeen = s.commandSeen := by rw [draw_snd]
@[simp] theorem draw_frame (s : State) : s.draw.2.frame = s.frame := by rw [draw_snd]
@[simp] theorem draw_interrupts (s : State) : s.draw.2.interrupts = s.interrupts := by rw [draw_snd]
@[simp] theorem draw_transport (s : State) : s.draw.2.transport = s.transport := by rw [draw_snd]
@[simp] theorem draw_app (s : State) : s.draw.2.app = s.app := by rw [draw_snd]
@[simp] theorem draw_cmds (s : State) : s.draw.2.cmds = s.cmds := by rw [draw_snd]
@[simp] theorem draw_wire (s : State) : s.draw.2.wire = s.wire := by rw [draw_snd]
@[simp] theorem draw_answers (s : State) : s.draw.2.answers = s.answers.tail := by rw [draw_snd]
@[simp] theorem draw_draws (s : State) : s.draw.2.draws = s.draws + 1 := by rw [draw_snd]
@[simp] theorem draw_trace (s : State) : s.draw.2.trace = s.trace := by rw [draw_snd]

end Sys2Proof.Machine
end

