-- ==== Sys2Proof/Laws/Ops.lean ====
section
/-! SUPPORT. For each shared operation, once, what it does where it succeeds and everything it can do. -/

namespace Sys2Proof.Machine

@[simp] theorem andThen_next {α β : Type} (a : α) (k : α → Host.Outcome β Fault Refusal) : andThen (.next a) k = k a := rfl
@[simp] theorem andThen_fault {α β : Type} (f : Fault) (k : α → Host.Outcome β Fault Refusal) : andThen (.fault f) k = .fault f := rfl
@[simp] theorem andThen_refused {α β : Type} (r : Refusal) (k : α → Host.Outcome β Fault Refusal) :
    andThen (.refused r) k = .refused r := rfl

theorem andThen_assoc {α β γ : Type} (o : Host.Outcome α Fault Refusal) (k : α → Host.Outcome β Fault Refusal)
    (l : β → Host.Outcome γ Fault Refusal) : andThen (andThen o k) l = andThen o fun a => andThen (k a) l := by
  cases o <;> rfl

/-- A sequence that answers a next state did so in both parts. -/
theorem andThen_eq_next {α β : Type} {o : Host.Outcome α Fault Refusal} {k : α → Host.Outcome β Fault Refusal} {b : β}
    (h : andThen o k = .next b) : ∃ a, o = .next a ∧ k a = .next b := by
  cases o with
  | next a => exact ⟨a, rfl, h⟩
  | fault f => cases h
  | refused r => cases h

/-- Erased bytes are what the test of R101 asks. -/
theorem dwordErased_of_erased {m : Memory} {a : Nat} (ha : a + 8 ≤ addressSpace) (h : Erased m a 8) :
    dwordErased m a = true := by
  simp only [dwordErased, List.all_eq_true]
  intro b hb
  obtain ⟨j, hj⟩ := List.mem_iff_getElem?.1 hb
  rw [Memory.getElem?_readBytes] at hj
  split at hj
  · rename_i hlt
    rw [Nat.mod_eq_of_lt (by simp only [addressSpace] at *; omega), h j hlt] at hj
    simp at hj; simp [← hj]
  · cases hj

/-- `FlashProgram` of an erased double-word inside the region whose answer is `Ok` (R101). -/
theorem flashProgram_ok {r : Region} {addr : Word} {d : DWord} {s : State} {rest : List Answer}
    (hal : addr.toNat % 8 = 0) (hr : r.start ≤ addr.toNat) (hr' : addr.toNat + 8 ≤ r.stop)
    (he : dwordErased s.flash addr.toNat = true) (ha : s.answers = .ok :: rest) :
    flashProgram r addr d s = .next (.ok, { s with
      flash := s.flash.writeBytes addr.toNat d.toList, answers := rest, draws := s.draws + 1,
      trace := s.trace ++ [.prog addr d .ok] }) := by
  have hh : Region.holds r addr.toNat 8 = true := by simp [Region.holds, hr, hr']
  simp [flashProgram, hal, hh, he, State.draw, ha, State.log, State.setFlash]

/-- The environment answers a loss of power only where one is listed (log 9). -/
theorem draw_ne_lostBefore {s : State} (h : s.answers.head? ≠ some .lostBefore) : s.draw.1 ≠ .lostBefore := by
  unfold State.draw
  cases hs : s.answers with
  | nil => by_cases hf : Config.freeOk s.draws <;> simp [hf]
  | cons a rest => rw [hs] at h; simpa using h

/-- Where power holds the machine stops (R163). -/
theorem orLost_stop {o : Host.Outcome (PortResult × State) Fault Refusal} {s : State} (h : s.answers.head? ≠ some .lostBefore) :
    orLost o s = o := by
  have hd := draw_ne_lostBefore h
  unfold orLost
  split
  · exact absurd ‹_› hd
  · rfl
  · rfl
  · rfl

/-- Where the machine does not stop, power was lost before (R163). -/
theorem orLost_next {o : Host.Outcome (PortResult × State) Fault Refusal} {s : State} {p : PortResult × State}
    (ho : ∀ q, o ≠ .next q) (h : orLost o s = .next p) : p = (.lost, powerLoss s.draw.2) ∧ s.draw.1 = .lostBefore := by
  unfold orLost at h
  split at h
  · cases h; exact ⟨rfl, ‹_›⟩
  · exact absurd h (ho p)
  · exact absurd h (ho p)
  · exact absurd h (ho p)

/-- Everything `FlashProgram` can do where it does not stop (R101, R102, R163). -/
theorem flashProgram_cases {r : Region} {addr : Word} {d : DWord} {s : State} {p : PortResult × State}
    (h : flashProgram r addr d s = .next p) :
    (p = (.err, s.log (.prog addr d .err)) ∧ addr.toNat % 8 ≠ 0) ∨
    (p = (.ok, (s.draw.2.setFlash (s.flash.writeBytes addr.toNat d.toList)).log (.prog addr d .ok)) ∧ s.draw.1 = .ok ∧
      addr.toNat % 8 = 0 ∧ Region.holds r addr.toNat 8 = true ∧ dwordErased s.flash addr.toNat = true) ∨
    (p = (.err, (s.draw.2.scramble s.draws addr.toNat 8).log (.prog addr d .err)) ∧ s.draw.1 = .err ∧
      addr.toNat % 8 = 0 ∧ Region.holds r addr.toNat 8 = true) ∨
    (p = (.lost, powerLoss s.draw.2) ∧ s.draw.1 = .lostBefore) ∨
    (p = (.lost, powerLoss ((s.draw.2.scramble s.draws addr.toNat 8).log (.prog addr d .lost))) ∧ s.draw.1 = .lostDuring ∧
      addr.toNat % 8 = 0 ∧ Region.holds r addr.toNat 8 = true) := by
  unfold flashProgram at h
  split at h
  · cases h; exact .inl ⟨rfl, ‹_›⟩
  · split at h
    · exact .inr (.inr (.inr (.inl (orLost_next (by simp) h))))
    · rename_i hal hh
      have hal' : addr.toNat % 8 = 0 := by omega
      have hh' : Region.holds r addr.toNat 8 = true := by simpa using hh
      split at h
      · split at h
        · cases h; exact .inr (.inl ⟨rfl, ‹_›, hal', hh', ‹_›⟩)
        · cases h
      · cases h; exact .inr (.inr (.inl ⟨rfl, ‹_›, hal', hh'⟩))
      · cases h; exact .inr (.inr (.inr (.inl ⟨rfl, ‹_›⟩)))
      · cases h; exact .inr (.inr (.inr (.inr ⟨rfl, ‹_›, hal', hh'⟩)))

/-- Everything `FlashErase` can do where it does not stop (R104, R163). -/
theorem flashErase_cases {r : Region} {s : State} {p : PortResult × State} (h : flashErase r s = .next p) :
    (p = (.ok, (s.draw.2.setFlash (s.flash.erase r)).log (.erase r .ok)) ∧ s.draw.1 = .ok) ∨
    (p = (.err, (s.draw.2.scramble s.draws r.start (r.stop - r.start)).log (.erase r .err)) ∧ s.draw.1 = .err) ∨
    (p = (.lost, powerLoss s.draw.2) ∧ s.draw.1 = .lostBefore) ∨
    (p = (.lost, powerLoss ((s.draw.2.scramble s.draws r.start (r.stop - r.start)).log (.erase r .lost))) ∧
      s.draw.1 = .lostDuring) := by
  unfold flashErase at h
  split at h
  · cases hd : s.draw.1 <;> rw [hd] at h <;> cases h <;> simp
  · exact .inr (.inr (.inl (orLost_next (by simp) h)))

/-- `FlashErase` of whole pages whose answer is `Ok` (R104). -/
theorem flashErase_ok {r : Region} {s : State} {rest : List Answer} (hp : r.wholePages s.params.pageSize)
    (ha : s.answers = .ok :: rest) :
    flashErase r s = .next (.ok, { s with
      flash := s.flash.erase r, answers := rest, draws := s.draws + 1, trace := s.trace ++ [.erase r .ok] }) := by
  simp [flashErase, hp, State.draw, ha, State.log, State.setFlash]

/-- The state with another partial double-word in the accumulator. -/
def State.withPartial (s : State) (b : DWord) (p : Fin 9) : State := { s with buf := b, pending := p }

/-- What a program that found another partial double-word in the accumulator leaves: the same, where it succeeded. -/
def keepPartial (b : DWord) (p : Fin 9) (x : PortResult × State) : PortResult × State :=
  match x.1 with
  | .ok => (.ok, x.2.withPartial b p)
  | .err => x
  | .lost => x

theorem draw_withPartial (s : State) (b : DWord) (p : Fin 9) :
    (s.withPartial b p).draw = (s.draw.1, s.draw.2.withPartial b p) := by
  unfold State.draw State.withPartial
  cases s.answers <;> rfl

/-- A stop never depends on the accumulator. -/
theorem orLost_withPartial {o : Host.Outcome (PortResult × State) Fault Refusal} (ho : ∀ q, o ≠ .next q) (s : State) (b : DWord)
    (p : Fin 9) {k : PortResult × State → Host.Outcome (PortResult × State) Fault Refusal} (hk : ∀ t, k (.lost, t) = .next (.lost, t)) :
    orLost o (s.withPartial b p) = andThen (orLost o s) k := by
  have hs : o = andThen o k := by
    cases o with
    | next a => exact absurd rfl (ho a)
    | fault f => rfl
    | refused r => rfl
  unfold orLost
  rw [draw_withPartial]
  cases s.draw.1 with
  | lostBefore => exact (hk _).symm
  | ok => exact hs
  | err => exact hs
  | lostDuring => exact hs

/-- `FlashProgram` never reads the accumulator; a loss of power leaves it unspecified (R160). -/
theorem flashProgram_withPartial (r : Region) (a : Word) (d : DWord) (s : State) (b : DWord) (p : Fin 9) :
    flashProgram r a d (s.withPartial b p) = andThen (flashProgram r a d s) fun x =>
      .next (match x.1 with
        | .ok => (.ok, x.2.withPartial b p)
        | .err => (.err, x.2.withPartial b p)
        | .lost => x) := by
  unfold flashProgram
  rw [draw_withPartial]
  by_cases h1 : a.toNat % 8 ≠ 0
  · rw [if_pos h1, if_pos h1]; rfl
  · rw [if_neg h1, if_neg h1]
    by_cases h2 : Region.holds r a.toNat 8 = false
    · rw [if_pos h2, if_pos h2]; exact orLost_withPartial (by simp) s b p fun _ => rfl
    · rw [if_neg h2, if_neg h2]
      cases hd : s.draw.1 with
      | ok =>
        by_cases h3 : dwordErased s.flash a.toNat = true
        · simp only [State.withPartial, h3, if_true]; rfl
        · simp only [State.withPartial, h3]; rfl
      | err => rfl
      | lostBefore => rfl
      | lostDuring => rfl

/-- A program of unit AW never reads the accumulator: an abort and a loss of power leave it unspecified (R80, R160), success
leaves it as it was. -/
theorem awProgram_withPartial (d : DWord) (n : Nat) (s : State) (b : DWord) (p : Fin 9) :
    awProgram d n (s.withPartial b p) = andThen (awProgram d n s) fun x => .next (keepPartial b p x) := by
  unfold awProgram
  rw [flashProgram_withPartial]
  by_cases h1 : addressSpace ≤ s.base.toNat + s.count.toNat
  · rw [if_pos (show addressSpace ≤ (s.withPartial b p).base.toNat + (s.withPartial b p).count.toNat from h1), if_pos h1]
    exact orLost_withPartial (by simp) s b p fun _ => rfl
  · rw [if_neg (show ¬ addressSpace ≤ (s.withPartial b p).base.toNat + (s.withPartial b p).count.toNat from h1), if_neg h1]
    simp only [andThen_assoc, andThen_next]
    rw [show (s.withPartial b p).params = s.params from rfl, show (s.withPartial b p).writePointer = s.writePointer from rfl]
    congr 1
    funext x
    obtain ⟨r, t⟩ := x
    cases r with
    | ok =>
      by_cases h2 : counterSpace ≤ t.count.toNat + n
      · simp only [if_pos (show counterSpace ≤ (t.withPartial b p).count.toNat + n from h2), if_pos h2]; rfl
      · simp only [if_neg (show ¬ counterSpace ≤ (t.withPartial b p).count.toNat + n from h2), if_neg h2]; rfl
    | err => rfl
    | lost => rfl

theorem awProgramAll_withPartial (ds : List DWord) (s : State) (b : DWord) (p : Fin 9) :
    awProgramAll ds (s.withPartial b p) = andThen (awProgramAll ds s) fun x => .next (keepPartial b p x) := by
  induction ds generalizing s with
  | nil => rfl
  | cons d ds ih =>
    simp only [awProgramAll, awProgram_withPartial, andThen_assoc, andThen_next]
    congr 1
    funext x
    obtain ⟨r, t⟩ := x
    cases r with
    | ok => exact ih t
    | err => rfl
    | lost => rfl

/-- Programs that succeed leave the accumulator as it was. -/
theorem awProgramAll_ok_buf {ds : List DWord} {s t : State} (h : awProgramAll ds s = .next (.ok, t)) :
    t.buf = s.buf ∧ t.pending = s.pending := by
  have := awProgramAll_withPartial ds s s.buf s.pending
  rw [show s.withPartial s.buf s.pending = s from rfl, h] at this
  simp only [andThen_next, keepPartial] at this
  injection this with h; injection h with _ h
  rw [h]; exact ⟨rfl, rfl⟩

/-- The accumulator after a FEED that did not abort: the tail of the stream (R74, R76). -/
def afterFeed (b : DWord) (s : State) (chunk : List Byte) (t : State) : State :=
  (t.withPartial b (Fin.ofNat 9 ((s.pending.val + chunk.length) % 8))).respondAW .ok

/-- What FEED does with the result of its programs. -/
def feedEnd (b : DWord) (s : State) (chunk : List Byte) (x : PortResult × State) : Host.Outcome State Fault Refusal :=
  match x.1 with
  | .ok => .next (afterFeed b s chunk x.2)
  | .err => .next x.2
  | .lost => .next x.2

theorem andThen_congr {α β : Type} {o : Host.Outcome α Fault Refusal} {k l : α → Host.Outcome β Fault Refusal}
    (h : ∀ a, o = .next a → k a = l a) : andThen o k = andThen o l := by
  cases o with
  | next a => exact h a rfl
  | fault f => rfl
  | refused r => rfl

theorem feedStream_length (s : State) (chunk : List Byte) : (feedStream s chunk).length = min s.pending.val 8 + chunk.length := by
  simp [feedStream, State.pendingBytes]

/-- FEED with nothing pending (R75, R76). -/
theorem execFeed_eq_empty (s : State) (base : Word) (chunk : List Byte) (hab : s.aborted = false) (h0 : s.pending.val = 0) :
    execFeed base chunk s = andThen (awProgramAll (wordsOf (feedStream s chunk)) (s.latch base))
      (feedEnd (fillBuf s.buf 0 (tailOf chunk)) s chunk) := by
  have hs : feedStream s chunk = chunk := by simp [feedStream, State.pendingBytes, h0]
  have hb : prefillBytes s chunk = [] := by simp [prefillBytes, h0]
  have hp : prefill chunk (s.latch base) = .next (.ok, s.latch base) := by
    unfold prefill; rw [if_neg (by simp [h0])]
  have hc : bulkCarry chunk (s.latch base) = andThen (awProgramAll (wordsOf chunk) (s.latch base))
      (feedEnd (fillBuf s.buf 0 (tailOf chunk)) s chunk) := by
    unfold bulkCarry; rw [if_pos (by simpa using h0)]
    apply andThen_congr
    rintro ⟨r, t⟩ ho
    cases r with
    | ok =>
      have hbuf := (awProgramAll_ok_buf ho).1
      simp only [latch_buf] at hbuf
      simp only [feedEnd, afterFeed, carry, State.withPartial, hbuf, tailOf_length, h0, Nat.zero_add]
    | err => rfl
    | lost => rfl
  unfold execFeed
  rw [hab, hp, hb, hs, ← hc]
  rfl

/-- FEED whose chunk does not complete the pending double-word (R74, R81). -/
theorem execFeed_eq_short (s : State) (base : Word) (chunk : List Byte) (hab : s.aborted = false) (h0 : 0 < s.pending.val)
    (hlt : s.pending.val + chunk.length < 8) :
    execFeed base chunk s = .next (afterFeed (fillBuf s.buf s.pending.val chunk) s chunk (s.latch base)) := by
  have hb : prefillBytes s chunk = chunk := by
    simp only [prefillBytes, h0, if_true]; exact List.take_of_length_le (by omega)
  have hmod : (s.pending.val + chunk.length) % 8 = s.pending.val + chunk.length := Nat.mod_eq_of_lt hlt
  have hpv : (Fin.ofNat 9 (s.pending.val + chunk.length)).val = s.pending.val + chunk.length := by
    simp [Fin.ofNat]; omega
  have hcopy : ∀ u : State, u.buf = s.buf → u.pending = s.pending → prefillCopy u chunk =
      u.withPartial (fillBuf s.buf s.pending.val chunk) (Fin.ofNat 9 (s.pending.val + chunk.length)) := by
    intro u hu hu'
    have : prefillBytes u chunk = chunk := by
      simp only [prefillBytes, hu', h0, if_true]; exact List.take_of_length_le (by omega)
    simp only [prefillCopy, this, hu, hu', State.withPartial]
  have hp : prefill chunk (s.latch base) = .next (.ok, (s.latch base).withPartial (fillBuf s.buf s.pending.val chunk)
      (Fin.ofNat 9 (s.pending.val + chunk.length))) := by
    unfold prefill
    by_cases hc : chunk = []
    · subst hc
      rw [if_neg (by simp)]
      have h1 : fillBuf s.buf s.pending.val [] = s.buf := by
        apply Vector.ext; intro j hj; simp [fillBuf]
      have h2 : Fin.ofNat 9 (s.pending.val + ([] : List Byte).length) = s.pending := by
        apply Fin.ext; simp [Fin.ofNat]
      rw [h1, h2]; rfl
    · rw [if_pos ⟨by simpa using h0, hc⟩]
      simp only [hcopy (s.latch base) rfl rfl]
      rw [if_neg (by simp only [State.withPartial, hpv]; omega)]
  have hz : ¬ ((s.latch base).withPartial (fillBuf s.buf s.pending.val chunk)
      (Fin.ofNat 9 (s.pending.val + chunk.length))).pending.val = 0 := by
    simp only [State.withPartial, hpv]; omega
  unfold execFeed
  rw [hab, hp]
  simp only [Bool.false_eq_true, if_false, andThen_next, bulkCarry, hz, afterFeed, hmod]

/-- FEED that completes the pending double-word, which is programmed first (R74), then the whole words of the rest (R75). -/
theorem execFeed_eq_full (s : State) (base : Word) (chunk : List Byte) (hab : s.aborted = false) (h0 : 0 < s.pending.val)
    (hc : chunk ≠ []) (hge : 8 ≤ s.pending.val + chunk.length) :
    execFeed base chunk s = andThen (awProgramAll (wordsOf (feedStream s chunk)) (s.latch base))
      (feedEnd (fillBuf (fillBuf s.buf s.pending.val (chunk.take (8 - s.pending.val))) 0
        (tailOf (chunk.drop (8 - s.pending.val)))) s chunk) := by
  have hb : ∀ u : State, u.pending = s.pending → prefillBytes u chunk = chunk.take (8 - s.pending.val) := by
    intro u hu; simp only [prefillBytes, hu, h0, if_true]
  have hlen : (chunk.take (8 - s.pending.val)).length = 8 - s.pending.val := by rw [List.length_take]; omega
  have h8 : s.pending.val + (8 - s.pending.val) = 8 := by omega
  have htake := take_fillBuf s.buf s.pending.val (chunk.take (8 - s.pending.val)) (by rw [hlen]; omega)
  rw [hlen, h8, List.take_of_length_le (by simp)] at htake
  have hcopy : prefillCopy (s.latch base) chunk =
      (s.latch base).withPartial (fillBuf s.buf s.pending.val (chunk.take (8 - s.pending.val))) (Fin.ofNat 9 8) := by
    simp only [prefillCopy, hb (s.latch base) rfl, hlen, latch_pending, latch_buf, h8, State.withPartial]
  generalize fillBuf s.buf s.pending.val (chunk.take (8 - s.pending.val)) = d at htake hcopy
  have hstream : feedStream s chunk = d.toList ++ chunk.drop (8 - s.pending.val) := by
    rw [htake, feedStream, List.append_assoc, List.take_append_drop]; rfl
  have hmod : (s.pending.val + chunk.length) % 8 = (tailOf (chunk.drop (8 - s.pending.val))).length := by
    rw [tailOf_length, List.length_drop]; omega
  have hp : prefill chunk (s.latch base) = andThen (awProgram d 8 (s.latch base)) fun x =>
      .next (match x.1 with
        | .ok => (.ok, x.2.withPartial d 0)
        | .err => x
        | .lost => x) := by
    unfold prefill
    rw [if_pos ⟨by simpa using h0, hc⟩]
    simp only [hcopy]
    rw [if_pos (show ((s.latch base).withPartial d (Fin.ofNat 9 8)).pending.val = 8 from rfl),
      show ((s.latch base).withPartial d (Fin.ofNat 9 8)).buf = d from rfl, awProgram_withPartial, andThen_assoc]
    congr 1
    funext x
    obtain ⟨r, t⟩ := x
    cases r <;> rfl
  unfold execFeed
  rw [hab, hp, hstream, wordsOf_append, hb s rfl, hlen]
  simp only [Bool.false_eq_true, if_false, andThen_assoc, andThen_next, awProgramAll]
  congr 1
  funext x
  obtain ⟨r, t⟩ := x
  cases r with
  | err => rfl
  | lost => rfl
  | ok =>
    simp only [bulkCarry]
    rw [if_pos (show (t.withPartial d 0).pending.val = 0 from rfl), awProgramAll_withPartial, andThen_assoc]
    congr 1
    funext y
    obtain ⟨r, u⟩ := y
    cases r with
    | err => rfl
    | lost => rfl
    | ok => simp only [andThen_next, keepPartial, carry, feedEnd, afterFeed, State.withPartial, hmod]

/-- FEED in one view (R72): the pending bytes and the chunk are one stream; its full double-words are programmed in order, its tail
stays in the accumulator. -/
theorem execFeed_eq (s : State) (base : Word) (chunk : List Byte) (hab : s.aborted = false)
    (hp : s.pending.val ≤ 7 ∨ chunk ≠ []) :
    ∃ b : DWord, b.toList.take ((s.pending.val + chunk.length) % 8) = tailOf (feedStream s chunk) ∧
      execFeed base chunk s = andThen (awProgramAll (wordsOf (feedStream s chunk)) (s.latch base)) (feedEnd b s chunk) := by
  by_cases h0 : s.pending.val = 0
  · refine ⟨_, ?_, execFeed_eq_empty s base chunk hab h0⟩
    have hs : feedStream s chunk = chunk := by simp [feedStream, State.pendingBytes, h0]
    have := take_fillBuf s.buf 0 (tailOf chunk) (by have := tailOf_length_lt chunk; omega)
    rw [hs, h0, Nat.zero_add, ← tailOf_length]
    simpa using this
  · by_cases hlt : s.pending.val + chunk.length < 8
    · have hl : (feedStream s chunk).length < 8 := by rw [feedStream_length]; omega
      refine ⟨fillBuf s.buf s.pending.val chunk, ?_, (execFeed_eq_short s base chunk hab (by omega) hlt).trans ?_⟩
      · rw [Nat.mod_eq_of_lt hlt, take_fillBuf _ _ _ (by omega), tailOf_short hl]; rfl
      · rw [wordsOf_short hl]; rfl
    · have hc : chunk ≠ [] := by
        rintro rfl
        rcases hp with hp | hp
        · simp only [List.length_nil] at hlt; omega
        · exact hp rfl
      refine ⟨_, ?_, execFeed_eq_full s base chunk hab (by omega) hc (by omega)⟩
      have hlen : (chunk.take (8 - s.pending.val)).length = 8 - s.pending.val := by rw [List.length_take]; omega
      have htake := take_fillBuf s.buf s.pending.val (chunk.take (8 - s.pending.val)) (by rw [hlen]; omega)
      rw [hlen, show s.pending.val + (8 - s.pending.val) = 8 by omega, List.take_of_length_le (by simp)] at htake
      have hstream : feedStream s chunk =
          (fillBuf s.buf s.pending.val (chunk.take (8 - s.pending.val))).toList ++ chunk.drop (8 - s.pending.val) := by
        rw [htake, feedStream, List.append_assoc, List.take_append_drop]; rfl
      rw [hstream, tailOf_append]
      have hmod : (s.pending.val + chunk.length) % 8 = (tailOf (chunk.drop (8 - s.pending.val))).length := by
        rw [tailOf_length, List.length_drop]; omega
      have := take_fillBuf (fillBuf s.buf s.pending.val (chunk.take (8 - s.pending.val))) 0
        (tailOf (chunk.drop (8 - s.pending.val))) (by have := tailOf_length_lt (chunk.drop (8 - s.pending.val)); omega)
      rw [hmod]
      simpa using this

end Sys2Proof.Machine
end

