-- ==== Sys2Proof/Laws/Writer.lean ====
section
/-! SUPPORT. The programs of unit AW: what a run of them does where every program answers `Ok`, what any run of them leaves alone, and
that the flash stays canonical. -/

namespace Sys2Proof.Machine

/-- The state after the double-words `ds` were programmed at the write pointer, each with the answer `Ok` (R75). -/
def programmed (ds : List DWord) (s : State) : State :=
  { s with
    count := s.count + BitVec.ofNat 32 (8 * ds.length)
    flash := s.flash.writeBytes s.writeAddr ((ds.map (·.toList)).flatten)
    answers := s.answers.drop ds.length
    draws := s.draws + ds.length
    trace := s.trace ++ progEvents s.writePointer ds }

theorem writePointer_toNat {s : State} (h : s.writeAddr < addressSpace) : s.writePointer.toNat = s.writeAddr := by
  simp only [State.writePointer, State.writeAddr, BitVec.toNat_add] at *
  exact Nat.mod_eq_of_lt (by simpa using h)

theorem Erased.tail {m : Memory} {a n : Nat} {bs : List Byte} (h : Erased m a (8 * (n + 1))) (hb : bs.length = 8) :
    Erased (m.writeBytes a bs) (a + 8) (8 * n) := by
  intro k hk
  rw [Memory.read_writeBytes_other (by omega), show a + 8 + k = a + (8 + k) by omega]
  exact h (8 + k) (by omega)

/-- One program of unit AW that answers `Ok` (R14, R75, R77). -/
theorem awProgram_ok {d : DWord} {n : Nat} {s : State} {rest : List Answer} {k : Nat}
    (hc : CanProgram s.flash s.params.appRegion s.writeAddr (k + 1)) (hn : s.count.toNat + n < counterSpace)
    (ha : s.answers = .ok :: rest) :
    awProgram d n s = .next (.ok, { s with
      count := s.count + BitVec.ofNat 32 n, flash := s.flash.writeBytes s.writeAddr d.toList, answers := rest,
      draws := s.draws + 1, trace := s.trace ++ [.prog s.writePointer d .ok] }) := by
  obtain hc | ⟨hal, hr, hr', hsp, he⟩ := hc
  · omega
  · have hw : s.writePointer.toNat = s.writeAddr := writePointer_toNat (by omega)
    have hde : dwordErased s.flash s.writeAddr = true :=
      dwordErased_of_erased (by omega) fun k hk => he k (by omega)
    have hf := flashProgram_ok (r := s.params.appRegion) (addr := s.writePointer) (d := d) (s := s) (rest := rest)
      (by rw [hw]; exact hal) (by rw [hw]; exact hr) (by rw [hw]; omega) (by rw [hw]; exact hde) ha
    unfold awProgram
    rw [if_neg (by simp only [State.writeAddr] at hsp; omega), hf, hw]
    simp only [andThen_next]
    rw [if_neg (by omega)]
    rfl

/-- Programs of unit AW that all answer `Ok` (R75, R82). -/
theorem awProgramAll_ok {ds : List DWord} {s : State}
    (hc : CanProgram s.flash s.params.appRegion s.writeAddr ds.length)
    (hn : s.count.toNat + 8 * ds.length < counterSpace) (ha : AnswersOk ds.length s) :
    awProgramAll ds s = .next (.ok, programmed ds s) := by
  induction ds generalizing s with
  | nil => simp [awProgramAll, programmed, Memory.writeBytes, progEvents]
  | cons d ds ih =>
    obtain ⟨rest, hrest⟩ : ∃ rest, s.answers = .ok :: rest := by
      cases hs : s.answers with
      | nil => simp [AnswersOk, hs] at ha
      | cons a rest => simp only [AnswersOk, hs, List.length_cons, List.take_succ_cons, List.replicate_succ,
          List.cons.injEq] at ha; exact ⟨rest, by rw [ha.1]⟩
    have ha' : rest.take ds.length = List.replicate ds.length .ok := by
      simp only [AnswersOk, hrest, List.length_cons, List.take_succ_cons, List.replicate_succ, List.cons.injEq] at ha
      exact ha.2
    simp only [List.length_cons] at hc hn
    have h1 := awProgram_ok (d := d) (n := 8) hc (by omega) hrest
    simp only [awProgramAll, h1, andThen_next]
    have hcnt : (s.count + BitVec.ofNat 32 8).toNat = s.count.toNat + 8 := by
      rw [BitVec.toNat_add, BitVec.toNat_ofNat]
      simp only [counterSpace] at hn
      omega
    rw [ih]
    · simp only [programmed, State.writeAddr, hcnt, List.length_cons, List.map_cons, List.flatten_cons,
        Memory.writeBytes_append, Vector.length_toList, progEvents, State.writePointer, hrest, List.drop_succ_cons,
        List.append_assoc, List.cons_append, List.nil_append]
      congr 3
      · rw [BitVec.add_assoc, ← BitVec.ofNat_add]; congr 2; omega
      · omega
      · rw [BitVec.add_assoc]
    · obtain hc | ⟨hal, hr, hr', hsp, he⟩ := hc
      · omega
      · by_cases hz : ds.length = 0
        · exact .inl hz
        · refine .inr ?_
          simp only [State.writeAddr, hcnt] at *
          refine ⟨by omega, by omega, by omega, by omega, ?_⟩
          rw [← Nat.add_assoc]
          exact Erased.tail he (by simp)
    · simp only [hcnt]; omega
    · exact ha'

/-- What a draw answers where no power loss is listed, and that none is listed afterwards. -/
theorem draw_noPowerLoss {s : State} (h : NoPowerLoss s) : (s.draw.1 = .ok ∨ s.draw.1 = .err) ∧ NoPowerLoss s.draw.2 := by
  unfold State.draw
  cases hs : s.answers with
  | nil => refine ⟨?_, by simp [NoPowerLoss]⟩; by_cases hf : Config.freeOk s.draws <;> simp [hf]
  | cons a rest =>
    refine ⟨h a (by simp [hs]), fun b hb => h b ?_⟩
    simp only at hb
    rw [hs]; exact List.mem_cons_of_mem _ hb

@[simp] theorem powerLoss_flash (s : State) : (powerLoss s).flash = s.flash := rfl
@[simp] theorem powerLoss_params (s : State) : (powerLoss s).params = s.params := rfl

/-- What every `FlashProgram` keeps, however it ends: the constants, the flash outside its eight bytes, the canonical form. -/
theorem flashProgram_keeps {r : Region} {addr : Word} {d : DWord} {s : State} {p : PortResult × State}
    (h : flashProgram r addr d s = .next p) :
    p.2.params = s.params ∧
    (∀ a, ¬ (addr.toNat ≤ a ∧ a < addr.toNat + 8) → p.2.flash.read a = s.flash.read a) ∧
    (s.flash.wf = true → p.2.flash.wf = true) ∧ (s.flash.inSpace → p.2.flash.inSpace) := by
  have hsp : ∀ x : Nat, x = addr.toNat → x % 8 = 0 → x + 8 ≤ addressSpace := by
    intro x hx h8; have := addr.isLt; simp only [addressSpace]; omega
  rcases flashProgram_cases h with ⟨rfl, -⟩ | ⟨rfl, -, hal, -, -⟩ | ⟨rfl, -, hal, -⟩ | ⟨rfl, -⟩ | ⟨rfl, -, hal, -⟩
  · exact ⟨rfl, fun _ _ => rfl, id, id⟩
  · refine ⟨by simp, fun a ha => ?_, fun hw => ?_, fun hi => ?_⟩
    · exact Memory.read_writeBytes_other (by simpa using ha)
    · exact Memory.wf_writeBytes hw _ _
    · exact Memory.inSpace_writeBytes hi (by simpa using hsp _ rfl hal)
  · refine ⟨by simp, fun a ha => ?_, fun hw => ?_, fun hi => ?_⟩
    · simp only [log_flash, scramble_flash, draw_flash]; exact Memory.read_writeBytes_other (by simpa using ha)
    · simp only [log_flash, scramble_flash, draw_flash]; exact Memory.wf_writeBytes hw _ _
    · simp only [log_flash, scramble_flash, draw_flash]; exact Memory.inSpace_writeBytes hi (by simpa using hsp _ rfl hal)
  · exact ⟨by simp, fun a _ => by simp, fun hw => by simpa using hw, fun hi => by simpa using hi⟩
  · refine ⟨by simp, fun a ha => ?_, fun hw => ?_, fun hi => ?_⟩
    · simp only [powerLoss_flash, log_flash, scramble_flash, draw_flash]; exact Memory.read_writeBytes_other (by simpa using ha)
    · simp only [powerLoss_flash, log_flash, scramble_flash, draw_flash]; exact Memory.wf_writeBytes hw _ _
    · simp only [powerLoss_flash, log_flash, scramble_flash, draw_flash]
      exact Memory.inSpace_writeBytes hi (by simpa using hsp _ rfl hal)

/-- Without a loss of power a `FlashProgram` leaves everything but the flash and the environment's fields alone. -/
theorem flashProgram_same {r : Region} {addr : Word} {d : DWord} {s : State} {p : PortResult × State}
    (h : flashProgram r addr d s = .next p) (hn : NoPowerLoss s) :
    p.1 ≠ .lost ∧ HostSame s p.2 ∧ WriterSame s p.2 ∧ p.2.rsp = s.rsp ∧ NoPowerLoss p.2 := by
  have hd := draw_noPowerLoss hn
  rcases flashProgram_cases h with ⟨rfl, -⟩ | ⟨rfl, -⟩ | ⟨rfl, -⟩ | ⟨rfl, hl⟩ | ⟨rfl, hl, -⟩
  · exact ⟨by simp, by simp [HostSame], by simp [WriterSame], by simp, hn⟩
  · exact ⟨by simp, by simp [HostSame], by simp [WriterSame], by simp, by simpa [NoPowerLoss] using hd.2⟩
  · exact ⟨by simp, by simp [HostSame], by simp [WriterSame], by simp, by simpa [NoPowerLoss] using hd.2⟩
  · rcases hd.1 with h' | h' <;> rw [h'] at hl <;> cases hl
  · rcases hd.1 with h' | h' <;> rw [h'] at hl <;> cases hl

/-- Everything a program of unit AW can do where it does not stop (R77, R79, R80). -/
theorem awProgram_cases {d : DWord} {n : Nat} {s : State} {p : PortResult × State} (h : awProgram d n s = .next p) :
    (p = (.lost, powerLoss s.draw.2) ∧ s.draw.1 = .lostBefore) ∨
    (s.writeAddr < addressSpace ∧ ∃ q, flashProgram s.params.appRegion s.writePointer d s = .next q ∧
      ((q.1 = .ok ∧ q.2.count.toNat + n < counterSpace ∧ p = (.ok, q.2.advance n)) ∨
       (q.1 = .err ∧ p = (.err, abortEntry q.2)) ∨ (q.1 = .lost ∧ p = (.lost, q.2)))) := by
  unfold awProgram at h
  split at h
  · exact .inl (orLost_next (by simp) h)
  · rename_i hlt
    obtain ⟨q, hq, hk⟩ := andThen_eq_next h
    refine .inr ⟨by simp only [State.writeAddr]; omega, q, hq, ?_⟩
    obtain ⟨r, t⟩ := q
    cases r with
    | ok =>
      simp only at hk
      split at hk
      · cases hk
      · cases hk; exact .inl ⟨rfl, Nat.lt_of_not_le ‹_›, rfl⟩
    | err => cases hk; exact .inr (.inl ⟨rfl, rfl⟩)
    | lost => cases hk; exact .inr (.inr ⟨rfl, rfl⟩)

theorem advance_writeAddr {s : State} {n : Nat} (h : s.count.toNat + n < counterSpace) :
    (s.advance n).writeAddr = s.writeAddr + n := by
  simp only [State.writeAddr, State.advance, BitVec.toNat_add, BitVec.toNat_ofNat]
  simp only [counterSpace] at h
  omega

/-- Where a program that answered `Ok` left the base and the counter. -/
theorem flashProgram_ok_writer {r : Region} {addr : Word} {d : DWord} {s : State} {t : State}
    (h : flashProgram r addr d s = .next (.ok, t)) : WriterSame s t := by
  rcases flashProgram_cases h with ⟨h, -⟩ | ⟨h, -⟩ | ⟨h, -⟩ | ⟨h, -⟩ | ⟨h, -, -⟩ <;> simp only [Prod.mk.injEq, reduceCtorEq, false_and] at h
  rw [h.2]; simp [WriterSame]

/-- What every program of unit AW keeps, however it ends. -/
theorem awProgram_keeps {d : DWord} {n : Nat} {s : State} {p : PortResult × State} (h : awProgram d n s = .next p) :
    p.2.params = s.params ∧
    (∀ a, ¬ (s.writeAddr ≤ a ∧ a < s.writeAddr + 8) → p.2.flash.read a = s.flash.read a) ∧
    (s.flash.wf = true → p.2.flash.wf = true) ∧ (s.flash.inSpace → p.2.flash.inSpace) ∧
    (p.1 = .ok → p.2.writeAddr = s.writeAddr + n ∧ p.2.buf = s.buf ∧ p.2.pending = s.pending ∧ p.2.aborted = s.aborted) := by
  rcases awProgram_cases h with ⟨rfl, -⟩ | ⟨hlt, q, hq, hk⟩
  · exact ⟨by simp, fun a _ => by simp, fun hw => by simpa using hw, fun hi => by simpa using hi, fun hh => by cases hh⟩
  obtain ⟨hp, hm, hw, hi⟩ := flashProgram_keeps hq
  rw [writePointer_toNat hlt] at hm
  obtain ⟨r, t⟩ := q
  rcases hk with ⟨rfl, hc, rfl⟩ | ⟨rfl, rfl⟩ | ⟨rfl, rfl⟩
  · obtain ⟨h1, h2, h3, h4, h5⟩ := flashProgram_ok_writer hq
    refine ⟨hp, hm, hw, hi, fun _ => ⟨?_, h1, h2, h5⟩⟩
    rw [advance_writeAddr hc]; simp only [State.writeAddr, h3, h4]
  · exact ⟨hp, hm, hw, hi, fun hh => by cases hh⟩
  · exact ⟨hp, hm, hw, hi, fun hh => by cases hh⟩

/-- Without a loss of power a program of unit AW leaves the host alone. -/
theorem awProgram_same {d : DWord} {n : Nat} {s : State} {p : PortResult × State} (h : awProgram d n s = .next p)
    (hn : NoPowerLoss s) : p.1 ≠ .lost ∧ HostSame s p.2 ∧ p.2.base = s.base ∧ NoPowerLoss p.2 := by
  rcases awProgram_cases h with ⟨-, hl⟩ | ⟨-, q, hq, hk⟩
  · rcases (draw_noPowerLoss hn).1 with h' | h' <;> rw [h'] at hl <;> cases hl
  obtain ⟨h1, h2, h3, -, h4⟩ := flashProgram_same hq hn
  rcases hk with ⟨-, -, rfl⟩ | ⟨-, rfl⟩ | ⟨hl, -⟩
  · exact ⟨by simp, h2, h3.2.2.2.1, h4⟩
  · exact ⟨by simp, h2, h3.2.2.2.1, h4⟩
  · exact absurd hl h1

/-- What any run of programs of unit AW keeps: the constants, the flash outside the double-words it could program, the canonical
form. -/
theorem awProgramAll_keeps {ds : List DWord} {s : State} {p : PortResult × State} (h : awProgramAll ds s = .next p) :
    p.2.params = s.params ∧
    (∀ a, ¬ (s.writeAddr ≤ a ∧ a < s.writeAddr + 8 * ds.length) → p.2.flash.read a = s.flash.read a) ∧
    (s.flash.wf = true → p.2.flash.wf = true) ∧ (s.flash.inSpace → p.2.flash.inSpace) ∧
    (p.1 = .ok → p.2.writeAddr = s.writeAddr + 8 * ds.length ∧ p.2.aborted = s.aborted) := by
  induction ds generalizing s with
  | nil => cases h; exact ⟨rfl, fun _ _ => rfl, id, id, fun _ => ⟨rfl, rfl⟩⟩
  | cons d ds ih =>
    obtain ⟨q, hq, hk⟩ := andThen_eq_next h
    obtain ⟨hp, hm, hw, hi, ho⟩ := awProgram_keeps hq
    obtain ⟨r, t⟩ := q
    cases r with
    | ok =>
      obtain ⟨hp', hm', hw', hi', ho'⟩ := ih hk
      have hwa : t.writeAddr = s.writeAddr + 8 := (ho rfl).1
      refine ⟨hp'.trans hp, fun a ha => ?_, hw' ∘ hw, hi' ∘ hi, fun hh => ⟨?_, (ho' hh).2.trans (ho rfl).2.2.2⟩⟩
      · simp only [List.length_cons] at ha
        simp only [hwa] at hm'
        rw [hm' a (by omega), hm a (by omega)]
      · rw [(ho' hh).1, hwa, List.length_cons]; omega
    | err =>
      cases hk
      exact ⟨hp, fun a ha => hm a (by simp only [List.length_cons] at ha; omega), hw, hi, fun hh => by cases hh⟩
    | lost =>
      cases hk
      exact ⟨hp, fun a ha => hm a (by simp only [List.length_cons] at ha; omega), hw, hi, fun hh => by cases hh⟩

/-- Without a loss of power a run of programs of unit AW leaves the host alone. -/
theorem awProgramAll_same {ds : List DWord} {s : State} {p : PortResult × State} (h : awProgramAll ds s = .next p)
    (hn : NoPowerLoss s) : p.1 ≠ .lost ∧ HostSame s p.2 ∧ p.2.base = s.base := by
  induction ds generalizing s with
  | nil => cases h; exact ⟨by simp, by simp [HostSame], rfl⟩
  | cons d ds ih =>
    obtain ⟨q, hq, hk⟩ := andThen_eq_next h
    obtain ⟨h1, h2, h3, h4⟩ := awProgram_same hq hn
    obtain ⟨r, t⟩ := q
    cases r with
    | ok =>
      obtain ⟨h1', h2', h3'⟩ := ih hk h4
      refine ⟨h1', ?_, h3'.trans h3⟩
      simp only [HostSame] at *
      simp only [h2', h2, and_self]
    | err => cases hk; exact ⟨by simp, h2, h3⟩
    | lost => exact absurd rfl h1

end Sys2Proof.Machine
end

