-- ==== Sys2Proof/Laws/Replay.lean ====
section
/-! SUPPORT. The records of an action tell what it did to the flash: `replay` of them is the flash it left, and every flash
transaction among them lies in one of the two declared regions. Loss of power inside an action (R163) rests on both. -/

namespace Sys2Proof.Machine

/-- The record changes no flash and takes no answer of the environment. -/
def Event.quiet : Event → Bool
  | .prog _ _ _ => false
  | .erase _ _ => false
  | .rsp (.aw .flashProgramError _) => false
  | .rsp (.aw .ok _) => true
  | .rsp (.aw .aborted _) => true
  | .rsp (.iv _) => true
  | .systemReset => false
  | .powerLoss => false
  | .read _ _ => true
  | .crc _ _ _ => true
  | .send _ => true
  | .report _ => true
  | .disableInterrupts => true

/-- A flash transaction of the record is a refused misaligned program, or lies in one of the two declared regions (R31, R32). -/
def Event.Inside (p : Params) : Event → Prop
  | .prog a _ r => (r = .err ∧ a.toNat % 8 ≠ 0) ∨
      (a.toNat % 8 = 0 ∧ (Region.holds p.appRegion a.toNat 8 = true ∨ Region.holds p.metaSector a.toNat 8 = true))
  | .erase r _ => r = p.appRegion ∨ r = p.metaSector
  | .read _ _ => True
  | .crc _ _ _ => True
  | .rsp _ => True
  | .send _ => True
  | .report _ => True
  | .systemReset => True
  | .disableInterrupts => True
  | .powerLoss => True

theorem inside_of_quiet {e : Event} (h : e.quiet = true) (p : Params) : e.Inside p := by
  cases e <;> simp [Event.quiet, Event.Inside] at h ⊢

theorem replay_frame (s : State) (e : Event) :
    (replay s e).params = s.params ∧ (replay s e).cmds = s.cmds ∧ (replay s e).wire = s.wire ∧
    (replay s e).trace = s.trace ++ [e] := by
  unfold replay; split
  case h_2 => split <;> simp
  all_goals simp

/-- A record that touches no flash leaves the flash and the draws as they were. -/
theorem replay_quiet {e : Event} (h : e.quiet = true) (s : State) : (replay s e).flash = s.flash ∧ (replay s e).draws = s.draws := by
  unfold replay
  split <;> simp [Event.quiet] at h ⊢

/-- What a record does to the flash depends on the flash and the draws alone. -/
theorem replay_congr {s t : State} (h : s.flash = t.flash ∧ s.draws = t.draws) (e : Event) :
    (replay s e).flash = (replay t e).flash ∧ (replay s e).draws = (replay t e).draws := by
  obtain ⟨h1, h2⟩ := h
  unfold replay; split
  case h_2 => split <;> simp [h1, h2]
  all_goals simp [h1, h2]

theorem replays_congr (l : List Event) {s t : State} (h : s.flash = t.flash ∧ s.draws = t.draws) :
    (l.foldl replay s).flash = (l.foldl replay t).flash ∧ (l.foldl replay s).draws = (l.foldl replay t).draws := by
  induction l generalizing s t with
  | nil => exact h
  | cons e l ih => exact ih (replay_congr h e)

theorem replays_quiet {l : List Event} (h : l.all Event.quiet = true) (s : State) :
    (l.foldl replay s).flash = s.flash ∧ (l.foldl replay s).draws = s.draws := by
  induction l generalizing s with
  | nil => exact ⟨rfl, rfl⟩
  | cons e l ih =>
    simp only [List.all_cons, Bool.and_eq_true] at h
    obtain ⟨h1, h2⟩ := replay_quiet h.1 s
    obtain ⟨k1, k2⟩ := ih h.2 (replay s e)
    exact ⟨k1.trans h1, k2.trans h2⟩

theorem Memory.read_erase_other (m : Memory) {r : Region} {a : Nat} (h : ¬ (r.start ≤ a ∧ a < r.stop)) :
    (m.erase r).read a = m.read a := by
  induction m with
  | nil => rfl
  | cons c m ih =>
    obtain ⟨k, v⟩ := c
    simp only [Memory.erase, List.filter_cons] at ih ⊢
    split
    · simp only [Memory.read]; split
      · rfl
      · exact ih
    · rename_i hx
      simp only [Bool.not_eq_true', Bool.and_eq_false_iff, decide_eq_false_iff_not, not_or, not_not] at hx
      rw [ih, Memory.read, if_neg (by rintro rfl; exact h hx)]

/-- What a record inside the two regions keeps of the flash: every byte outside them, the canonical form, the address space. -/
theorem replay_keeps {s : State} {e : Event} (h : e.Inside s.params) :
    (∀ a, ¬ (s.params.appRegion.start ≤ a ∧ a < s.params.appRegion.stop) →
      ¬ (s.params.metaSector.start ≤ a ∧ a < s.params.metaSector.stop) → (replay s e).flash.read a = s.flash.read a) ∧
    (s.flash.wf = true → (replay s e).flash.wf = true) ∧
    (s.params.Ok → s.flash.inSpace → (replay s e).flash.inSpace) := by
  have wr : ∀ (x : Word) (bs : List Byte), bs.length = 8 → x.toNat % 8 = 0 →
      (Region.holds s.params.appRegion x.toNat 8 = true ∨ Region.holds s.params.metaSector x.toNat 8 = true) →
      (∀ a, ¬ (s.params.appRegion.start ≤ a ∧ a < s.params.appRegion.stop) →
        ¬ (s.params.metaSector.start ≤ a ∧ a < s.params.metaSector.stop) → (s.flash.writeBytes x.toNat bs).read a = s.flash.read a) ∧
      (s.flash.wf = true → (s.flash.writeBytes x.toNat bs).wf = true) ∧
      (s.params.Ok → s.flash.inSpace → (s.flash.writeBytes x.toNat bs).inSpace) := by
    intro x bs hl h8 hin
    refine ⟨fun a ha hb => Memory.read_writeBytes_other ?_, fun hw => Memory.wf_writeBytes hw _ _, fun _ hi => Memory.inSpace_writeBytes hi ?_⟩
    · simp only [Region.holds, Bool.and_eq_true, decide_eq_true_eq] at hin; omega
    · have := x.isLt; simp only [addressSpace]; omega
  have er : ∀ r : Region, r = s.params.appRegion ∨ r = s.params.metaSector →
      (∀ a, ¬ (s.params.appRegion.start ≤ a ∧ a < s.params.appRegion.stop) →
        ¬ (s.params.metaSector.start ≤ a ∧ a < s.params.metaSector.stop) →
        (s.flash.writeBytes r.start (freeBytes s.draws r.start (r.stop - r.start))).read a = s.flash.read a) ∧
      (s.flash.wf = true → (s.flash.writeBytes r.start (freeBytes s.draws r.start (r.stop - r.start))).wf = true) ∧
      (s.params.Ok → s.flash.inSpace → (s.flash.writeBytes r.start (freeBytes s.draws r.start (r.stop - r.start))).inSpace) := by
    intro r hr
    refine ⟨fun a ha hb => Memory.read_writeBytes_other ?_, fun hw => Memory.wf_writeBytes hw _ _, fun ho hi => Memory.inSpace_writeBytes hi ?_⟩
    · rw [freeBytes_length]; rcases hr with rfl | rfl <;> omega
    · rw [freeBytes_length]
      obtain ⟨-, -, -, h1, -, -, -, -, h2, -⟩ := ho
      rcases hr with rfl | rfl <;> simp only [Params.appRegion, Params.metaSector] <;> omega
  unfold replay
  split
  · rcases h with ⟨h, -⟩ | ⟨h8, h⟩
    · cases h
    · simpa using wr _ _ (by simp) h8 h
  · split
    · exact ⟨fun _ _ _ => rfl, id, fun _ => id⟩
    · rcases h with ⟨-, h⟩ | ⟨h8, h⟩
      · exact absurd h ‹_›
      · simpa using wr _ (freeBytes s.draws _ 8) (freeBytes_length ..) h8 h
  · rcases h with ⟨h, -⟩ | ⟨h8, h⟩
    · cases h
    · simpa using wr _ (freeBytes s.draws _ 8) (freeBytes_length ..) h8 h
  · rename_i r
    have hr : r = s.params.appRegion ∨ r = s.params.metaSector := h
    refine ⟨fun a ha hb => ?_, fun hw => ?_, fun _ hi => ?_⟩
    · simp only [log_flash, setFlash_flash]
      exact Memory.read_erase_other _ (by rcases hr with rfl | rfl <;> assumption)
    · exact Memory.wf_erase hw _
    · exact Memory.inSpace_erase hi _
  · simpa using er _ h
  · simpa using er _ h
  all_goals simp

/-- What a list of such records keeps. -/
theorem replays_keeps {l : List Event} {s : State} (h : ∀ e ∈ l, e.Inside s.params) :
    (l.foldl replay s).params = s.params ∧ (l.foldl replay s).cmds = s.cmds ∧ (l.foldl replay s).wire = s.wire ∧
    (l.foldl replay s).trace = s.trace ++ l ∧
    (∀ a, ¬ (s.params.appRegion.start ≤ a ∧ a < s.params.appRegion.stop) →
      ¬ (s.params.metaSector.start ≤ a ∧ a < s.params.metaSector.stop) → (l.foldl replay s).flash.read a = s.flash.read a) ∧
    (s.flash.wf = true → (l.foldl replay s).flash.wf = true) ∧
    (s.params.Ok → s.flash.inSpace → (l.foldl replay s).flash.inSpace) := by
  induction l generalizing s with
  | nil => simp
  | cons e l ih =>
    obtain ⟨f1, f2, f3, f4⟩ := replay_frame s e
    obtain ⟨g1, g2, g3⟩ := replay_keeps (h e (List.mem_cons_self ..))
    obtain ⟨k1, k2, k3, k4, k5, k6, k7⟩ := ih (s := replay s e) (by rw [f1]; exact fun x hx => h x (List.mem_cons_of_mem _ hx))
    simp only [List.foldl_cons]
    refine ⟨k1.trans f1, k2.trans f2, k3.trans f3, by rw [k4, f4]; simp, fun a ha hb => ?_, k6 ∘ g2, fun ho hi => ?_⟩
    · rw [k5 a (by rw [f1]; exact ha) (by rw [f1]; exact hb)]; exact g1 a ha hb
    · exact k7 (by rw [f1]; exact ho) (g3 ho hi)

/-- An action leads from `s` to `t` and its records say so: they extend the trace, every flash transaction among them lies in a declared
region, and where power was not lost replaying them gives the flash and the draws of `t`. -/
abbrev Records (s t : State) : Prop :=
  ∃ l, t.trace = s.trace ++ l ∧ (∀ e ∈ l, e.Inside s.params) ∧
    (.powerLoss ∉ l → (l.foldl replay s).flash = t.flash ∧ (l.foldl replay s).draws = t.draws)

theorem Records.trans {s t u : State} (hp : t.params = s.params) (h : Records s t) (k : Records t u) : Records s u := by
  obtain ⟨l, h1, h2, h3⟩ := h
  obtain ⟨m, k1, k2, k3⟩ := k
  refine ⟨l ++ m, by rw [k1, h1, List.append_assoc], ?_, fun hn => ?_⟩
  · intro e he
    rcases List.mem_append.1 he with he | he
    · exact h2 e he
    · rw [← hp]; exact k2 e he
  · rw [List.mem_append, not_or] at hn
    rw [List.foldl_append]
    have := replays_congr m (h3 hn.1)
    exact ⟨this.1.trans (k3 hn.2).1, this.2.trans (k3 hn.2).2⟩

/-- An action whose records touch no flash. -/
theorem Records.quiet {s t : State} (h : ∃ l, t.trace = s.trace ++ l ∧ l.all Event.quiet = true) (hf : t.flash = s.flash)
    (hd : t.draws = s.draws) : Records s t := by
  obtain ⟨l, h1, h2⟩ := h
  obtain ⟨k1, k2⟩ := replays_quiet h2 s
  exact ⟨l, h1, fun e he => inside_of_quiet (List.all_eq_true.1 h2 e he) _, fun _ => ⟨k1.trans hf.symm, k2.trans hd.symm⟩⟩

/-- Loss of power inside an action whose records are `l` (R163): the first `k` of them stand in the trace, and behind them the loss; the
flash is what they made of it, or what the whole action did. -/
theorem cutShort_eq {s t : State} {l : List Event} (h : t.trace = s.trace ++ l) (k : Nat) :
    cutShort k s t = if k < l.length then powerLoss ((l.take k).foldl replay { s with cmds := t.cmds }) else powerLoss t := by
  have hl : t.trace.drop s.trace.length = l := by simp [h]
  unfold cutShort; rw [hl]

/-- What a loss of power inside an action keeps: what the action keeps. -/
theorem cutShort_keeps {s t : State} (hr : Records s t) (hp : t.params = s.params) (hw : t.wire = s.wire) (k : Nat)
    (ho : ∀ a, ¬ (s.params.appRegion.start ≤ a ∧ a < s.params.appRegion.stop) →
      ¬ (s.params.metaSector.start ≤ a ∧ a < s.params.metaSector.stop) → t.flash.read a = s.flash.read a)
    (hf : s.flash.wf = true → t.flash.wf = true) (hi : s.params.Ok → s.flash.inSpace → t.flash.inSpace) :
    (cutShort k s t).params = s.params ∧ (cutShort k s t).cmds = t.cmds ∧ (cutShort k s t).wire = s.wire ∧
    (∃ m, (cutShort k s t).trace = s.trace ++ m ++ [.powerLoss]) ∧
    (∀ a, ¬ (s.params.appRegion.start ≤ a ∧ a < s.params.appRegion.stop) →
      ¬ (s.params.metaSector.start ≤ a ∧ a < s.params.metaSector.stop) → (cutShort k s t).flash.read a = s.flash.read a) ∧
    (s.flash.wf = true → (cutShort k s t).flash.wf = true) ∧
    (s.params.Ok → s.flash.inSpace → (cutShort k s t).flash.inSpace) := by
  obtain ⟨l, h1, h2, -⟩ := hr
  rw [cutShort_eq h1]
  split
  · obtain ⟨k1, k2, k3, k4, k5, k6, k7⟩ := replays_keeps (s := { s with cmds := t.cmds }) (l := l.take k)
      fun e he => h2 e (List.mem_of_mem_take he)
    exact ⟨k1, k2, k3, ⟨l.take k, by simp [powerLoss, k4]⟩, k5, k6, k7⟩
  · exact ⟨hp, rfl, hw, ⟨l, by simp [powerLoss, h1]⟩, ho, hf, hi⟩

/-- Nothing happens inside an action for which the environment has nothing in store. -/
theorem finishStep_quiet {s t : State} (hs : s.wire = []) (ht : t.wire = []) : finishStep s t = t := by
  unfold finishStep interrupt deliver
  rw [hs, ht]

end Sys2Proof.Machine
end

