-- ==== Sys2Proof/Laws/Frame.lean ====
section
/-! SUPPORT. What every operation keeps, and the two ways it can end for the host: with the host's state as it was, or with a loss of
power. One lemma per shared operation says everything it can do where it answers. -/

namespace Sys2Proof.Machine

/-- What no operation changes: the constants (R17), the inputs still to come, the trace so far, which grows by what the operation did
to the flash (R43), every flash byte outside the two
regions (R31, R32), the canonical form of the flash and its address space. -/
structure Keeps (s t : State) : Prop where
  params : t.params = s.params
  cmds : t.cmds = s.cmds
  wire : t.wire = s.wire
  records : Records s t
  outside : ∀ a, ¬ (s.params.appRegion.start ≤ a ∧ a < s.params.appRegion.stop) →
    ¬ (s.params.metaSector.start ≤ a ∧ a < s.params.metaSector.stop) → t.flash.read a = s.flash.read a
  wf : s.flash.wf = true → t.flash.wf = true
  inSpace : s.params.Ok → s.flash.inSpace → t.flash.inSpace

theorem Keeps.trace {s t : State} (h : Keeps s t) : ∃ l, t.trace = s.trace ++ l :=
  h.records.elim fun l hl => ⟨l, hl.1⟩

theorem Keeps.refl (s : State) : Keeps s s := ⟨rfl, rfl, rfl, Records.quiet ⟨[], by simp⟩ rfl rfl, fun _ _ _ => rfl, id, fun _ h => h⟩

theorem Keeps.trans {s t u : State} (h : Keeps s t) (k : Keeps t u) : Keeps s u where
  params := k.params.trans h.params
  cmds := k.cmds.trans h.cmds
  wire := k.wire.trans h.wire
  records := h.records.trans h.params k.records
  outside := fun a ha hb => (k.outside a (by rw [h.params]; exact ha) (by rw [h.params]; exact hb)).trans (h.outside a ha hb)
  wf := k.wf ∘ h.wf
  inSpace := fun ho hi => k.inSpace (by rw [h.params]; exact ho) (h.inSpace ho hi)

/-- An operation that leaves flash, constants and inputs alone keeps everything. -/
theorem Keeps.of_records {s t : State} (hp : t.params = s.params) (hc : t.cmds = s.cmds) (hw : t.wire = s.wire)
    (ht : Records s t) (hf : t.flash = s.flash) : Keeps s t :=
  ⟨hp, hc, hw, ht, fun a _ _ => by rw [hf], fun h => by rw [hf]; exact h, fun _ h => by rw [hf]; exact h⟩

/-- So does one that makes no flash transaction and takes no draw. -/
theorem Keeps.of_flash {s t : State} (hp : t.params = s.params) (hc : t.cmds = s.cmds) (hw : t.wire = s.wire)
    (ht : ∃ l, t.trace = s.trace ++ l ∧ l.all Event.quiet = true) (hf : t.flash = s.flash) (hd : t.draws = s.draws) : Keeps s t :=
  ⟨hp, hc, hw, Records.quiet ht hf hd, fun a _ _ => by rw [hf], fun h => by rw [hf]; exact h, fun _ h => by rw [hf]; exact h⟩

/-- The records an operation has put on the ports, or the calls it has made. -/
abbrev State.news (s t : State) : List Event := t.trace.drop s.trace.length

theorem news_mono {s t u : State} {e : Event} (h : ∃ l, t.trace = s.trace ++ l) (k : ∃ l, u.trace = t.trace ++ l)
    (he : e ∈ s.news t ∨ e ∈ t.news u) : e ∈ s.news u := by
  obtain ⟨l, hl⟩ := h
  obtain ⟨m, hm⟩ := k
  have h1 : s.news t = l := by simp [State.news, hl]
  have h2 : t.news u = m := by simp [State.news, hm]
  have h3 : s.news u = l ++ m := by simp [State.news, hm, hl]
  rw [h1, h2] at he
  rw [h3, List.mem_append]
  exact he

/-- Power was lost: the machine is as after a hardware reset (R160, R163). -/
structure Lost (s t : State) : Prop where
  news : .powerLoss ∈ s.news t
  pending : t.pending = 0
  count : t.count = 0#32
  aborted : t.aborted = false
  rsp : t.rsp = none
  dispatcher : t.dispatcher = .idle
  boot : t.boot = .commandWindow
  ticks : t.ticks = Config.windowTicks
  commandSeen : t.commandSeen = false
  frame : t.frame = none
  interrupts : t.interrupts = true
  transport : t.transport = true
  app : t.app = none

theorem powerLoss_lost (s t : State) (h : ∃ l, t.trace = s.trace ++ l) : Lost s (powerLoss t) := by
  obtain ⟨l, hl⟩ := h
  refine ⟨?_, rfl, rfl, rfl, rfl, rfl, rfl, rfl, rfl, rfl, rfl, rfl, rfl⟩
  simp [State.news, powerLoss, hl]

theorem Lost.after {s t u : State} (h : ∃ l, t.trace = s.trace ++ l) (k : Lost t u) (hu : ∃ l, u.trace = t.trace ++ l) :
    Lost s u :=
  ⟨news_mono h hu (.inr k.news), k.pending, k.count, k.aborted, k.rsp, k.dispatcher, k.boot, k.ticks, k.commandSeen, k.frame,
    k.interrupts, k.transport, k.app⟩

/-- A loss of power where a draw answers it keeps everything (R160). -/
theorem powerLoss_keeps (s : State) : Keeps s (powerLoss s.draw.2) :=
  Keeps.of_records (by simp) (by simp [powerLoss]) (by simp [powerLoss])
    ⟨[.powerLoss], by simp [powerLoss], by simp [Event.Inside], by simp⟩ (by simp)

/-- Abort entry keeps everything but the block's registers (R148). -/
theorem abortEntry_keeps (s : State) : Keeps s (abortEntry s) :=
  Keeps.of_records rfl rfl rfl ⟨_, rfl, by simp [Event.Inside], fun _ => ⟨rfl, rfl⟩⟩ rfl

/-- No program changes a byte outside its region (R31, R78). -/
theorem flashProgram_inside {r : Region} {addr : Word} {d : DWord} {s : State} {p : PortResult × State}
    (h : flashProgram r addr d s = .next p) {a : Nat} (ha : ¬ (r.start ≤ a ∧ a < r.stop)) :
    p.2.flash.read a = s.flash.read a := by
  by_cases hh : addr.toNat ≤ a ∧ a < addr.toNat + 8
  · have hh' : ¬ Region.holds r addr.toNat 8 = true := by
      simp only [Region.holds, Bool.and_eq_true, decide_eq_true_eq]; omega
    rcases flashProgram_cases h with ⟨rfl, -⟩ | ⟨rfl, -, -, hx, -⟩ | ⟨rfl, -, -, hx⟩ | ⟨rfl, -⟩ | ⟨rfl, -, -, hx⟩
    · rfl
    · exact absurd hx hh'
    · exact absurd hx hh'
    · simp
    · exact absurd hx hh'
  · exact (flashProgram_keeps h).2.1 a hh

/-- `FlashProgram` in one of the two declared regions (R101, R163). -/
theorem flashProgram_spec {r : Region} {addr : Word} {d : DWord} {s : State} {p : PortResult × State}
    (h : flashProgram r addr d s = .next p) (hr : r = s.params.appRegion ∨ r = s.params.metaSector) :
    Keeps s p.2 ∧
    ((p.1 = .lost ∧ Lost s p.2) ∨
     (p.1 ≠ .lost ∧ HostSame s p.2 ∧ WriterSame s p.2 ∧ p.2.rsp = s.rsp ∧ p.2.trace = s.trace ++ [.prog addr d p.1])) := by
  have hk := flashProgram_keeps h
  have hout : ∀ a, ¬ (s.params.appRegion.start ≤ a ∧ a < s.params.appRegion.stop) →
      ¬ (s.params.metaSector.start ≤ a ∧ a < s.params.metaSector.stop) → p.2.flash.read a = s.flash.read a := by
    intro a ha hb
    rcases hr with rfl | rfl
    · exact flashProgram_inside h ha
    · exact flashProgram_inside h hb
  have hin : addr.toNat % 8 = 0 → Region.holds r addr.toNat 8 = true → ∀ x, (Event.prog addr d x).Inside s.params := by
    intro h8 hh x; rcases hr with rfl | rfl
    · exact .inr ⟨h8, .inl hh⟩
    · exact .inr ⟨h8, .inr hh⟩
  have hb : ∀ t : State, t = p.2 → Records s t → t.cmds = s.cmds → t.wire = s.wire → Keeps s p.2 := by
    rintro t rfl ht hc hw
    exact ⟨hk.1, hc, hw, ht, hout, hk.2.2.1, fun _ hi => hk.2.2.2 hi⟩
  rcases flashProgram_cases h with ⟨rfl, hmis⟩ | ⟨rfl, -, h8, hh, -⟩ | ⟨rfl, -, h8, hh⟩ | ⟨rfl, -⟩ | ⟨rfl, -, h8, hh⟩
  · exact ⟨hb _ rfl (by
      refine ⟨[.prog addr d .err], rfl, ?_, fun _ => ?_⟩
      · intro e he; rw [List.mem_singleton.1 he]; exact .inl ⟨rfl, hmis⟩
      · simp [replay, hmis]) rfl rfl, .inr ⟨by simp, by simp [HostSame], by simp [WriterSame], rfl, rfl⟩⟩
  · exact ⟨hb _ rfl ⟨[.prog addr d .ok], by simp, by simpa using hin h8 hh .ok, fun _ => by simp [replay]⟩ (by simp) (by simp),
      .inr ⟨by simp, by simp [HostSame], by simp [WriterSame], by simp, by simp⟩⟩
  · exact ⟨hb _ rfl ⟨[.prog addr d .err], by simp, by simpa using hin h8 hh .err, fun _ => by simp [replay, h8]⟩ (by simp) (by simp), .inr ⟨by simp, by simp [HostSame], by simp [WriterSame], by simp, by simp⟩⟩
  · exact ⟨hb _ rfl ⟨[.powerLoss], by simp [powerLoss], by simp [Event.Inside], by simp⟩ (by simp [powerLoss]) (by simp [powerLoss]),
      .inl ⟨rfl, powerLoss_lost _ _ ⟨[], by simp⟩⟩⟩
  · exact ⟨hb _ rfl ⟨[.prog addr d .lost, .powerLoss], by simp [powerLoss], by simpa [Event.Inside] using hin h8 hh .lost, by simp⟩ (by simp [powerLoss]) (by simp [powerLoss]),
      .inl ⟨rfl, powerLoss_lost _ _ ⟨_, by simp; rfl⟩⟩⟩

/-- `FlashErase` of one of the two declared regions (R104, R163). -/
theorem flashErase_spec {r : Region} {s : State} {p : PortResult × State} (h : flashErase r s = .next p)
    (hr : r = s.params.appRegion ∨ r = s.params.metaSector) :
    Keeps s p.2 ∧
    ((p.1 = .lost ∧ Lost s p.2) ∨ (p.1 ≠ .lost ∧ HostSame s p.2 ∧ WriterSame s p.2 ∧ p.2.rsp = s.rsp)) := by
  have hlen : ∀ a, ¬ (r.start ≤ a ∧ a < r.stop) → ¬ (r.start ≤ a ∧ a < r.start + (freeBytes s.draws r.start (r.stop - r.start)).length) := by
    intro a ha; rw [freeBytes_length]; omega
  have hreg : ∀ a, ¬ (s.params.appRegion.start ≤ a ∧ a < s.params.appRegion.stop) →
      ¬ (s.params.metaSector.start ≤ a ∧ a < s.params.metaSector.stop) → ¬ (r.start ≤ a ∧ a < r.stop) := by
    intro a ha hb; rcases hr with rfl | rfl
    · exact ha
    · exact hb
  have hin : ∀ x, (Event.erase r x).Inside s.params := fun _ => hr
  have hfit : s.params.Ok → r.start + (freeBytes s.draws r.start (r.stop - r.start)).length ≤ addressSpace := by
    intro ho
    rw [freeBytes_length]
    obtain ⟨-, -, -, h1, -, -, -, -, h2, -⟩ := ho
    rcases hr with rfl | rfl <;> simp only [Params.appRegion, Params.metaSector] <;> omega
  rcases flashErase_cases h with ⟨rfl, -⟩ | ⟨rfl, -⟩ | ⟨rfl, -⟩ | ⟨rfl, -⟩
  · refine ⟨⟨by simp, by simp, by simp, ⟨[.erase r .ok], by simp, by simpa using hin .ok, fun _ => by simp [replay]⟩,
      fun a ha hb => ?_, fun hw => ?_, fun _ hi => ?_⟩, .inr ⟨by simp, by simp [HostSame], by simp [WriterSame], by simp⟩⟩
    · simp only [log_flash, setFlash_flash]; exact Memory.read_erase_other _ (hreg a ha hb)
    · exact Memory.wf_erase hw _
    · exact Memory.inSpace_erase hi _
  · refine ⟨⟨by simp, by simp, by simp, ⟨[.erase r .err], by simp, by simpa using hin .err, fun _ => by simp [replay]⟩,
      fun a ha hb => ?_, fun hw => ?_, fun ho hi => ?_⟩,
      .inr ⟨by simp, by simp [HostSame], by simp [WriterSame], by simp⟩⟩
    · simp only [log_flash, scramble_flash, draw_flash]; exact Memory.read_writeBytes_other (hlen a (hreg a ha hb))
    · simp only [log_flash, scramble_flash, draw_flash]; exact Memory.wf_writeBytes hw _ _
    · simp only [log_flash, scramble_flash, draw_flash]; exact Memory.inSpace_writeBytes hi (hfit ho)
  · exact ⟨⟨by simp, by simp [powerLoss], by simp [powerLoss], ⟨[.powerLoss], by simp [powerLoss], by simp [Event.Inside], by simp⟩, fun a _ _ => by simp, fun hw => by simpa using hw,
      fun _ hi => by simpa using hi⟩, .inl ⟨rfl, powerLoss_lost _ _ ⟨[], by simp⟩⟩⟩
  · refine ⟨⟨by simp, by simp [powerLoss], by simp [powerLoss],
      ⟨[.erase r .lost, .powerLoss], by simp [powerLoss], by simpa [Event.Inside] using hin .lost, by simp⟩, fun a ha hb => ?_, fun hw => ?_, fun ho hi => ?_⟩,
      .inl ⟨rfl, powerLoss_lost _ _ ⟨_, by simp; rfl⟩⟩⟩
    · simp only [powerLoss_flash, log_flash, scramble_flash, draw_flash]
      exact Memory.read_writeBytes_other (hlen a (hreg a ha hb))
    · simp only [powerLoss_flash, log_flash, scramble_flash, draw_flash]; exact Memory.wf_writeBytes hw _ _
    · simp only [powerLoss_flash, log_flash, scramble_flash, draw_flash]; exact Memory.inSpace_writeBytes hi (hfit ho)

/-- One program of unit AW (R77, R80, R163). -/
theorem awProgram_spec {d : DWord} {n : Nat} {s : State} {p : PortResult × State} (h : awProgram d n s = .next p) :
    Keeps s p.2 ∧
    ((p.1 = .lost ∧ Lost s p.2) ∨
     (p.1 = .err ∧ HostSame s p.2 ∧ p.2.base = s.base ∧ p.2.count = s.count ∧ p.2.aborted = true ∧
       p.2.rsp = some (.aw .flashProgramError s.count) ∧ .prog s.writePointer d .err ∈ s.news p.2) ∨
     (p.1 = .ok ∧ HostSame s p.2 ∧ p.2.base = s.base ∧ p.2.count = s.count + BitVec.ofNat 32 n ∧
       s.count.toNat + n < counterSpace ∧ p.2.buf = s.buf ∧ p.2.pending = s.pending ∧ p.2.aborted = s.aborted ∧ p.2.rsp = s.rsp)) := by
  rcases awProgram_cases h with ⟨rfl, -⟩ | ⟨-, q, hq, hk⟩
  · exact ⟨powerLoss_keeps s, .inl ⟨rfl, powerLoss_lost _ _ ⟨[], by simp⟩⟩⟩
  obtain ⟨hkeep, hend⟩ := flashProgram_spec hq (.inl rfl)
  rcases hk with ⟨h1, hc, rfl⟩ | ⟨h1, rfl⟩ | ⟨h1, rfl⟩
  · rcases hend with ⟨h2, -⟩ | ⟨-, hh, hw, hr, -⟩
    · rw [h1] at h2; cases h2
    · refine ⟨hkeep.trans (Keeps.of_flash rfl rfl rfl ⟨[], by simp⟩ rfl rfl), .inr (.inr ⟨rfl, hh, hw.2.2.2.1, ?_, ?_, hw.1, hw.2.1, hw.2.2.2.2, hr⟩)⟩
      · simp only [State.advance, hw.2.2.1]
      · rw [hw.2.2.1] at hc; exact hc
  · rcases hend with ⟨h2, -⟩ | ⟨-, hh, hw, hr, ht⟩
    · rw [h1] at h2; cases h2
    · refine ⟨hkeep.trans (abortEntry_keeps _),
        .inr (.inl ⟨rfl, hh, hw.2.2.2.1, hw.2.2.1, rfl, ?_, ?_⟩)⟩
      · simp [abortEntry, State.respondAW, hw.2.2.1]
      · simp [State.news, abortEntry, State.respondAW, ht, h1]
  · rcases hend with ⟨-, hl⟩ | ⟨h2, -⟩
    · exact ⟨hkeep, .inl ⟨rfl, hl⟩⟩
    · exact absurd h1 h2

/-- A run of programs of unit AW (R75, R80, R163). -/
theorem awProgramAll_spec {ds : List DWord} {s : State} {p : PortResult × State} (h : awProgramAll ds s = .next p) :
    Keeps s p.2 ∧
    ((p.1 = .lost ∧ Lost s p.2) ∨
     (p.1 = .err ∧ HostSame s p.2 ∧ p.2.base = s.base ∧ p.2.aborted = true ∧ p.2.count.toNat % 8 = s.count.toNat % 8 ∧
       p.2.rsp = some (.aw .flashProgramError p.2.count) ∧ ∃ a d, .prog a d .err ∈ s.news p.2) ∨
     (p.1 = .ok ∧ HostSame s p.2 ∧ p.2.base = s.base ∧ p.2.count.toNat % 8 = s.count.toNat % 8 ∧
       p.2.buf = s.buf ∧ p.2.pending = s.pending ∧ p.2.aborted = s.aborted ∧ p.2.rsp = s.rsp)) := by
  induction ds generalizing s with
  | nil => cases h; exact ⟨Keeps.refl s, .inr (.inr (by simp [HostSame]))⟩
  | cons d ds ih =>
    obtain ⟨q, hq, hk⟩ := andThen_eq_next h
    obtain ⟨hkeep, hend⟩ := awProgram_spec hq
    obtain ⟨r, t⟩ := q
    rcases hend with ⟨rfl, hl⟩ | ⟨rfl, hh, hb, hc, ha, hr, hm⟩ | ⟨rfl, hh, hb, hc, hn, hbf, hp, ha, hr⟩
    · cases hk; exact ⟨hkeep, .inl ⟨rfl, hl⟩⟩
    · cases hk; exact ⟨hkeep, .inr (.inl ⟨rfl, hh, hb, ha, by rw [hc], by rw [hr, hc], _, _, hm⟩)⟩
    · obtain ⟨hkeep', hend'⟩ := ih hk
      have hmod : t.count.toNat % 8 = s.count.toNat % 8 := by
        simp only at hc
        rw [hc, BitVec.toNat_add, BitVec.toNat_ofNat]; simp only [counterSpace] at hn; omega
      have htr : ∀ {u : State}, HostSame t u → HostSame s u := by
        intro u hu; simp only [HostSame] at *; simp only [hu, hh, and_self]
      refine ⟨hkeep.trans hkeep', ?_⟩
      rcases hend' with ⟨h1, hl⟩ | ⟨h1, hh', hb', ha', hc', hr', a, e, hm⟩ | ⟨h1, hh', hb', hc', hbf', hp', ha', hr'⟩
      · exact .inl ⟨h1, hl.after hkeep.trace hkeep'.trace⟩
      · exact .inr (.inl ⟨h1, htr hh', hb'.trans hb, ha', hc'.trans hmod, hr', a, e, news_mono hkeep.trace hkeep'.trace (.inr hm)⟩)
      · exact .inr (.inr ⟨h1, htr hh', hb'.trans hb, hc'.trans hmod, hbf'.trans hbf, hp'.trans hp, ha'.trans ha, hr'.trans hr⟩)

/-- FEED: refused, or the empty chunk over a full accumulator (which no run reaches, R11), or the programs of its stream. -/
theorem execFeed_cases {s t : State} {base : Word} {chunk : List Byte} (h : execFeed base chunk s = .next t) :
    (s.aborted = true ∧ t = s.respondAW .aborted) ∨
    (s.aborted = false ∧ 7 < s.pending.val ∧ chunk = [] ∧ t = (s.latch base).respondAW .ok) ∨
    (s.aborted = false ∧ ∃ b x, awProgramAll (wordsOf (feedStream s chunk)) (s.latch base) = .next x ∧
      b.toList.take ((s.pending.val + chunk.length) % 8) = tailOf (feedStream s chunk) ∧
      ((x.1 = .ok ∧ t = afterFeed b s chunk x.2) ∨ (x.1 ≠ .ok ∧ t = x.2))) := by
  cases hab : s.aborted with
  | true => simp only [execFeed, hab, if_true] at h; cases h; exact .inl ⟨rfl, rfl⟩
  | false =>
    by_cases hp : s.pending.val ≤ 7 ∨ chunk ≠ []
    · obtain ⟨b, hb, he⟩ := execFeed_eq s base chunk hab hp
      rw [he] at h
      obtain ⟨x, hx, hk⟩ := andThen_eq_next h
      refine .inr (.inr ⟨rfl, b, x, hx, hb, ?_⟩)
      obtain ⟨r, u⟩ := x
      cases r <;> simp only [feedEnd, Host.Outcome.next.injEq] at hk <;> simp [hk]
    · have hc : chunk = [] := by by_contra hc; exact hp (.inr hc)
      have h7 : 7 < s.pending.val := by by_contra hx; exact hp (.inl (by omega))
      subst hc
      refine .inr (.inl ⟨rfl, h7, rfl, ?_⟩)
      have hz : ¬ s.pending.val = 0 := by omega
      simp only [execFeed, hab, prefill, latch_pending, andThen_next, bulkCarry, hz, Bool.false_eq_true, if_false, ne_eq,
        not_true_eq_false, and_false] at h
      cases h; rfl

/-- FEED (R72, R80, R163). -/
theorem execFeed_spec {s t : State} {base : Word} {chunk : List Byte} (h : execFeed base chunk s = .next t) :
    Keeps s t ∧
    (Lost s t ∨
     (HostSame s t ∧ t.count.toNat % 8 = s.count.toNat % 8 ∧ (∃ st, t.rsp = some (.aw st t.count)) ∧
       (s.aborted = false → t.base = base) ∧ (s.aborted = true → t.aborted = true) ∧
       (s.aborted = false → t.aborted = false → s.pending.val ≤ 7 → t.pending.val ≤ 7) ∧
       (s.aborted = false → t.aborted = true → ∃ a d, .prog a d .err ∈ s.news t))) := by
  rcases execFeed_cases h with ⟨ha, rfl⟩ | ⟨ha, h7, rfl, rfl⟩ | ⟨ha, b, x, hx, hb, hend⟩
  · exact ⟨Keeps.of_flash rfl rfl rfl ⟨_, rfl, rfl⟩ rfl rfl, .inr (by simp [HostSame, State.respondAW, ha])⟩
  · exact ⟨Keeps.of_flash rfl rfl rfl ⟨_, rfl, rfl⟩ rfl rfl, .inr (by simp [HostSame, State.respondAW, ha])⟩
  · have hk0 : Keeps s (s.latch base) := Keeps.of_flash rfl rfl rfl ⟨[], by simp⟩ rfl rfl
    obtain ⟨hkeep, hcase⟩ := awProgramAll_spec hx
    have hfin : (Fin.ofNat 9 ((s.pending.val + chunk.length) % 8)).val ≤ 7 := by simp [Fin.ofNat]; omega
    rcases hend with ⟨h1, rfl⟩ | ⟨h1, rfl⟩
    · rcases hcase with ⟨h2, -⟩ | ⟨h2, -⟩ | ⟨-, hh, hbs, hc, hbf, hp, hab, hr⟩
      · rw [h1] at h2; cases h2
      · rw [h1] at h2; cases h2
      · refine ⟨(hk0.trans hkeep).trans (Keeps.of_flash rfl rfl rfl ⟨_, rfl, rfl⟩ rfl rfl), .inr ⟨hh, hc, ⟨_, rfl⟩, fun _ => hbs, ?_, fun _ _ _ => hfin, ?_⟩⟩
        · intro hx; rw [ha] at hx; cases hx
        · intro _ hx
          have : x.2.aborted = true := hx
          rw [hab, latch_aborted, ha] at this; cases this
    · rcases hcase with ⟨-, hl⟩ | ⟨-, hh, hbs, hab, hc, hr, a, d, hm⟩ | ⟨h2, -⟩
      · exact ⟨hk0.trans hkeep, .inl (hl.after hk0.trace hkeep.trace)⟩
      · exact ⟨hk0.trans hkeep, .inr ⟨hh, hc, ⟨_, hr⟩, fun _ => hbs, fun _ => hab, fun _ hx => (by rw [hab] at hx; cases hx), fun _ _ => ⟨a, d, hm⟩⟩⟩
      · exact absurd h2 h1

/-- FINISH: refused, nothing pending, or one padded program (R77, R80). -/
theorem execFinish_cases {s t : State} (h : execFinish s = .next t) :
    (s.aborted = true ∧ t = s.respondAW .aborted) ∨
    (s.aborted = false ∧ s.pending.val = 0 ∧ t = s.respondAW .ok) ∨
    (s.aborted = false ∧ 0 < s.pending.val ∧ ∃ x, awProgram (padded s.buf s.pending.val) s.pending.val s = .next x ∧
      ((x.1 = .ok ∧ t = x.2.clearPending.respondAW .ok) ∨ (x.1 ≠ .ok ∧ t = x.2))) := by
  cases hab : s.aborted with
  | true => simp only [execFinish, hab, if_true] at h; cases h; exact .inl ⟨rfl, rfl⟩
  | false =>
    by_cases h0 : 0 < s.pending.val
    · simp only [execFinish, hab, h0, Bool.false_eq_true, if_false, if_true] at h
      obtain ⟨x, hx, hk⟩ := andThen_eq_next h
      refine .inr (.inr ⟨rfl, h0, x, hx, ?_⟩)
      obtain ⟨r, u⟩ := x
      cases r <;> simp only [Host.Outcome.next.injEq] at hk <;> simp [hk]
    · simp only [execFinish, hab, h0, Bool.false_eq_true, if_false] at h
      cases h; exact .inr (.inl ⟨rfl, by omega, rfl⟩)

/-- FINISH (R77, R80, R163). -/
theorem execFinish_spec {s t : State} (h : execFinish s = .next t) :
    Keeps s t ∧
    (Lost s t ∨
     (HostSame s t ∧ t.base = s.base ∧ (∃ st, t.rsp = some (.aw st t.count)) ∧ (s.aborted = true → t.aborted = true) ∧
       (s.aborted = false → t.aborted = false → t.pending.val = 0) ∧
       (s.aborted = false → t.aborted = true → ∃ a d, .prog a d .err ∈ s.news t))) := by
  rcases execFinish_cases h with ⟨ha, rfl⟩ | ⟨ha, h0, rfl⟩ | ⟨ha, h0, x, hx, hend⟩
  · exact ⟨Keeps.of_flash rfl rfl rfl ⟨_, rfl, rfl⟩ rfl rfl, .inr (by simp [HostSame, State.respondAW, ha])⟩
  · exact ⟨Keeps.of_flash rfl rfl rfl ⟨_, rfl, rfl⟩ rfl rfl, .inr (by simp [HostSame, State.respondAW, ha, h0])⟩
  · obtain ⟨hkeep, hcase⟩ := awProgram_spec hx
    rcases hend with ⟨h1, rfl⟩ | ⟨h1, rfl⟩
    · rcases hcase with ⟨h2, -⟩ | ⟨h2, -⟩ | ⟨-, hh, hbs, hc, -, hbf, hp, hab, hr⟩
      · rw [h1] at h2; cases h2
      · rw [h1] at h2; cases h2
      · refine ⟨hkeep.trans (Keeps.of_flash rfl rfl rfl ⟨_, rfl, rfl⟩ rfl rfl), .inr ⟨hh, hbs, ⟨_, rfl⟩, ?_, fun _ _ => rfl, ?_⟩⟩
        · intro hx; rw [ha] at hx; cases hx
        · intro _ hx
          have : x.2.aborted = true := hx
          rw [hab, ha] at this; cases this
    · rcases hcase with ⟨-, hl⟩ | ⟨-, hh, hbs, hc, hab, hr, hm⟩ | ⟨h2, -⟩
      · exact ⟨hkeep, .inl hl⟩
      · exact ⟨hkeep, .inr ⟨hh, hbs, ⟨_, by rw [hr, hc]⟩, fun _ => hab, fun _ hx => (by rw [hab] at hx; cases hx), fun _ _ => ⟨_, _, hm⟩⟩⟩
      · exact absurd h2 h1

end Sys2Proof.Machine
end

