-- ==== Sys2Proof/Laws/Metadata.lean ====
section
/-! SUPPORT. The programs of MetadataStore: a run of them that all answer `Ok`, and everything a field write can do. -/

namespace Sys2Proof.Machine

/-- The state after the double-words `ds` were programmed by the host from `a` on, each with the answer `Ok` (R122). -/
def sectorProgrammed (ds : List DWord) (a : Word) (s : State) : State :=
  { s with
    flash := s.flash.writeBytes a.toNat ((ds.map (·.toList)).flatten)
    answers := s.answers.drop ds.length
    draws := s.draws + ds.length
    trace := s.trace ++ progEvents a ds }

/-- Programs of the host that all answer `Ok` (R122). -/
theorem programSector_ok {ds : List DWord} {a : Word} {s : State}
    (hc : CanProgram s.flash s.params.metaSector a.toNat ds.length) (ha : AnswersOk ds.length s) :
    programSector ds a s = .next (.ok, sectorProgrammed ds a s) := by
  induction ds generalizing s a with
  | nil => simp [programSector, sectorProgrammed, Memory.writeBytes, progEvents]
  | cons d ds ih =>
    obtain ⟨rest, hrest⟩ : ∃ rest, s.answers = .ok :: rest := by
      cases hs : s.answers with
      | nil => simp [AnswersOk, hs] at ha
      | cons a rest => simp only [AnswersOk, hs, List.length_cons, List.take_succ_cons, List.replicate_succ,
          List.cons.injEq] at ha; exact ⟨rest, by rw [ha.1]⟩
    have ha' : rest.take ds.length = List.replicate ds.length .ok := by
      simp only [AnswersOk, hrest, List.length_cons, List.take_succ_cons, List.replicate_succ, List.cons.injEq] at ha
      exact ha.2
    simp only [List.length_cons] at hc
    obtain hc | ⟨hal, hr, hr', hsp, he⟩ := hc
    · omega
    · have hde : dwordErased s.flash a.toNat = true :=
        dwordErased_of_erased (by omega) fun k hk => he k (by omega)
      have hf := flashProgram_ok (r := s.params.metaSector) (addr := a) (d := d) (s := s) (rest := rest)
        hal hr (by omega) hde hrest
      have hnext : ds.length ≠ 0 → (a + 8#32).toNat = a.toNat + 8 := by
        intro hz
        rw [BitVec.toNat_add, BitVec.toNat_ofNat]
        simp only [addressSpace] at hsp
        omega
      simp only [programSector, hf, andThen_next]
      rw [ih]
      · simp only [sectorProgrammed, hrest, List.length_cons, List.drop_succ_cons, progEvents, List.map_cons, List.flatten_cons,
          Memory.writeBytes_append, Vector.length_toList, List.append_assoc, List.cons_append, List.nil_append]
        congr 3
        · by_cases hz : ds.length = 0
          · have : ds = [] := List.eq_nil_of_length_eq_zero hz
            subst this; simp [Memory.writeBytes]
          · rw [hnext hz]
        · omega
      · by_cases hz : ds.length = 0
        · exact .inl hz
        · refine .inr ?_
          rw [hnext hz]
          exact ⟨by omega, by show s.params.metaSector.start ≤ _; omega, by show _ ≤ s.params.metaSector.stop; omega, by omega,
            Erased.tail he (by simp)⟩
      · exact ha'

/-- Programs of the host, however they end (R122, R163). -/
theorem programSector_spec {ds : List DWord} {a : Word} {s : State} {p : PortResult × State}
    (h : programSector ds a s = .next p) :
    Keeps s p.2 ∧
    ((p.1 = .lost ∧ Lost s p.2) ∨ (p.1 ≠ .lost ∧ HostSame s p.2 ∧ WriterSame s p.2 ∧ p.2.rsp = s.rsp)) := by
  induction ds generalizing s a with
  | nil => cases h; exact ⟨Keeps.refl s, .inr (by simp [HostSame, WriterSame])⟩
  | cons d ds ih =>
    obtain ⟨q, hq, hk⟩ := andThen_eq_next h
    obtain ⟨hkeep, hend⟩ := flashProgram_spec hq (.inr rfl)
    obtain ⟨r, t⟩ := q
    cases r with
    | ok =>
      rcases hend with ⟨h1, -⟩ | ⟨-, hh, hw, hr, -⟩
      · cases h1
      · obtain ⟨hkeep', hend'⟩ := ih hk
        refine ⟨hkeep.trans hkeep', ?_⟩
        rcases hend' with ⟨h1, hl⟩ | ⟨h1, hh', hw', hr'⟩
        · exact .inl ⟨h1, hl.after hkeep.trace hkeep'.trace⟩
        · refine .inr ⟨h1, ?_, ?_, hr'.trans hr⟩
          · simp only [HostSame] at *; simp only [hh', hh, and_self]
          · simp only [WriterSame] at *; simp only [hw', hw, and_self]
    | err =>
      cases hk
      rcases hend with ⟨h1, -⟩ | ⟨-, hh, hw, hr, -⟩
      · cases h1
      · exact ⟨hkeep, .inr ⟨by simp, hh, hw, hr⟩⟩
    | lost =>
      cases hk
      rcases hend with ⟨-, hl⟩ | ⟨h1, -⟩
      · exact ⟨hkeep, .inl ⟨rfl, hl⟩⟩
      · exact absurd rfl h1

/-- A field write, however it ends (R122 to R124, R163). -/
theorem writeField_spec {off : Nat} {bs : List Byte} {s : State} {p : StoreResult × State}
    (h : writeField off bs s = .next p) :
    Keeps s p.2 ∧
    ((p.1 = .lost ∧ Lost s p.2) ∨ (p.1 ≠ .lost ∧ HostSame s p.2 ∧ WriterSame s p.2 ∧ p.2.rsp = s.rsp)) := by
  unfold writeField at h
  split at h
  · cases h; exact ⟨Keeps.refl s, .inr (by simp [HostSame, WriterSame])⟩
  · have hk0 : Keeps s (s.flashRead s.params.metaBase s.params.metaSectorSize) := Keeps.of_flash rfl rfl rfl ⟨_, rfl, rfl⟩ rfl rfl
    unfold rewriteSector at h
    obtain ⟨q, hq, hk⟩ := andThen_eq_next h
    obtain ⟨hkeep, hend⟩ := flashErase_spec hq (.inr rfl)
    obtain ⟨r, t⟩ := q
    have hcomb : ∀ {u : State}, HostSame t u ∧ WriterSame t u ∧ u.rsp = t.rsp → HostSame (s.flashRead s.params.metaBase s.params.metaSectorSize) t →
        WriterSame (s.flashRead s.params.metaBase s.params.metaSectorSize) t → t.rsp = (s.flashRead s.params.metaBase s.params.metaSectorSize).rsp →
        HostSame s u ∧ WriterSame s u ∧ u.rsp = s.rsp := by
      intro u hu h1 h2 h3
      simp only [HostSame, WriterSame] at *
      simp only [hu, h1, h2, h3, State.flashRead, log_params, log_dispatcher, log_boot, log_ticks, log_commandSeen, log_frame,
        log_interrupts, log_transport, log_app, log_cmds, log_wire, log_buf, log_pending, log_count, log_base, log_aborted,
        log_rsp, and_self]
    cases r with
    | ok =>
      rcases hend with ⟨h1, -⟩ | ⟨-, hh, hw, hr⟩
      · cases h1
      · obtain ⟨q', hq', hk⟩ := andThen_eq_next hk
        obtain ⟨hkeep', hend'⟩ := programSector_spec hq'
        obtain ⟨r', u⟩ := q'
        have hkk := (hk0.trans hkeep).trans hkeep'
        rcases hend' with ⟨h1, hl⟩ | ⟨h1, hu⟩
        · simp only at h1; subst h1; cases hk
          exact ⟨hkk, .inl ⟨rfl, hl.after (hk0.trans hkeep).trace hkeep'.trace⟩⟩
        · have := hcomb hu hh hw hr
          cases r' with
          | ok => cases hk; exact ⟨hkk, .inr ⟨by simp, this⟩⟩
          | err => cases hk; exact ⟨hkk, .inr ⟨by simp, this⟩⟩
          | lost => exact absurd rfl h1
    | err =>
      cases hk
      rcases hend with ⟨h1, -⟩ | ⟨-, hh, hw, hr⟩
      · cases h1
      · exact ⟨hk0.trans hkeep, .inr ⟨by simp, hcomb ⟨by simp [HostSame], by simp [WriterSame], rfl⟩ hh hw hr⟩⟩
    | lost =>
      cases hk
      rcases hend with ⟨-, hl⟩ | ⟨h1, -⟩
      · exact ⟨hk0.trans hkeep, .inl ⟨rfl, hl.after hk0.trace hkeep.trace⟩⟩
      · exact absurd rfl h1

end Sys2Proof.Machine
end

