-- ==== Sys2Proof/Laws/PerInstr.lean ====
section
/-! SUPPORT. One statement per instruction, about its encoding: the packet of an instruction carries, in the bits that
spec/opcode_table.json masks, the value of its row's match column. -/

namespace Sys2Proof.Laws.TableRow

/-- The `match` column of spec/opcode_table.json. -/
def matchOf : Instr → Nat
  | .awBegin => 0
  | .awFeed _ _ => 1
  | .awFinish => 2
  | .ivVerify => 3
  | .hostConnect => 0xFEA501
  | .hostEraseApp => 0xFEA502
  | .hostProgramApp => 0xFEA504
  | .hostWriteChecksum => 0xFEA505
  | .hostRestart => 0xFEA5F2
  | .hostJumpToApp => 0xFEA5F3
  | .hostVerifyAndJump => 0xFEA5F4
  | .hostUpdateApp => 0xFEA5F5
  | .hostEndOfStream _ => 0xFEA5F1

/-- The number of a byte string whose first byte is the most significant (R61, D34). -/
def beNat (bs : List Byte) : Nat := bs.foldl (fun n b => 256 * n + b.toNat) 0

/-- The bits of a packet that the table's `mask` column keeps: the two of `op` (R51), the first three bytes of a command Frame (R61),
the last three of a payload Frame that ends a stream (R63). -/
def maskedBits (ctx : Context) : Packet → Nat
  | .cmd c => c.op.toNat
  | .frame f => match ctx with
    | .command => beNat (f.take 3)
    | .stream => beNat (f.drop (f.length - 3))

/-- The encoding of the instruction agrees with its row of the table. -/
def Statement (i : Instr) : Prop := maskedBits (contextOf i) (encode i) = matchOf i

theorem awBegin : Statement .awBegin := rfl

theorem awFeed (base : Word) (chunk : List Byte) : Statement (.awFeed base chunk) := rfl

theorem awFinish : Statement .awFinish := rfl

theorem ivVerify : Statement .ivVerify := rfl

theorem hostConnect : Statement .hostConnect := rfl

theorem hostEraseApp : Statement .hostEraseApp := rfl

theorem hostProgramApp : Statement .hostProgramApp := rfl

theorem hostWriteChecksum : Statement .hostWriteChecksum := rfl

theorem hostRestart : Statement .hostRestart := rfl

theorem hostJumpToApp : Statement .hostJumpToApp := rfl

theorem hostVerifyAndJump : Statement .hostVerifyAndJump := rfl

theorem hostUpdateApp : Statement .hostUpdateApp := rfl

theorem hostEndOfStream (data : List Byte) : Statement (.hostEndOfStream data) := by
  have h : (data ++ endMarker).drop ((data ++ endMarker).length - 3) = endMarker := by
    rw [List.length_append, show endMarker.length = 3 from rfl, Nat.add_sub_cancel, List.drop_left]
  show beNat ((data ++ endMarker).drop ((data ++ endMarker).length - 3)) = _
  rw [h]
  rfl

end Sys2Proof.Laws.TableRow
end

