-- ==== Sys2Proof/Tests/Slice0.lean ====
section
/-! SUPPORT. Own tests: ill-formed terms that WellFormed refuses, decoding of words written out from the tables, one-step tests whose
expected values stand in 95_test_vectors.md, and for every statement with hypotheses a concrete state that meets them. -/

namespace Sys2Proof.Tests

open Sys2Proof.Machine

/-- `n` bytes `b, b+1, ...`. -/
def run (b n : Nat) : List Byte := (List.range n).map fun j => BitVec.ofNat 8 (b + j)

/-- A state of unit AW: valid bytes, count, `Ok` answers to come; the base of 95_test_vectors.md. -/
def aw (bs : List Byte) (count : Nat) (oks : Nat) : State :=
  { State.reset with
    buf := fillBuf State.reset.buf 0 bs, pending := Fin.ofNat 9 bs.length, count := BitVec.ofNat 32 count,
    base := 0x08008000#32, answers := List.replicate oks .ok }

/-- The state after an operation that answered a next state. -/
def after (o : Host.Outcome State Fault Refusal) : State :=
  match o with
  | .next t => t
  | .fault _ => State.reset
  | .refused _ => State.reset

/-- The operation answered a next state. -/
def runs (o : Host.Outcome State Fault Refusal) : Bool :=
  match o with
  | .next _ => true
  | .fault _ => false
  | .refused _ => false

/-! ### Well-formedness: each check refuses something -/

theorem test_wf_feed_too_long : WellFormed 4 (.awFeed 0#32 (run 0 5)) = false := by decide
theorem test_wf_feed_longest : WellFormed 4 (.awFeed 0#32 (run 0 4)) = true := by decide
theorem test_wf_end_too_long : WellFormed 4 (.hostEndOfStream (run 0 2)) = false := by decide
theorem test_wf_end_longest : WellFormed 4 (.hostEndOfStream (run 0 1)) = true := by decide

/-! ### Decoding: R51, R61, R62, R63 and S5 of 95_test_vectors.md -/

theorem test_decode_block :
    [0, 1, 2, 3].map (decodeTableWord 8) = [some .awBegin, some (.awFeed 0#32 []), some .awFinish, some .ivVerify] := by decide
theorem test_decode_feed :
    decodeCmd 256 ⟨1#2, 0x08008000#32, [0xA0#8, 0xA1#8]⟩ = .instr (.awFeed 0x08008000#32 [0xA0#8, 0xA1#8]) := by decide
theorem test_decode_feed_too_long : decodeCmd 1 ⟨1#2, 0x08008000#32, [0xA0#8, 0xA1#8]⟩ = .reject .oversize := by decide
theorem test_decode_commands :
    [0x01#8, 0x02#8, 0x04#8, 0x05#8, 0xF2#8, 0xF3#8, 0xF4#8, 0xF5#8].map (fun b => decodeCommand [0xFE#8, 0xA5#8, b]) =
      [.instr .hostConnect, .instr .hostEraseApp, .instr .hostProgramApp, .instr .hostWriteChecksum, .instr .hostRestart,
       .instr .hostJumpToApp, .instr .hostVerifyAndJump, .instr .hostUpdateApp] := by decide
theorem test_decode_table_commands :
    [0xFEA501, 0xFEA502, 0xFEA504, 0xFEA505, 0xFEA5F2, 0xFEA5F3, 0xFEA5F4, 0xFEA5F5, 0xFEA5F1].map (decodeTableWord 24) =
      [some .hostConnect, some .hostEraseApp, some .hostProgramApp, some .hostWriteChecksum, some .hostRestart,
       some .hostJumpToApp, some .hostVerifyAndJump, some .hostUpdateApp, some (.hostEndOfStream [])] := by decide
theorem test_decode_unknown :
    [0x03#8, 0xF1#8, 0x00#8, 0xFF#8].map (fun b => decodeCommand [0xFE#8, 0xA5#8, b]) =
      List.replicate 4 (.reject .unknownCommand) := by decide
theorem test_decode_dropped :
    decodeCommand [0x55#8, 0xAA#8, 0x01#8] = .reject .noMarker ∧ decodeCommand [0xFE#8, 0xA6#8, 0x01#8] = .reject .noMarker ∧
    decodeCommand [0xFE#8, 0xA5#8] = .reject .shortFrame ∧ decodeCommand [0xFE#8] = .reject .shortFrame ∧
    decodeCommand [] = .reject .shortFrame := by decide
theorem test_decode_payload :
    decodePayload 256 0x08008000#32 [0x4B#8, 0xFE#8, 0xA5#8, 0xF1#8] = .instr (.hostEndOfStream [0x4B#8]) ∧
    decodePayload 256 0x08008000#32 [0xFE#8, 0xA5#8, 0xF1#8, 0x4B#8] =
      .instr (.awFeed 0x08008000#32 [0xFE#8, 0xA5#8, 0xF1#8, 0x4B#8]) := by decide
theorem test_encode :
    encode .awFinish = .cmd ⟨2#2, 0#32, []⟩ ∧ encode .hostUpdateApp = .frame [0xFE#8, 0xA5#8, 0xF5#8] ∧
    encode (.hostEndOfStream [0x4B#8]) = .frame [0x4B#8, 0xFE#8, 0xA5#8, 0xF1#8] := by decide

/-! ### One step, expected values from 95_test_vectors.md -/

/-- V1. -/
theorem test_begin :
    let t := after (exec .awBegin { aw [1#8, 2#8, 3#8] 16 0 with aborted := true })
    (t.pending, t.count, t.aborted, t.rsp) = (0, 0#32, false, some (.aw .ok 0#32)) := by decide

/-- V5: pre-fill, bulk and carry. -/
theorem test_feed_three_phases :
    let t := after (exec (.awFeed 0x08008000#32 (run 6 20)) (aw (run 1 5) 0 3))
    t.pendingBytes = [0x19#8] ∧ t.count = 24#32 ∧ t.rsp = some (.aw .ok 24#32) ∧
    t.trace = [.prog 0x08008000#32 #v[1#8, 2#8, 3#8, 4#8, 5#8, 6#8, 7#8, 8#8] .ok,
      .prog 0x08008008#32 #v[9#8, 10#8, 11#8, 12#8, 13#8, 14#8, 15#8, 16#8] .ok,
      .prog 0x08008010#32 #v[17#8, 18#8, 19#8, 20#8, 21#8, 22#8, 23#8, 24#8] .ok, .rsp (.aw .ok 24#32)] := by decide

/-- V7: two short chunks in a row keep all five bytes. -/
theorem test_feed_short :
    let t := after (exec (.awFeed 0x08008000#32 [3#8, 4#8, 5#8]) (aw [1#8, 2#8] 0 0))
    t.pendingBytes = [1#8, 2#8, 3#8, 4#8, 5#8] ∧ t.count = 0#32 ∧ t.trace = [.rsp (.aw .ok 0#32)] := by decide

/-- V9. -/
theorem test_finish_pads :
    let t := after (exec .awFinish (aw (run 1 7) 0 1))
    (t.pending, t.count) = (0, 7#32) ∧
    t.trace = [.prog 0x08008000#32 #v[1#8, 2#8, 3#8, 4#8, 5#8, 6#8, 7#8, 0xFF#8] .ok, .rsp (.aw .ok 7#32)] := by decide

/-- V15: the failing FINISH keeps the count. -/
theorem test_finish_fails :
    let t := after (exec .awFinish { aw (run 9 4) 8 0 with answers := [.err] })
    t.count = 8#32 ∧ t.aborted = true ∧ t.rsp = some (.aw .flashProgramError 8#32) := by decide

/-- A flash that holds the bytes `bs` from `a` on. -/
def holding (a : Nat) (bs : List Byte) : Memory := Memory.writeBytes [] a bs

/-- The image and the metadata bytes of the W vectors of 95_test_vectors.md. -/
def verifying (image fields : List Byte) : State :=
  { State.reset with flash := (holding 0x08008000 image).writeBytes 0x0800F800 fields }

/-- W1 and W2, with the candidate checksum (log 12). -/
theorem test_verify_match :
    (verifyWith crcCandidate (verifying (run 0x10 16) [0x10#8, 0#8, 0#8, 0#8, 0xC5#8, 0x77#8, 0x2B#8, 0xE3#8])).rsp = some (.iv true) ∧
    (verifyWith crcCandidate (verifying (run 0x10 16) [0x10#8, 0#8, 0#8, 0#8, 0xC4#8, 0x77#8, 0x2B#8, 0xE3#8])).rsp = some (.iv false) := by
  decide +kernel

/-- W3: the length guard, without a CRC transaction. -/
theorem test_verify_erased :
    (after (exec .ivVerify State.reset)).trace =
      [.read 0x0800F800#32 [0xFF#8, 0xFF#8, 0xFF#8, 0xFF#8], .read 0x0800F804#32 [0xFF#8, 0xFF#8, 0xFF#8, 0xFF#8], .rsp (.iv false)] := by
  decide

/-- Values of the candidate (95_test_vectors.md section 4). -/
theorem test_crc_candidate :
    crcCandidate [] = 0xFFFFFFFF#32 ∧ crcCandidate [0#8, 0#8, 0#8, 0#8] = 0xC704DD7B#32 ∧
    crcCandidate [1#8, 2#8, 3#8, 4#8] = 0x1DABE74F#32 ∧ crcCandidate (run 1 8) = 0xA3141BDA#32 := by decide +kernel

/-- S3. -/
theorem test_connect :
    (after (exec .hostConnect State.reset)).trace = [.send [0xFE#8, 0xA5#8, 1#8, 3#8, 0xFF#8, 3#8, 0#8, 1#8]] := by decide

/-- R118: the first and the last byte of the region are erased, the byte before it stays. -/
theorem test_erase_app :
    let t := after (exec .hostEraseApp { State.reset with
      flash := [⟨0x08007FFF, 1#8⟩, ⟨0x08008000, 2#8⟩, ⟨0x08008FFF, 3#8⟩, ⟨0x08009000, 4#8⟩], answers := [.ok] })
    t.flash = [⟨0x08007FFF, 1#8⟩, ⟨0x08009000, 4#8⟩] := by decide

/-- P3: ProgramApp issues BEGIN. -/
theorem test_program_app :
    let t := after (exec .hostProgramApp { aw [1#8] 8 0 with aborted := true })
    t.trace = [.rsp (.aw .ok 0#32)] ∧ t.dispatcher = .awaitingMore .programApp ∧ t.aborted = false := by decide

/-- A small metadata sector, so that a field write is short. -/
def smallParams : Params := { Params.sample with metaMax := 16, metaSectorSize := 16, pageSize := 16 }

/-- S2: eight data bytes and the marker; one PROG, `appLength = 8`. -/
theorem test_end_of_stream :
    let t := after (exec (.hostEndOfStream (run 0xD0 8)) { aw [] 0 4 with
      params := smallParams, dispatcher := .awaitingMore .programApp })
    t.appLength = 8#32 ∧ t.dispatcher = .idle ∧ t.rsp = some (.aw .ok 8#32) ∧
    (t.trace.filter Event.isProg).head? = some (.prog 0x08008000#32 #v[0xD0#8, 0xD1#8, 0xD2#8, 0xD3#8, 0xD4#8, 0xD5#8, 0xD6#8, 0xD7#8] .ok) := by
  decide

/-- P3: WriteChecksum stores `33 FB CB 8D` and keeps the length. -/
theorem test_write_checksum :
    let t := after (storeChecksum [0x33#8, 0xFB#8, 0xCB#8, 0x8D#8, 0x99#8] { verifying [] [0x0B#8, 0#8, 0#8, 0#8] with
      params := smallParams, dispatcher := .awaitingMore .writeChecksum, answers := List.replicate 3 .ok })
    t.appChecksum = 0x8DCBFB33#32 ∧ t.appLength = 11#32 ∧ t.dispatcher = .idle := by decide

/-- R126, R160. -/
theorem test_restart :
    let t := after (exec .hostRestart { aw [1#8] 8 0 with aborted := true, commandSeen := true, boot := .stay, ticks := 3 })
    (t.pending, t.count, t.aborted, t.commandSeen, t.ticks) = (0, 0#32, false, false, 30) ∧ t.boot = .commandWindow ∧
    t.trace = [.systemReset] := by decide

/-- R130: an image whose first word is `0x20005000` and whose second is `0x080081AD`. -/
def bootable : State :=
  { State.reset with flash := holding 0x08008000 [0#8, 0x50#8, 0#8, 0x20#8, 0xAD#8, 0x81#8, 0#8, 8#8] }

theorem test_jump :
    let t := after (exec .hostJumpToApp bootable)
    t.app = some ⟨0x20005000#32, 0x080081AD#32⟩ ∧ t.interrupts = false ∧ t.transport = false := by decide

/-- P3's image does not pass the check: `0x44434241`. -/
theorem test_jump_refused :
    (after (exec .hostJumpToApp (verifying (run 0x41 8) []))).trace = [.report .noApplicationFound] := by decide

/-- P4: VerifyAndJump does nothing where the length is erased. -/
theorem test_verify_and_jump :
    (after (exec .hostVerifyAndJump bootable)).app = none := by decide

/-- R121: UpdateApp erases, then streams. -/
theorem test_update_app :
    let t := after (exec .hostUpdateApp { bootable with answers := [.ok] })
    t.flash = [] ∧ t.dispatcher = .awaitingMore .updateApp ∧ t.rsp = some (.aw .ok 0#32) := by decide

/-- V12. -/
theorem test_misaligned :
    let t := after (exec (.awFeed 0x08008004#32 (run 1 8)) (aw [] 0 0))
    t.rsp = some (.aw .flashProgramError 0#32) ∧ t.aborted = true ∧ t.flash = [] := by decide

/-- V20: the third program of 24 bytes is outside a region of 16. -/
theorem test_region_violation :
    exec (.awFeed 0x08008000#32 (run 1 24)) { aw [] 0 3 with params := { Params.sample with appMax := 16 } } =
      .fault .regionViolation := by rfl

/-- V20: the target is not erased. -/
theorem test_not_erased :
    exec (.awFeed 0x08008000#32 (run 1 8)) { aw [] 0 1 with flash := holding 0x08008000 (run 0xD0 8) } =
      .fault .programNotErased := by rfl

/-- A step takes the CMD record first, then the Frame in the slot. -/
theorem test_step_order :
    (after (step { State.reset with cmds := [⟨0#2, 0#32, []⟩], frame := some [0xFE#8, 0xA5#8, 1#8] })).trace = [.rsp (.aw .ok 0#32)] ∧
    (after (step { State.reset with frame := some [0xFE#8, 0xA5#8, 1#8] })).commandSeen = true := by decide

/-- R163: power lost between the two programs of a FEED: the first double-word is there, the second is not, and nothing is answered. -/
theorem test_power_lost_inside_feed :
    let t := after (step { aw [] 0 2 with cmds := [⟨1#2, 0x08008000#32, run 1 16⟩], wire := [⟨some 1, []⟩] })
    t.flash = holding 0x08008000 (run 1 8) ∧ t.count = 0#32 ∧ t.rsp = none ∧ t.answers = [.ok] ∧ t.trace.length = 2 := by decide

/-- R163: power lost inside a VERIFY, which then gives no response. -/
theorem test_power_lost_inside_verify :
    (after (step { State.reset with cmds := [⟨3#2, 0#32, []⟩], wire := [⟨some 1, []⟩] })).trace =
      [.read 0x0800F800#32 [0xFF#8, 0xFF#8, 0xFF#8, 0xFF#8], .powerLoss] := by decide

/-- R163: power lost in the step that launches the application: before the transfer, and right after it. -/
theorem test_power_lost_at_launch :
    let s : State := { bootable with frame := some [0xFE#8, 0xA5#8, 0xF3#8] }
    (after (step s)).app.isSome ∧
    (after (step { s with wire := [⟨some 0, []⟩] })).trace = [.powerLoss] ∧
    (after (step { s with wire := [⟨none, [.powerLoss]⟩] })).app = none ∧
    (after (step { s with wire := [⟨none, [.powerLoss]⟩] })).trace = [.disableInterrupts, .powerLoss] := by decide

/-- R163: power lost before a program that would be outside the region. -/
theorem test_power_lost_before_stop :
    (after (exec .awFinish { aw [1#8] 0x1000 0 with answers := [.lostBefore] })).trace = [.powerLoss] := by decide

/-! ### Witnesses: for each statement with hypotheses a state and operands that meet them, one per clause -/

theorem witness_CmdFormat : (run 0 4).length ≤ 4 ∧ ¬ (run 0 5).length ≤ 4 := by decide
theorem witness_DecodeOfEncode :
    WellFormed 4 (.awFeed 0#32 (run 0 4)) = true ∧ WellFormed 3 (.hostEndOfStream []) = true ∧ WellFormed 0 .hostConnect = true := by
  decide
theorem witness_DecodedIsWellFormed :
    decode 4 0#32 .command (.cmd ⟨1#2, 0#32, run 0 4⟩) = .instr (.awFeed 0#32 (run 0 4)) ∧
    decode 4 0#32 .stream (.frame [0x4B#8, 0xFE#8, 0xA5#8, 0xF1#8]) = .instr (.hostEndOfStream [0x4B#8]) := by decide
theorem witness_EndMarkerIsSuffix : stripMarker [0xFE#8, 0xA5#8, 0xF1#8] = some [] ∧ stripMarker [0xFE#8, 0xA5#8] = none ∧
    [0xFE#8, 0xA5#8, 0xF1#8].length ≤ 3 ∧ ∀ data, [0xFE#8, 0xA5#8] ≠ data ++ [0xFE#8, 0xA5#8, 0xF1#8] :=
  ⟨by decide, by decide, by decide, fun data h => by have := congrArg List.length h; simp at this⟩
theorem witness_CommandFrames : decodeCommand [0xFE#8, 0xA5#8, 0xF5#8, 0x99#8] = .instr .hostUpdateApp := by decide
theorem witness_StepKeepsInvariant : Inv State.reset ∧ ∃ t, step State.reset = .next t := ⟨by decide, _, rfl⟩
theorem witness_StepKeepsConstants : ∃ t, step (aw (run 1 5) 0 0) = .next t := ⟨_, rfl⟩

/-- The three clauses of StepRunsDecoded: a CMD record, a command Frame on the last tick, a payload Frame. -/
theorem witness_StepRunsDecoded :
    (State.reset.app = none ∧ decode 256 0x08008000#32 .command (.cmd ⟨3#2, 0#32, []⟩) = .instr .ivVerify) ∧
    (let s : State := { State.reset with ticks := 1, frame := some [0xFE#8, 0xA5#8, 1#8] }
     s.app = none ∧ s.cmds = [] ∧ s.dispatcher = .idle ∧ s.ticks ≠ 0 ∧
     decode s.params.maxChunk s.params.appBase .command (.frame [0xFE#8, 0xA5#8, 1#8]) = .instr .hostConnect) ∧
    (let s : State := { State.reset with dispatcher := .awaitingMore .updateApp, frame := some [] }
     s.app = none ∧ s.cmds = [] ∧ s.dispatcher = .awaitingMore .updateApp ∧ MultiFrame.updateApp ≠ .writeChecksum ∧
     decode s.params.maxChunk s.params.appBase .stream (.frame []) = .instr (.awFeed 0x08008000#32 [])) := by decide
theorem witness_FetchWordRuns :
    (decodeTableWord 8 3 = some .ivVerify ∧ contextOf .ivVerify ≠ .stream) ∧
    (decodeTableWord 24 0xFEA5F1 = some (.hostEndOfStream []) ∧ contextOf (.hostEndOfStream []) = .stream ∧
     24 / 8 ≤ { Params.sample with maxChunk := 3 }.maxChunk) := by decide
theorem witness_AbortedWriterRefuses : { aw [] 8 0 with aborted := true }.aborted = true := by decide

/-- V5; no program at all; and the last double-word of the region. -/
theorem witness_FeedProgramsStream :
    (let s := aw (run 1 5) 0 3
     s.flash.wf = true ∧ s.aborted = false ∧ s.pending.val ≤ 7 ∧
     CanProgram s.flash s.params.appRegion (0x08008000 + s.count.toNat) (feedPrograms s (run 6 20)) ∧
     s.count.toNat + 8 * feedPrograms s (run 6 20) < counterSpace ∧ AnswersOk (feedPrograms s (run 6 20)) s) ∧
    (let s := aw [] 0 0
     CanProgram s.flash s.params.appRegion 3 (feedPrograms s []) ∧ AnswersOk (feedPrograms s []) s) ∧
    (let s := aw [] 0xFF8 1
     CanProgram s.flash s.params.appRegion (0x08008000 + s.count.toNat) (feedPrograms s (run 0 8)) ∧
     AnswersOk (feedPrograms s (run 0 8)) s) := by decide

/-- V12, and a FINISH over a misaligned base. -/
theorem witness_MisalignedBaseAborts :
    (let s := aw [] 0 0
     s.aborted = false ∧ s.pending.val ≤ 7 ∧ s.count.toNat % 8 = 0 ∧ (0x08008004#32 : Word).toNat % 8 ≠ 0 ∧
     8 ≤ s.pending.val + (run 1 8).length ∧ (0x08008004#32 : Word).toNat + s.count.toNat < addressSpace) ∧
    (let s : State := { aw [1#8] 0 0 with base := 0x08008001#32 }
     s.aborted = false ∧ s.pending.val ≤ 7 ∧ s.count.toNat % 8 = 0 ∧ s.base.toNat % 8 ≠ 0 ∧ 0 < s.pending.val ∧
     s.writeAddr < addressSpace) := by decide

/-- V13, and a first program that fails. -/
theorem witness_FeedStopsAtFirstFailure :
    (let s : State := { aw [] 0 0 with answers := [.ok, .err] }
     s.flash.wf = true ∧ s.aborted = false ∧ s.pending.val ≤ 7 ∧ 1 < feedPrograms s (run 1 24) ∧
     CanProgram s.flash s.params.appRegion (0x08008000 + s.count.toNat) 1 ∧ (0x08008000 + s.count.toNat) % 8 = 0 ∧
     s.params.appRegion.start ≤ 0x08008000 + s.count.toNat ∧ 0x08008000 + s.count.toNat + 8 * 2 ≤ s.params.appRegion.stop ∧
     0x08008000 + s.count.toNat + 8 * 2 ≤ addressSpace ∧ s.count.toNat + 8 * 1 < counterSpace ∧ AnswersOk 1 s ∧
     s.answers[1]? = some .err) ∧
    (let s : State := { aw (run 1 3) 0 0 with answers := [.err] }
     0 < feedPrograms s (run 4 5) ∧ CanProgram s.flash s.params.appRegion 0x08008000 0 ∧ AnswersOk 0 s ∧ s.answers[0]? = some .err) := by
  decide
theorem witness_FeedFrame :
    (let s := aw (run 1 5) 0 3
     (s.aborted = false → s.pending.val ≤ 7) ∧ NoPowerLoss s) ∧
    ∃ t, exec (.awFeed 0x08008000#32 (run 6 20)) (aw (run 1 5) 0 3) = .next t := ⟨by decide, _, rfl⟩
theorem witness_FeedKeepsCountAligned :
    (aw (run 1 5) 8 1).count.toNat % 8 = 0 ∧ ∃ t, exec (.awFeed 0x08008000#32 (run 6 3)) (aw (run 1 5) 8 1) = .next t :=
  ⟨by decide, _, rfl⟩

/-- V9, and one byte in the last double-word of the region. -/
theorem witness_FinishPadsAndPrograms :
    (let s := aw (run 1 7) 0 1
     s.flash.wf = true ∧ s.aborted = false ∧ 0 < s.pending.val ∧ s.pending.val ≤ 7 ∧
     CanProgram s.flash s.params.appRegion s.writeAddr 1 ∧ s.count.toNat + s.pending.val < counterSpace ∧ AnswersOk 1 s) ∧
    (let s := aw [1#8] 0xFF8 1
     0 < s.pending.val ∧ CanProgram s.flash s.params.appRegion s.writeAddr 1 ∧ AnswersOk 1 s) := by decide
theorem witness_FinishWithNothingPending : (aw [] 16 0).aborted = false ∧ (aw [] 16 0).pending = 0 := by decide

/-- A misaligned counter, and V15. -/
theorem witness_FinishFailureAborts :
    (let s := aw [1#8] 4 0
     s.aborted = false ∧ 0 < s.pending.val ∧ s.writeAddr < addressSpace ∧ s.writeAddr % 8 ≠ 0) ∧
    (let s : State := { aw (run 9 4) 8 0 with answers := [.err] }
     s.aborted = false ∧ 0 < s.pending.val ∧ s.writeAddr < addressSpace ∧ s.writeAddr % 8 = 0 ∧
     s.params.appRegion.start ≤ s.writeAddr ∧ s.writeAddr + 8 ≤ s.params.appRegion.stop ∧ s.answers.head? = some .err) := by decide
theorem witness_FinishFrame :
    NoPowerLoss (aw (run 1 7) 0 1) ∧ ∃ t, exec .awFinish (aw (run 1 7) 0 1) = .next t := ⟨by decide, _, rfl⟩

/-- The three faults: the first address past `2^32 - 1`, the first double-word behind the region, a byte that is not erased. -/
theorem witness_WriterModelFaults_finish :
    (let s : State := { aw [1#8] 1 0 with base := 0xFFFFFFFF#32 }
     s.aborted = false ∧ 0 < s.pending.val ∧ addressSpace ≤ s.writeAddr ∧ s.answers.head? ≠ some .lostBefore) ∧
    (let s := aw [1#8] 0x1000 0
     s.aborted = false ∧ 0 < s.pending.val ∧ s.writeAddr < addressSpace ∧ s.writeAddr % 8 = 0 ∧ s.answers.head? ≠ some .lostBefore ∧
     ¬ (s.params.appRegion.start ≤ s.writeAddr ∧ s.writeAddr + 8 ≤ s.params.appRegion.stop)) ∧
    (let s : State := { aw [1#8] 0xFF8 1 with flash := [(0x08008FFF, 0#8)] }
     s.aborted = false ∧ 0 < s.pending.val ∧ s.writeAddr + 8 ≤ addressSpace ∧ s.writeAddr % 8 = 0 ∧
     s.params.appRegion.start ≤ s.writeAddr ∧ s.writeAddr + 8 ≤ s.params.appRegion.stop ∧ s.answers.head? = some .ok ∧
     ¬ Erased s.flash s.writeAddr 8) := by decide

/-- FEED after one successful program: past the address space, past the region, over a byte that is not erased; and the counter's last
double-word. -/
theorem witness_WriterModelFaults_feed :
    (let s : State := { aw [] 8 1 with params := { Params.sample with appBase := 0xFFFFF000#32 } }
     let base := 0xFFFFFFF0#32
     s.flash.wf = true ∧ s.aborted = false ∧ s.pending.val ≤ 7 ∧ s.count.toNat + 8 * 1 < counterSpace ∧
     1 < feedPrograms s (run 0 16) ∧ CanProgram s.flash s.params.appRegion (base.toNat + s.count.toNat) 1 ∧ AnswersOk 1 s ∧
     addressSpace ≤ base.toNat + s.count.toNat + 8 * 1 ∧ s.answers[1]? ≠ some .lostBefore) ∧
    (let s := aw [] 0xFF8 1
     let base := 0x08008000#32
     s.flash.wf = true ∧ s.aborted = false ∧ s.pending.val ≤ 7 ∧ 1 < feedPrograms s (run 0 16) ∧
     CanProgram s.flash s.params.appRegion (base.toNat + s.count.toNat) 1 ∧ s.count.toNat + 8 * 1 < counterSpace ∧ AnswersOk 1 s ∧
     s.answers[1]? ≠ some .lostBefore ∧ ¬ (base.toNat + s.count.toNat + 8 * 1 + 8 ≤ s.params.appRegion.stop)) ∧
    (let s : State := { aw [] 0 2 with flash := [(0x0800800F, 0#8)] }
     let base := 0x08008000#32
     s.flash.wf = true ∧ s.aborted = false ∧ s.pending.val ≤ 7 ∧ s.count.toNat + 8 * 1 < counterSpace ∧
     1 < feedPrograms s (run 0 16) ∧ CanProgram s.flash s.params.appRegion (base.toNat + s.count.toNat) 1 ∧ AnswersOk 1 s ∧
     base.toNat + s.count.toNat + 8 * 1 + 8 ≤ s.params.appRegion.stop ∧ (base.toNat + s.count.toNat + 8 * 1) % 8 = 0 ∧
     s.answers[1]? = some .ok ∧ ¬ Erased s.flash (base.toNat + s.count.toNat + 8 * 1) 8) ∧
    (let s : State := { aw [] 0xFFFFFFF8 1 with params := { Params.sample with appBase := 0xFFFFF000#32 } }
     s.flash.wf = true ∧ s.aborted = false ∧ s.pending.val ≤ 7 ∧ s.count.toNat + 8 * 0 < counterSpace ∧ AnswersOk 0 s ∧
     0 < feedPrograms s (run 0 8) ∧ CanProgram s.flash s.params.appRegion ((0#32 : Word).toNat + s.count.toNat) 0 ∧
     (0#32 : Word).toNat + s.count.toNat + 8 * 0 + 8 ≤ s.params.appRegion.stop ∧
     s.params.appRegion.start ≤ (0#32 : Word).toNat + s.count.toNat + 8 * 0 ∧ ((0#32 : Word).toNat + s.count.toNat + 8 * 0) % 8 = 0 ∧
     Erased s.flash ((0#32 : Word).toNat + s.count.toNat + 8 * 0) 8 ∧ s.answers[0]? = some .ok ∧
     counterSpace ≤ s.count.toNat + 8 * (0 + 1)) := ⟨by decide, by decide, by decide, by decide⟩

/-- V17, the row 3, 0, 17; and no chunk at all. -/
theorem witness_SegmentationLaw :
    (let s := aw [] 0 3
     let chunks := [run 0xA0 3, [], run 0xA3 17]
     s.flash.wf = true ∧ (0x08008000#32 : Word).toNat % 8 = 0 ∧
     CanProgram s.flash s.params.appRegion (0x08008000#32 : Word).toNat ((chunks.flatten.length + 7) / 8) ∧
     8 * ((chunks.flatten.length + 7) / 8) < counterSpace ∧ AnswersOk ((chunks.flatten.length + 7) / 8) s) ∧
    (let chunks : List (List Byte) := []
     CanProgram [] Params.sample.appRegion 0 ((chunks.flatten.length + 7) / 8) ∧
     AnswersOk ((chunks.flatten.length + 7) / 8) State.reset) := by decide

/-- V10: one valid byte, seven stale ones. -/
theorem witness_StaleBufferIsUnobservable :
    let s := aw [0x38#8] 8 1
    let b : DWord := #v[0x38#8, 1#8, 2#8, 3#8, 4#8, 5#8, 6#8, 7#8]
    s.pending.val ≤ 7 ∧ b.toList.take s.pending.val = s.buf.toList.take s.pending.val ∧ b ≠ s.buf := by decide
theorem witness_WriterStaysInRegion :
    (∃ t, exec .awFinish (aw (run 1 7) 0xFF8 1) = .next t) ∧
    (∃ t, exec (.awFeed 0x08008000#32 (run 1 8)) (aw [] 0xFF8 1) = .next t) ∧
    ¬ (Params.sample.appBase.toNat ≤ 0x08009000 ∧ 0x08009000 < Params.sample.appBase.toNat + Params.sample.appMax) :=
  ⟨⟨_, rfl⟩, ⟨_, rfl⟩, by decide⟩

/-- BEGIN clears the flag; V12 sets it. -/
theorem witness_OnlyBeginAndResetClearAborted :
    (let s : State := { aw [] 8 0 with aborted := true }
     s.aborted = true ∧ (after (exec .awBegin s)).aborted = false) ∧
    (let s := aw [] 0 0
     s.aborted = false ∧ (after (exec (.awFeed 0x08008004#32 (run 1 8)) s)).aborted = true) := by decide
theorem witness_VerifyFailsOnErasedLength :
    let s := State.reset
    s.params.metaBase.toNat + 8 ≤ addressSpace ∧ Erased s.flash s.params.metaBase.toNat 4 ∧ s.params.appMax < 0xFFFFFFFF := by decide

/-- An image of 20 bytes whose byte 16, the first one not covered, differs. -/
theorem witness_VerifyDependsOnCoveredBytes :
    let s := verifying (run 0xA0 20) [0x14#8, 0#8, 0#8, 0#8]
    let s' : State := { aw (run 1 3) 8 0 with flash := s.flash.write 0x08008010 0x55#8 }
    s.params.Ok ∧ s'.params = s.params ∧ s'.appLength = s.appLength ∧ s'.appChecksum = s.appChecksum ∧
    (∀ a, s.params.appBase.toNat ≤ a →
      a < s.params.appBase.toNat + (s.appLength.toNat - s.appLength.toNat % s.params.crcWordBytes) →
      s'.flash.read a = s.flash.read a) ∧ s'.flash ≠ s.flash := by decide

/-- The five clauses: a misaligned address, the first one behind the region, a hardware failure and a success in the last double-word
of the region, and a last byte that is not erased. -/
theorem witness_FlashProgramContract :
    let r := Params.sample.appRegion
    (0x08008004#32 : Word).toNat % 8 ≠ 0 ∧
    (State.reset.answers.head? ≠ some .lostBefore ∧ (0x08009000#32 : Word).toNat % 8 = 0 ∧ ¬ (r.start ≤ (0x08009000#32 : Word).toNat ∧ (0x08009000#32 : Word).toNat + 8 ≤ r.stop)) ∧
    ((0x08008FF8#32 : Word).toNat % 8 = 0 ∧ r.start ≤ (0x08008FF8#32 : Word).toNat ∧ (0x08008FF8#32 : Word).toNat + 8 ≤ r.stop) ∧
    ({ State.reset with answers := [.err] }.flash.wf = true ∧ { State.reset with answers := [.err] }.answers.head? = some .err) ∧
    ((aw [] 0 1).flash.wf = true ∧ (aw [] 0 1).answers.head? = some .ok ∧ Erased (aw [] 0 1).flash 0x08008FF8 8) ∧
    (Memory.wf [(0x08008FFF, 0#8)] = true ∧ ¬ Erased [(0x08008FFF, 0#8)] 0x08008FF8 8) := by decide

/-- Power lost during the program of FINISH. -/
theorem witness_PowerLossIsReset_finish :
    let s : State := { aw [1#8] 0 0 with answers := [.lostDuring] }
    s.aborted = false ∧ 0 < s.pending.val ∧ s.writeAddr % 8 = 0 ∧ s.params.appRegion.start ≤ s.writeAddr ∧
    s.writeAddr + 8 ≤ s.params.appRegion.stop ∧ s.writeAddr + 8 ≤ addressSpace ∧ s.answers.head? = some .lostDuring := by decide
/-- Power lost inside a FEED between its two programs, inside a VERIFY before its response, and before a program outside the region. -/
theorem witness_PowerLossIsReset_inside :
    (let s : State := { aw [] 0 2 with cmds := [⟨1#2, 0x08008000#32, run 1 16⟩], wire := [⟨some 1, []⟩] }
     s.app = none ∧ ∃ u, consumerTurn s = .next u ∧ 1 < (u.trace.drop s.trace.length).length) ∧
    (let s : State := { State.reset with cmds := [⟨3#2, 0#32, []⟩], wire := [⟨some 2, []⟩] }
     s.app = none ∧ s.cmds = ⟨3#2, 0#32, []⟩ :: []) ∧
    (∃ t, exec .awBegin State.reset = .next t ∧ .powerLoss ∉ t.trace.drop State.reset.trace.length) ∧
    (0x08009000#32 : Word).toNat % 8 = 0 ∧ { State.reset with answers := [.lostBefore] }.answers.head? = some .lostBefore :=
  ⟨⟨rfl, _, rfl, by decide⟩, ⟨rfl, rfl⟩, ⟨_, rfl, by decide⟩, by decide, rfl⟩
theorem witness_EraseAppErasesRegion :
    let s : State := { bootable with answers := [.ok] }
    s.flash.wf = true ∧ s.params.appRegion.wholePages s.params.pageSize ∧ s.answers = .ok :: [] := by decide
theorem witness_EraseAppFailures :
    (let s : State := { bootable with answers := [.err] }
     s.params.appRegion.wholePages s.params.pageSize ∧ s.answers.head? = some .err) ∧
    ¬ { Params.sample with pageSize := 0x2000 }.appRegion.wholePages 0x2000 ∧ State.reset.answers.head? ≠ some .lostBefore := by decide
theorem witness_UpdateAppErasesAndStarts :
    (bootable.flash.wf = true ∧ bootable.params.appRegion.wholePages bootable.params.pageSize) ∧
    { bootable with answers := [.ok] }.answers.head? = some .ok ∧ { bootable with answers := [.err] }.answers.head? = some .err := by
  decide

/-- A stream in its second double-word, for each of the two operations; the data end the last double-word of the region exactly. -/
def streaming (op : MultiFrame) : State :=
  { aw (run 1 3) 0xFF8 18 with dispatcher := .awaitingMore op, commandSeen := true }

theorem witness_EndOfStreamStoresLength : ∀ op : MultiFrame, op = .programApp ∨ op = .updateApp →
    Inv (streaming op) ∧ (streaming op).dispatcher = .awaitingMore op ∧ op ≠ .writeChecksum ∧ (streaming op).aborted = false ∧
    (streaming op).count.toNat % 8 = 0 ∧
    (streaming op).count.toNat + 8 * (((streaming op).pending.val + (run 4 5).length + 7) / 8) ≤ (streaming op).params.appMax ∧
    (streaming op).count.toNat + 8 * (((streaming op).pending.val + (run 4 5).length + 7) / 8) < counterSpace ∧
    Erased (streaming op).flash ((streaming op).params.appBase.toNat + (streaming op).count.toNat)
      (8 * (((streaming op).pending.val + (run 4 5).length + 7) / 8)) ∧
    (streaming op).params.metaSector.wholePages (streaming op).params.pageSize ∧
    AnswersOk (((streaming op).pending.val + (run 4 5).length + 7) / 8 + 1 + (streaming op).params.metaSectorSize / 8)
      (streaming op) := by
  rintro op (rfl | rfl) <;> exact ⟨by decide, by decide, by decide, by decide, by decide, by decide, by decide, by decide, by decide,
    by decide⟩
/-- A stream of UpdateApp with the Frame `f` in the slot, the count and the answers to come. -/
def fed (count : Nat) (answers : List Answer) (f : List Byte) : State :=
  { aw [] count 0 with dispatcher := .awaitingMore .updateApp, commandSeen := true, frame := some f, answers := answers }

/-- The premises on a payload Frame that all clauses share. -/
theorem witness_StreamGivenUpOnError_payload : ∀ s ∈ [fed 0xFF0 [.ok, .err] (run 1 16), fed 4 [] (run 1 16),
      { fed 8 [] (run 1 16) with aborted := true }],
    s.app = none ∧ s.cmds = [] ∧ s.wire = [] ∧ s.dispatcher = .awaitingMore .updateApp ∧ MultiFrame.updateApp ≠ .writeChecksum ∧
    s.frame = some (run 1 16) ∧ (run 1 16).length ≤ s.params.maxChunk ∧ stripMarker (run 1 16) = none := by decide

/-- The region's last double-word fails in hardware; a misaligned write pointer; an operation aborted before. -/
theorem witness_StreamGivenUpOnError_causes :
    ((∃ u, exec (.awFeed 0x08008000#32 (run 1 16)) { fed 0xFF0 [.ok, .err] (run 1 16) with frame := none } = .next u ∧
        u.rsp = some (.aw .flashProgramError 0xFF8#32)) ∧
      (let s := fed 0xFF0 [.ok, .err] (run 1 16)
       Inv s ∧ s.aborted = false ∧ 1 < feedPrograms s (run 1 16) ∧ s.count.toNat % 8 = 0 ∧
       Erased s.flash (s.params.appBase.toNat + s.count.toNat) (8 * 1) ∧ s.count.toNat + 8 * (1 + 1) ≤ s.params.appMax ∧
       s.count.toNat + 8 * 1 < counterSpace ∧ AnswersOk 1 s ∧ s.answers[1]? = some .err)) ∧
    (let s := fed 4 [] (run 1 16)
     s.aborted = false ∧ s.pending.val ≤ 7 ∧ 8 ≤ s.pending.val + (run 1 16).length ∧
     (s.params.appBase.toNat + s.count.toNat) % 8 ≠ 0 ∧ s.params.appBase.toNat + s.count.toNat < addressSpace) ∧
    { fed 8 [] (run 1 16) with aborted := true }.aborted = true :=
  ⟨⟨⟨_, rfl, by decide⟩, by decide⟩, by decide, rfl⟩

/-- The end of a stream: the FEED fails, the FINISH fails, the erase of the field write fails. -/
theorem witness_StreamGivenUpOnError_end :
    (∃ u, exec (.awFeed 0x08008000#32 (run 1 8)) (fed 0 [.err] []) = .next u ∧ u.rsp = some (.aw .flashProgramError 0#32)) ∧
    (∃ u v, exec (.awFeed 0x08008000#32 (run 1 3)) (fed 0 [.err] []) = .next u ∧ u.rsp = some (.aw .ok 0#32) ∧
      exec .awFinish u = .next v ∧ v.rsp = some (.aw .flashProgramError 0#32)) ∧
    (∃ u v w, exec (.awFeed 0x08008000#32 []) (fed 8 [.err] []) = .next u ∧ u.rsp = some (.aw .ok 8#32) ∧
      exec .awFinish u = .next v ∧ v.rsp = some (.aw .ok 8#32) ∧
      writeField Config.lenOff (le32Bytes 8#32) v = .next (.error .flashEraseError, w)) ∧
    (fed 0 [.err] []).dispatcher = .awaitingMore .updateApp ∧ Inv (fed 0 [.err] []) :=
  ⟨⟨_, rfl, by decide⟩, ⟨_, _, rfl, by decide, rfl, by decide⟩, ⟨_, _, _, rfl, by decide, rfl, by decide, rfl⟩, rfl, by decide⟩

/-- Waiting for the checksum's Frame, with the Frame `f` in the slot. -/
def waiting (f : Option (List Byte)) : State :=
  { aw [] 0 17 with dispatcher := .awaitingMore .writeChecksum, commandSeen := true, frame := f }

/-- A WriteChecksum whose erase fails. -/
theorem witness_StreamGivenUpOnError_checksum :
    (let s : State := { waiting (some (run 0 4)) with answers := [.err] }
     (s.app = none ∧ s.cmds = [] ∧ s.wire = [] ∧ s.dispatcher = .awaitingMore .writeChecksum ∧ s.frame = some (run 0 4) ∧
       4 ≤ (run 0 4).length ∧ 8 ≤ s.params.metaMax ∧ s.params.metaSector.wholePages s.params.pageSize ∧ s.answers.head? = some .err) ∧
     ∃ w, writeField Config.crcOff ((run 0 4).take 4) { s with frame := none } = .next (.error .flashEraseError, w)) :=
  ⟨by decide, _, rfl⟩

/-- No Frame, one byte too few, and exactly four bytes. -/
theorem witness_WriteChecksumStores :
    (∀ f, (waiting f).app = none ∧ (waiting f).cmds = [] ∧ (waiting f).wire = [] ∧
      (waiting f).dispatcher = .awaitingMore .writeChecksum ∧ (waiting f).frame = f) ∧
    (run 0 3).length < 4 ∧
    (let s := waiting (some (run 0 4))
     Inv s ∧ 4 ≤ (run 0 4).length ∧ s.params.metaSector.wholePages s.params.pageSize ∧
     AnswersOk (1 + s.params.metaSectorSize / 8) s) :=
  ⟨fun _ => ⟨rfl, rfl, rfl, rfl, rfl⟩, by decide, by decide⟩
theorem witness_MisalignedProgramRefused : (0x08008004#32 : Word).toNat % 8 ≠ 0 := by decide
theorem witness_OnlyWritersTouchFlash : ∃ t, exec .hostRestart (aw (run 1 3) 8 0) = .next t := ⟨_, rfl⟩

/-- A field that ends exactly at the usable size. -/
theorem witness_WriteFieldKeepsOthers :
    let s := aw [] 0 17
    Inv s ∧ 56 + (run 0 8).length ≤ s.params.metaMax ∧ s.params.metaSector.wholePages s.params.pageSize ∧
    AnswersOk (1 + s.params.metaSectorSize / 8) s := by decide

/-- One byte too many; and a field write of the host that ends in an error. -/
theorem witness_WriteFieldRejectsOverflow :
    Params.sample.metaMax < 57 + (run 0 8).length ∧ 8 ≤ Params.sample.metaMax ∧ (run 0 4).length = 4 ∧
    ∃ t, writeField Config.crcOff (run 0 4) { State.reset with answers := [.err] } = .next (.error .flashEraseError, t) :=
  ⟨by decide, by decide, by decide, _, rfl⟩
theorem witness_PowerLossLosesMetadata :
    let s : State := { State.reset with answers := [.ok, .lostBefore] }
    Inv s ∧ 0 + (run 0 4).length ≤ s.params.metaMax ∧ s.params.metaSector.wholePages s.params.pageSize ∧
    s.answers = .ok :: .lostBefore :: [] ∧ s.params.appMax < 0xFFFFFFFF := by decide

/-- The longest length that the guard passes. -/
theorem witness_StoredChecksumRoundTrip :
    let s := aw [] 0 34
    Inv s ∧ (0x1000#32 : Word).toNat ≤ s.params.appMax ∧ s.params.metaSector.wholePages s.params.pageSize ∧
    AnswersOk (2 * (1 + s.params.metaSectorSize / 8)) s := by decide
theorem witness_NewestFrameIsDropped :
    (State.reset.interrupts = true ∧ State.reset.transport = true ∧ State.reset.frame = none) ∧
    { State.reset with frame := some [1#8] }.frame = some [1#8] := by decide

/-- U15, 93_implementation_defined.md: an unknown code has no effect; the window goes on as if nothing had been polled. -/
theorem test_unknown_is_not_seen :
    (after (step { State.reset with frame := some [0xFE#8, 0xA5#8, 3#8] })).commandSeen = false := by decide

/-- No marker, and an unknown code. -/
theorem witness_UnknownFramesDropped :
    (let s : State := { State.reset with ticks := 1, frame := some [0x55#8, 0xAA#8, 1#8] }
     s.app = none ∧ s.cmds = [] ∧ s.wire = [] ∧ s.dispatcher = .idle ∧ s.ticks ≠ 0 ∧
     decodeCommand [0x55#8, 0xAA#8, 1#8] = .reject .noMarker) ∧
    decodeCommand [0xFE#8, 0xA5#8, 3#8] = .reject .unknownCommand ∧ decodeCommand endMarker = .reject .unknownCommand ∧
    State.reset.dispatcher = .idle := by decide

/-- One byte too many for a record and for a Frame, a launched machine, and pages that the sector and the region do not fill. -/
theorem witness_RefusalsByName :
    (let s : State := { State.reset with params := { Params.sample with maxChunk := 7, pageSize := 0x2000 }, cmds := [⟨1#2, 0#32, run 0 8⟩] }
     s.app = none ∧ s.params.maxChunk < (run 0 8).length ∧ ¬ s.params.appRegion.wholePages s.params.pageSize ∧
     ¬ s.params.metaSector.wholePages s.params.pageSize ∧ 0 + (run 0 4).length ≤ s.params.metaMax ∧
     s.answers.head? ≠ some .lostBefore) ∧
    (let s : State := { streaming .programApp with params := { Params.sample with maxChunk := 7 }, frame := some (run 0 8) }
     s.app = none ∧ s.cmds = [] ∧ s.dispatcher = .awaitingMore .programApp ∧ s.params.maxChunk < (run 0 8).length) ∧
    { State.reset with app := some ⟨0#32, 0#32⟩ }.app = some ⟨0#32, 0#32⟩ := by decide

/-- A bootable image whose stored length is 0 and whose stored checksum is that of no bytes. -/
def valid : State :=
  { bootable with ticks := 0, flash := bootable.flash.writeBytes 0x0800F800 ([0#8, 0#8, 0#8, 0#8] ++ le32Bytes (Config.crc32Fn [])) }

theorem bootable_wf : bootable.flash.wf = true := by decide

theorem valid_verifies : (verifyWith Config.crc32Fn valid).rsp = some (.iv true) := by
  have hl : valid.appLength = 0#32 := by
    simp only [State.appLength, State.wordAt, valid, Memory.readBytes, Memory.read_writeBytes bootable_wf]
    rfl
  have hc : valid.appChecksum = Config.crc32Fn [] := by
    refine Eq.trans (congrArg le32 ?_) (le32_le32Bytes (Config.crc32Fn []))
    simp only [valid, Memory.readBytes, Memory.read_writeBytes bootable_wf]
    generalize Config.crc32Fn [] = c
    simp [le32Bytes, bootable, State.reset, Params.sample, addressSpace, Config.crcOff]
  have hi : valid.imageBytes valid.crcWords = [] := by
    simp only [State.imageBytes, State.crcWords, hl]; rfl
  have hg : ¬ valid.params.appMax < valid.appLength.toNat := by rw [hl]; decide
  rw [verifyWith, if_neg hg, hi, hc, beq_self_eq_true]
  rfl

theorem witness_VerifyAndJumpGated :
    (after (exec .ivVerify State.reset)).rsp ≠ some (.iv true) ∧ (after (exec .ivVerify valid)).rsp = some (.iv true) :=
  ⟨by decide, valid_verifies⟩

/-- A window that ends with a command seen, one whose VERIFY fails, one that launches. -/
theorem witness_BootDecision :
    (let s : State := { State.reset with ticks := 0 }
     s.app = none ∧ s.cmds = [] ∧ s.wire = [] ∧ s.dispatcher = .idle ∧ s.ticks = 0 ∧ s.boot = .commandWindow ∧
     s.commandSeen = false ∧ (after (exec .ivVerify s)).rsp ≠ some (.iv true) ∧ { s with commandSeen := true }.commandSeen = true) ∧
    (valid.app = none ∧ valid.cmds = [] ∧ valid.wire = [] ∧ valid.dispatcher = .idle ∧ valid.ticks = 0 ∧
     valid.boot = .commandWindow ∧ valid.commandSeen = false) ∧
    (after (exec .ivVerify valid)).rsp = some (.iv true) ∧
    stackPlausible valid.params (le32 (valid.flash.readBytes valid.params.appBase.toNat 4)) = true := by
  refine ⟨by decide, ⟨rfl, rfl, rfl, rfl, rfl, rfl, rfl⟩, valid_verifies, ?_⟩
  simp only [valid, Memory.readBytes, Memory.read_writeBytes bootable_wf]
  rfl
theorem witness_StayRerunsWindow :
    (let s : State := { State.reset with boot := .stay, commandSeen := true, ticks := 0 }
     s.app = none ∧ s.cmds = [] ∧ s.wire = [] ∧ s.dispatcher = .idle ∧ s.frame = none ∧ s.ticks = 0 ∧ s.boot = .stay) ∧
    { State.reset with ticks := 1 }.ticks ≠ 0 := by decide
/-- A decision in update mode; a CMD record; the end of a ProgramApp; an UpdateApp's Frame without the marker. -/
theorem witness_NoAutonomousJumpAfterCommand :
    (let s : State := { State.reset with commandSeen := true, ticks := 0 }
     s.commandSeen = true ∧ s.dispatcher = .idle ∧ s.frame = none ∧ ∃ t, step s = .next t) ∧
    (let s : State := { State.reset with commandSeen := true, ticks := 0, boot := .stay, frame := some [0xFE#8, 0xA5#8, 0xF3#8] }
     s.commandSeen = true ∧ s.dispatcher = .idle ∧ s.ticks = 0 ∧ decodeCommand [0xFE#8, 0xA5#8, 0xF3#8] = .instr .hostJumpToApp ∧
     ∃ t, step s = .next t) ∧
    (let s : State := { bootable with commandSeen := true, cmds := [⟨3#2, 0#32, []⟩] }
     s.commandSeen = true ∧ s.cmds ≠ [] ∧ ∃ t, step s = .next t) ∧
    (let s : State := { fed 0 [.err] endMarker with dispatcher := .awaitingMore .programApp }
     s.commandSeen = true ∧ s.dispatcher ≠ .idle ∧ s.dispatcher ≠ .awaitingMore .updateApp ∧ ∃ t, step s = .next t) ∧
    (let s := fed 0 [.ok] (run 1 8)
     s.commandSeen = true ∧ s.dispatcher ≠ .idle ∧ stripMarker (run 1 8) = none ∧ ∃ t, step s = .next t) :=
  ⟨⟨rfl, rfl, rfl, _, rfl⟩, ⟨rfl, rfl, rfl, rfl, _, rfl⟩, ⟨rfl, by decide, _, rfl⟩, ⟨rfl, by decide, by decide, _, rfl⟩, rfl, by decide, by decide, _, rfl⟩
theorem witness_JumpsOnlyToPlausibleImages :
    ∃ t, step { bootable with frame := some [0xFE#8, 0xA5#8, 0xF3#8] } = .next t ∧ t.app = some ⟨0x20005000#32, 0x080081AD#32⟩ :=
  ⟨_, rfl, by decide⟩
theorem witness_StepWritesOnlyDeclaredRegions :
    (∃ t, step { aw (run 1 7) 0 1 with cmds := [⟨2#2, 0#32, []⟩] } = .next t) ∧
    ¬ (Params.sample.appBase.toNat ≤ 0x08009000 ∧ 0x08009000 < Params.sample.appBase.toNat + Params.sample.appMax) ∧
    ¬ (Params.sample.metaBase.toNat ≤ 0x0800F7FF ∧ 0x0800F7FF < Params.sample.metaBase.toNat + Params.sample.metaSectorSize) :=
  ⟨⟨_, rfl⟩, by decide⟩

end Sys2Proof.Tests
end

section
/-! Proofs of the family 00_scope.md: the invariant at reset. -/

namespace Sys2Proof.Proofs
open Sys2Proof Sys2Proof.Machine

/-- The sample values of log 2 meet R6: with them the application region ends at `0x08009000`, below the metadata sector. -/
theorem sampleParams_ok : Params.sample.Ok := by decide

/-- No byte is listed, so none is out of order, erased or outside the address space (log 6). -/
theorem emptyFlash_wf_inSpace : Memory.wf [] = true ∧ Memory.inSpace [] := ⟨rfl, nofun⟩

/-- Settles O8 (R24, R127): nothing is pending, a whole countdown is left, control has not passed on, and the three implications about the
sequencer and the dispatcher have premises that are false in `CommandWindow` and `Idle`. -/
theorem resetMeetsInvariant : Obligations.ResetMeetsInvariant := by
  obtain ⟨hwf, hspace⟩ := emptyFlash_wf_inSpace
  have hpending : State.reset.aborted = false → State.reset.pending.val ≤ 7 := fun _ => Nat.zero_le 7
  have hticks : State.reset.ticks ≤ Config.windowTicks := Nat.le_refl _
  have hidle : State.reset.dispatcher ≠ .idle → State.reset.commandSeen = true := fun h => absurd rfl h
  exact ⟨sampleParams_ok, hwf, hspace, hpending, hticks, rfl, rfl, nofun, nofun, hidle⟩

end Sys2Proof.Proofs
end

section
/-! Proofs of the family 10_state.md: what every operation of the block and of its host leaves of the state (constants, flash, the flag
`AW.aborted`, the host's registers), and from it the invariant, the constants and the flag. -/

namespace Sys2Proof.Proofs
open Sys2Proof Sys2Proof.Machine

/-! ### The registers of the invariant -/

/-- The part of `Inv` that speaks of registers: R11 for the accumulator, R117, R127, R130 for the host. -/
structure RegsOk (s : State) : Prop where
  pending : s.aborted = false → s.pending.val ≤ 7
  ticks : s.ticks ≤ Config.windowTicks
  interrupts : s.interrupts = s.app.isNone
  transport : s.transport = s.app.isNone
  launch : s.boot = .launch → s.app.isSome = true
  stay : s.boot = .stay → s.commandSeen = true
  dispatcher : s.dispatcher ≠ .idle → s.commandSeen = true

theorem inv_iff (s : State) : Inv s ↔ s.params.Ok ∧ s.flash.wf = true ∧ s.flash.inSpace ∧ RegsOk s := by
  constructor
  · rintro ⟨hparams, hwf, hspace, hpending, hticks, hints, htrans, hlaunch, hstay, hdisp⟩
    exact ⟨hparams, hwf, hspace, hpending, hticks, hints, htrans, hlaunch, hstay, hdisp⟩
  · rintro ⟨hparams, hwf, hspace, hpending, hticks, hints, htrans, hlaunch, hstay, hdisp⟩
    exact ⟨hparams, hwf, hspace, hpending, hticks, hints, htrans, hlaunch, hstay, hdisp⟩

/-- After a loss of power the registers are those of a hardware reset (R160). -/
theorem RegsOk.of_lost {s t : State} (h : Lost s t) : RegsOk t where
  pending _ := by rw [h.pending]; exact Nat.zero_le 7
  ticks := by rw [h.ticks]
  interrupts := by rw [h.interrupts, h.app]; rfl
  transport := by rw [h.transport, h.app]; rfl
  launch hb := by rw [h.boot] at hb; cases hb
  stay hb := by rw [h.boot] at hb; cases hb
  dispatcher hd := absurd h.dispatcher hd

/-- Where the host's registers are as before, only the pending count is in question. -/
theorem RegsOk.of_hostSame {s t : State} (h : RegsOk s) (hs : HostSame s t) (hp : t.aborted = false → t.pending.val ≤ 7) :
    RegsOk t := by
  obtain ⟨-, hdisp, hboot, hticks, hseen, -, hints, htrans, happ, -, -⟩ := hs
  exact
    { pending := hp
      ticks := by rw [hticks]; exact h.ticks
      interrupts := by rw [hints, happ]; exact h.interrupts
      transport := by rw [htrans, happ]; exact h.transport
      launch := by rw [hboot, happ]; exact h.launch
      stay := by rw [hboot, hseen]; exact h.stay
      dispatcher := by rw [hdisp, hseen]; exact h.dispatcher }

/-- The registers the invariant does not speak of are free, and the countdown may take any value in its range. -/
theorem RegsOk.taken {s : State} (h : RegsOk s) {n : Nat} (hn : n ≤ Config.windowTicks) (c : List Cmd) (w : List Outside)
    (f : Option (List Byte)) : RegsOk { s with cmds := c, wire := w, frame := f, ticks := n } :=
  ⟨h.pending, hn, h.interrupts, h.transport, h.launch, h.stay, h.dispatcher⟩

/-- 'command seen' is a conclusion of the invariant, never a premise (R127). -/
theorem RegsOk.seeCommand {s : State} (h : RegsOk s) : RegsOk s.seeCommand :=
  ⟨h.pending, h.ticks, h.interrupts, h.transport, h.launch, fun _ => rfl, fun _ => rfl⟩

/-! ### What an operation does to the state -/

/-- What leads from `s` to `t` keeps what every operation keeps, and the registers within the invariant. -/
structure Lawful (s t : State) : Prop where
  keeps : Keeps s t
  regs : RegsOk s → RegsOk t

theorem Lawful.trans {s t u : State} (h : Lawful s t) (k : Lawful t u) : Lawful s u := ⟨h.keeps.trans k.keeps, k.regs ∘ h.regs⟩

/-- A change of registers only, with no record on a port. -/
theorem Lawful.of_regs {s t : State} (hr : RegsOk s → RegsOk t) (hp : t.params = s.params := by rfl) (hc : t.cmds = s.cmds := by rfl)
    (hw : t.wire = s.wire := by rfl) (ht : t.trace = s.trace := by rfl) (hf : t.flash = s.flash := by rfl)
    (hd : t.draws = s.draws := by rfl) : Lawful s t :=
  ⟨.of_flash hp hc hw ⟨[], by simp [ht]⟩ hf hd, hr⟩

theorem Lawful.refl (s : State) : Lawful s s := ⟨.refl s, id⟩

/-- What an operation that leads from `s` to `t` does to the state. `w` says that it issues programs of unit AW: only then can it raise
`AW.aborted`, and only by an `Err` (R16, R148). It clears the flag by a loss of power only. -/
structure Effect (w : Prop) (s t : State) : Prop extends Lawful s t where
  aborted : t.aborted = s.aborted ∨ (t.aborted = false ∧ .powerLoss ∈ s.news t) ∨
    (w ∧ t.aborted = true ∧ ∃ a d, .prog a d .err ∈ s.news t)

theorem Effect.mono {w w' : Prop} {s t : State} (h : Effect w s t) (hw : w → w') : Effect w' s t :=
  ⟨h.toLawful, h.aborted.imp id (Or.imp id fun ⟨hx, hy⟩ => ⟨hw hx, hy⟩)⟩

/-- The flag is as the last part that changed it left it. -/
theorem Effect.trans {w : Prop} {s t u : State} (h : Effect w s t) (k : Effect w t u) : Effect w s u where
  toLawful := h.toLawful.trans k.toLawful
  aborted := by
    have hnew {e : Event} (he : e ∈ s.news t ∨ e ∈ t.news u) : e ∈ s.news u := news_mono h.keeps.trace k.keeps.trace he
    rcases k.aborted with hku | ⟨hku, hl⟩ | ⟨hw, hku, a, d, he⟩
    · rw [hku]
      rcases h.aborted with ht | ⟨ht, hl⟩ | ⟨hw, ht, a, d, he⟩
      · exact .inl ht
      · exact .inr (.inl ⟨ht, hnew (.inl hl)⟩)
      · exact .inr (.inr ⟨hw, ht, a, d, hnew (.inl he)⟩)
    · exact .inr (.inl ⟨hku, hnew (.inr hl)⟩)
    · exact .inr (.inr ⟨hw, hku, a, d, hnew (.inr he)⟩)

/-- A loss of power inside an operation. -/
theorem Effect.of_lost {w : Prop} {s t : State} (hk : Keeps s t) (hl : Lost s t) : Effect w s t :=
  ⟨⟨hk, fun _ => .of_lost hl⟩, .inr (.inl ⟨hl.aborted, hl.news⟩)⟩

/-- An operation that leaves the registers of the host and of unit AW alone. -/
theorem Effect.of_same {w : Prop} {s t : State} (hk : Keeps s t) (hh : HostSame s t) (hw : WriterSame s t) : Effect w s t := by
  obtain ⟨-, hpend, -, -, hab⟩ := hw
  exact ⟨⟨hk, fun hs => hs.of_hostSame hh (by rw [hab, hpend]; exact hs.pending)⟩, .inl hab⟩

theorem Effect.refl {w : Prop} (s : State) : Effect w s s := .of_same (.refl s) (by simp [HostSame]) (by simp [WriterSame])

/-- A record that is no flash transaction and no abort. -/
theorem Effect.log {w : Prop} (s : State) {e : Event} (he : e.quiet = true) : Effect w s (s.log e) :=
  .of_same (.of_flash rfl rfl rfl ⟨[e], rfl, by simp [he]⟩ rfl rfl) (by simp [HostSame]) (by simp [WriterSame])

theorem Effect.respond {w : Prop} (s : State) {r : Rsp} (hr : (Event.rsp r).quiet = true) : Effect w s (s.respond r) :=
  .of_same (.of_flash rfl rfl rfl ⟨[.rsp r], rfl, by simp [hr]⟩ rfl rfl) (by simp [HostSame]) (by simp [WriterSame])

/-- Back to `Idle` (R120, R125). -/
theorem Effect.toIdle {w : Prop} (s : State) : Effect w s s.toIdle where
  toLawful := .of_regs fun h => ⟨h.pending, h.ticks, h.interrupts, h.transport, h.launch, h.stay, fun hd => absurd rfl hd⟩
  aborted := .inl rfl

/-- A stream given up (R125). -/
theorem Effect.abortStream {w : Prop} (s : State) : Effect w s s.abortStream := (Effect.toIdle s).trans (.log _ rfl)

/-! ### The operations of the block and of the flash -/

theorem flashErase_effect {w : Prop} {s : State} {p : PortResult × State} (h : flashErase s.params.appRegion s = .next p) :
    Effect w s p.2 := by
  obtain ⟨hk, ⟨-, hl⟩ | ⟨-, hh, hw, -⟩⟩ := flashErase_spec h (.inl rfl)
  · exact .of_lost hk hl
  · exact .of_same hk hh hw

theorem writeField_effect {w : Prop} {off : Nat} {bs : List Byte} {s : State} {p : StoreResult × State}
    (h : writeField off bs s = .next p) : Effect w s p.2 := by
  obtain ⟨hk, ⟨-, hl⟩ | ⟨-, hh, hw, -⟩⟩ := writeField_spec h
  · exact .of_lost hk hl
  · exact .of_same hk hh hw

/-- How FEED and FINISH end where power holds: a sticky `AW.aborted` stays, and a flag that rose was raised by an `Err` (R16, R80). -/
theorem Effect.of_programs {s t : State} (hk : Keeps s t) (hh : HostSame s t) (hsticky : s.aborted = true → t.aborted = true)
    (hpend : s.aborted = false → t.aborted = false → s.pending.val ≤ 7 → t.pending.val ≤ 7)
    (herr : s.aborted = false → t.aborted = true → ∃ a d, .prog a d .err ∈ s.news t) : Effect True s t := by
  cases hs : s.aborted with
  | true =>
    have ht : t.aborted = true := hsticky hs
    exact ⟨⟨hk, fun hr => hr.of_hostSame hh (by simp [ht])⟩, .inl (ht.trans hs.symm)⟩
  | false =>
    refine ⟨⟨hk, fun hr => hr.of_hostSame hh fun ht => hpend hs ht (hr.pending hs)⟩, ?_⟩
    cases ht : t.aborted with
    | false => exact .inl hs.symm
    | true => exact .inr (.inr ⟨trivial, rfl, herr hs ht⟩)

theorem execFeed_effect {s t : State} {base : Word} {chunk : List Byte} (h : execFeed base chunk s = .next t) :
    Effect True s t := by
  obtain ⟨hk, hl | ⟨hh, -, -, -, hsticky, hpend, herr⟩⟩ := execFeed_spec h
  · exact .of_lost hk hl
  · exact .of_programs hk hh hsticky hpend herr

theorem execFinish_effect {s t : State} (h : execFinish s = .next t) : Effect True s t := by
  obtain ⟨hk, hl | ⟨hh, -, -, hsticky, hpend, herr⟩⟩ := execFinish_spec h
  · exact .of_lost hk hl
  · exact .of_programs hk hh hsticky (fun hs ht _ => by rw [hpend hs ht]; exact Nat.zero_le 7) herr

theorem fetchMetadata_effect {w : Prop} (s : State) : Effect w s (fetchMetadata s) := (Effect.log s rfl).trans (.log _ rfl)

/-- VERIFY makes reads, below the length guard a CRC transaction, and a response (R90 to R95). -/
theorem verifyWith_effect {w : Prop} (crc : List Byte → Word) (s : State) : Effect w s (verifyWith crc s) := by
  unfold verifyWith
  split
  · exact (fetchMetadata_effect s).trans (.respond _ rfl)
  · exact ((fetchMetadata_effect s).trans (.log _ rfl)).trans (.respond _ rfl)

theorem execVerify_effect {w : Prop} {s t : State} (h : execVerify s = .next t) : Effect w s t := by
  cases h; exact verifyWith_effect _ s

/-! ### The host's operations -/

/-- A jump switches the interrupt sources and the transport off exactly where it passes control on (R130). -/
theorem jump_effect {w : Prop} (a : Word) (s : State) : Effect w s (jump a s) := by
  unfold jump
  split
  · exact
      { keeps := .of_flash rfl rfl rfl ⟨_, rfl, rfl⟩ rfl rfl
        regs := fun h => ⟨h.pending, h.ticks, rfl, rfl, fun _ => rfl, h.stay, h.dispatcher⟩
        aborted := .inl rfl }
  · exact .log s rfl

theorem jumpIfValid_effect {w : Prop} (s : State) : Effect w s (jumpIfValid s) := by
  unfold jumpIfValid
  split
  · exact jump_effect _ s
  · exact .refl s

theorem execEraseApp_effect {w : Prop} {s t : State} (h : execEraseApp s = .next t) : Effect w s t := by
  obtain ⟨⟨r, u⟩, hu, hk⟩ := andThen_eq_next h
  have he : Effect w s u := flashErase_effect hu
  cases r <;> cases hk
  case ok => exact he
  case err => exact he.trans (.log u rfl)
  case lost => exact he

theorem execVerifyAndJump_effect {w : Prop} {s t : State} (h : execVerifyAndJump s = .next t) : Effect w s t := by
  obtain ⟨u, hu, hk⟩ := andThen_eq_next h
  cases hk
  exact (execVerify_effect hu).trans (jumpIfValid_effect u)

/-- After a field write the host reports, waits no more, or jumps (R121, R125). -/
theorem afterStore_effect {w : Prop} (op : MultiFrame) (p : StoreResult × State) : Effect w p.2 (afterStore op p) := by
  obtain ⟨r, u⟩ := p
  cases r with
  | stored =>
    cases op with
    | updateApp => exact (Effect.toIdle u).trans (jump_effect _ _)
    | programApp => exact .toIdle u
    | writeChecksum => exact .toIdle u
  | error e => exact (Effect.toIdle u).trans (.log _ rfl)
  | lost => exact .refl u

theorem storeField_effect {w : Prop} {op : MultiFrame} {off : Nat} {bs : List Byte} {s t : State}
    (h : (andThen (writeField off bs s) fun p => .next (afterStore op p)) = .next t) : Effect w s t := by
  obtain ⟨p, hp, hk⟩ := andThen_eq_next h
  cases hk
  exact (writeField_effect hp).trans (afterStore_effect op p)

theorem closeStream_effect {op : MultiFrame} {s t : State} (h : closeStream op s = .next t) : Effect True s t := by
  obtain ⟨u, hu, hk⟩ := andThen_eq_next h
  refine (execFinish_effect hu).trans ?_
  split at hk
  · exact storeField_effect hk
  · cases hk; exact .abortStream _
  · cases hk; exact .abortStream _
  · cases hk; exact .refl _
  · cases hk; exact .refl _

theorem finishStream_effect {op : MultiFrame} {data : List Byte} {s t : State} (h : finishStream op data s = .next t) :
    Effect True s t := by
  obtain ⟨u, hu, hk⟩ := andThen_eq_next h
  refine (execFeed_effect hu).trans ?_
  split at hk
  · exact closeStream_effect hk
  · cases hk; exact .abortStream _
  · cases hk; exact .abortStream _
  · cases hk; exact .refl _
  · cases hk; exact .refl _

theorem execEndOfStream_effect {data : List Byte} {s t : State} (h : execEndOfStream data s = .next t) : Effect True s t := by
  unfold execEndOfStream at h
  split at h
  · exact finishStream_effect h
  · exact finishStream_effect h
  · cases h; exact .refl s
  · cases h; exact .refl s

theorem storeChecksum_effect {w : Prop} {f : List Byte} {s t : State} (h : storeChecksum f s = .next t) : Effect w s t := by
  unfold storeChecksum at h
  split at h
  · cases h; exact .refl s
  · exact storeField_effect h

/-- BEGIN empties the accumulator and answers `OK` (R71). -/
theorem abortRecovery_lawful (s : State) : Lawful s (abortRecovery s) where
  keeps := .of_flash rfl rfl rfl ⟨_, rfl, rfl⟩ rfl rfl
  regs h := ⟨fun _ => Nat.zero_le 7, h.ticks, h.interrupts, h.transport, h.launch, h.stay, h.dispatcher⟩

/-- A wait for Frames is lawful once a command was seen (R117, R127). -/
theorem await_lawful {s : State} (op : MultiFrame) (hseen : s.commandSeen = true) :
    Lawful s { s with dispatcher := .awaitingMore op } :=
  .of_regs fun h => ⟨h.pending, h.ticks, h.interrupts, h.transport, h.launch, h.stay, fun _ => hseen⟩

theorem startStream_lawful {s : State} (op : MultiFrame) (hseen : s.commandSeen = true) : Lawful s (startStream op s) :=
  (abortRecovery_lawful s).trans (await_lawful op hseen)

/-- A system reset leaves the reset values (R108, R160). -/
theorem execRestart_lawful {s t : State} (h : execRestart s = .next t) : Lawful s t := by
  cases h
  exact
    { keeps := .of_records rfl rfl rfl ⟨[.systemReset], rfl, by simp [Event.Inside], fun _ => ⟨rfl, rfl⟩⟩ rfl
      regs := fun _ => ⟨fun _ => Nat.zero_le 7, Nat.le_refl _, rfl, rfl, nofun, nofun, fun hd => absurd rfl hd⟩ }

/-- UpdateApp is its erase, and where that succeeded the start of a stream (R121). -/
theorem execUpdateApp_cases {s t : State} (h : execUpdateApp s = .next t) :
    Effect False s t ∨ ∃ u, Effect False s u ∧ u.commandSeen = s.commandSeen ∧ t = startStream .updateApp u := by
  obtain ⟨⟨r, u⟩, hu, hk⟩ := andThen_eq_next h
  have he : Effect False s u := flashErase_effect hu
  cases r <;> cases hk
  case ok =>
    obtain ⟨-, ⟨hr, -⟩ | ⟨-, ⟨-, -, -, -, hseen, -⟩, -⟩⟩ := flashErase_spec hu (.inl rfl)
    · cases hr
    · exact .inr ⟨u, he, hseen, rfl⟩
  case err => exact .inl (he.trans (.log u rfl))
  case lost => exact .inl he

/-! ### Every instruction -/

/-- BEGIN, the commands that issue it, and the hardware reset of Restart (R16). -/
def ClearsAborted (i : Instr) : Prop := i = .awBegin ∨ i = .hostProgramApp ∨ i = .hostUpdateApp ∨ i = .hostRestart

/-- FEED, FINISH and the end of a stream, which issues both (R119). -/
def ProgramsAW (i : Instr) : Prop :=
  i = .awFinish ∨ (∃ base chunk, i = .awFeed base chunk) ∨ ∃ data, i = .hostEndOfStream data

/-- The commands after which the dispatcher waits for Frames (R117). -/
def OpensWait (i : Instr) : Prop := i = .hostProgramApp ∨ i = .hostUpdateApp ∨ i = .hostWriteChecksum

/-- Every instruction but those that reset the accumulator or open a wait has the effect of an operation. -/
theorem exec_effect {i : Instr} {s t : State} (h : exec i s = .next t) :
    ClearsAborted i ∨ i = .hostWriteChecksum ∨ Effect (ProgramsAW i) s t := by
  cases i with
  | awBegin => exact .inl (.inl rfl)
  | awFeed base chunk => exact .inr (.inr ((execFeed_effect h).mono fun _ => .inr (.inl ⟨base, chunk, rfl⟩)))
  | awFinish => exact .inr (.inr ((execFinish_effect h).mono fun _ => .inl rfl))
  | ivVerify => exact .inr (.inr (execVerify_effect h))
  | hostConnect => cases h; exact .inr (.inr (.log s rfl))
  | hostEraseApp => exact .inr (.inr (execEraseApp_effect h))
  | hostProgramApp => exact .inl (.inr (.inl rfl))
  | hostWriteChecksum => exact .inr (.inl rfl)
  | hostRestart => exact .inl (.inr (.inr (.inr rfl)))
  | hostJumpToApp => cases h; exact .inr (.inr (jump_effect _ s))
  | hostVerifyAndJump => exact .inr (.inr (execVerifyAndJump_effect h))
  | hostUpdateApp => exact .inl (.inr (.inr (.inl rfl)))
  | hostEndOfStream data => exact .inr (.inr ((execEndOfStream_effect h).mono fun _ => .inr (.inr ⟨data, rfl⟩)))

/-- A wait may be opened only once a command was seen (R127). -/
theorem exec_lawful {i : Instr} {s t : State} (h : exec i s = .next t) (hseen : OpensWait i → s.commandSeen = true) : Lawful s t := by
  rcases exec_effect h with (rfl | rfl | rfl | rfl) | rfl | he
  · cases h; exact abortRecovery_lawful s
  · cases h; exact startStream_lawful _ (hseen (.inl rfl))
  · rcases execUpdateApp_cases h with he | ⟨u, he, hu, rfl⟩
    · exact he.toLawful
    · exact he.toLawful.trans (startStream_lawful _ (hu.trans (hseen (.inr (.inl rfl)))))
  · exact execRestart_lawful h
  · cases h; exact await_lawful _ (hseen (.inr (.inr rfl)))
  · exact he.toLawful

/-- Everything an instruction can do to `AW.aborted` (R16, R148, R160). -/
theorem exec_aborted {i : Instr} {s t : State} (h : exec i s = .next t) :
    t.aborted = s.aborted ∨ (t.aborted = false ∧ (ClearsAborted i ∨ .powerLoss ∈ s.news t)) ∨
    (ProgramsAW i ∧ t.aborted = true ∧ ∃ a d, .prog a d .err ∈ s.news t) := by
  rcases exec_effect h with hc | rfl | he
  · have ht : t.aborted = s.aborted ∨ t.aborted = false := by
      rcases hc with rfl | rfl | rfl | rfl
      · cases h; exact .inr rfl
      · cases h; exact .inr rfl
      · rcases execUpdateApp_cases h with he | ⟨u, -, -, rfl⟩
        · exact he.aborted.imp id fun hx => (hx.resolve_right fun hw => hw.1).1
        · exact .inr rfl
      · cases h; exact .inr rfl
    exact ht.imp id fun hf => .inl ⟨hf, .inl hc⟩
  · cases h; exact .inl rfl
  · exact he.aborted.imp id (Or.imp (fun ⟨hf, hl⟩ => ⟨hf, .inr hl⟩) id)

/-! ### The turn of the thread of control -/

theorem runDecoded_eq_next {d : Decoded} {s t : State} (h : runDecoded d s = .next t) : ∃ i, d = .instr i ∧ exec i s = .next t := by
  cases d with
  | instr i => exact ⟨i, rfl, h⟩
  | reject r => cases h

/-- A CMD record carries one of the four operations of the block (R51). -/
theorem decodeCmd_not_opensWait {maxChunk : Nat} {c : Cmd} {i : Instr} (h : decodeCmd maxChunk c = .instr i) : ¬ OpensWait i := by
  unfold decodeCmd at h
  split at h
  · cases h; simp [OpensWait]
  · split at h
    · split at h <;> cases h
      simp [OpensWait]
    · split at h <;> cases h <;> simp [OpensWait]

/-- A payload Frame is a FEED or the end of a stream (R63). -/
theorem decodePayload_not_opensWait {maxChunk : Nat} {appBase : Word} {f : List Byte} {i : Instr}
    (h : decodePayload maxChunk appBase f = .instr i) : ¬ OpensWait i := by
  unfold decodePayload at h
  split at h
  · split at h <;> cases h <;> simp [OpensWait]
  · cases h

theorem runCmd_lawful {c : Cmd} {s t : State} (h : runCmd c s = .next t) : Lawful s t := by
  obtain ⟨i, hi, hx⟩ := runDecoded_eq_next h
  exact exec_lawful hx fun ho => absurd ho (decodeCmd_not_opensWait hi)

/-- The three ends of a countdown, and what follows VERIFY's answer (R127, log 14). -/
theorem bootDecision_lawful {s t : State} (h : bootDecision s = .next t) : Lawful s t := by
  unfold bootDecision at h
  split at h
  · cases h; exact .of_regs fun hs => hs.taken (Nat.le_refl _) s.cmds s.wire s.frame
  · cases h
    exact .of_regs fun hs => ⟨hs.pending, Nat.le_refl _, hs.interrupts, hs.transport, nofun, nofun, hs.dispatcher⟩
  · rename_i hboot
    split at h
    · rename_i hseen
      cases h
      exact .of_regs fun hs => ⟨hs.pending, Nat.le_refl _, hs.interrupts, hs.transport, nofun, fun _ => hseen, hs.dispatcher⟩
    · obtain ⟨u, hu, hk⟩ := andThen_eq_next h
      have hv : Lawful s (jumpIfValid u) := ((execVerify_effect (w := False) hu).trans (jumpIfValid_effect u)).toLawful
      cases hk
      refine hv.trans ?_
      split
      · rename_i happ
        exact .of_regs fun hs => ⟨hs.pending, hs.ticks, hs.interrupts, hs.transport, fun _ => happ, nofun, hs.dispatcher⟩
      · exact .of_regs fun hs => hs.taken (Nat.le_refl _) _ _ _

/-- A command is seen before it is executed (R127); any other Frame is dropped (R62). -/
theorem idleFrame_lawful {f : List Byte} {s t : State} (h : idleFrame f s = .next t) : Lawful s t := by
  unfold idleFrame at h
  split at h
  · exact (Lawful.of_regs (t := s.seeCommand) RegsOk.seeCommand).trans (exec_lawful h fun _ => rfl)
  all_goals cases h; exact .refl s

theorem idleTick_lawful {s t : State} (h : idleTick s = .next t) : Lawful s t := by
  have htick (f : Option (List Byte)) : Lawful s { s with ticks := s.ticks - 1, frame := f } :=
    .of_regs fun hs => hs.taken (Nat.le_trans (Nat.sub_le ..) hs.ticks) s.cmds s.wire f
  unfold idleTick at h
  split at h
  · cases h; exact htick s.frame
  · exact (htick none).trans (idleFrame_lawful h)

theorem afterPayload_effect {w : Prop} (s : State) : Effect w s (afterPayload s) := by
  unfold afterPayload
  split
  · exact .refl s
  · split
    · exact .abortStream s
    · exact .refl s

theorem streamFrame_lawful {f : List Byte} {s t : State} (h : streamFrame f s = .next t) : Lawful s t := by
  obtain ⟨u, hu, hk⟩ := andThen_eq_next h
  obtain ⟨i, hi, hx⟩ := runDecoded_eq_next hu
  cases hk
  exact (exec_lawful hx fun ho => absurd ho (decodePayload_not_opensWait hi)).trans (afterPayload_effect (w := False) u).toLawful

theorem awaitFrame_lawful {op : MultiFrame} {s t : State} (h : awaitFrame op s = .next t) : Lawful s t := by
  have hpoll : Lawful s { s with frame := none } := .of_regs fun hs => hs.taken hs.ticks s.cmds s.wire none
  unfold awaitFrame at h
  split at h
  · cases h; exact .refl s
  · cases op with
    | writeChecksum => exact hpoll.trans (storeChecksum_effect (w := False) h).toLawful
    | programApp => exact hpoll.trans (streamFrame_lawful h)
    | updateApp => exact hpoll.trans (streamFrame_lawful h)

theorem hostTurn_lawful {s t : State} (h : hostTurn s = .next t) : Lawful s t := by
  unfold hostTurn at h
  split at h
  · exact awaitFrame_lawful h
  · split at h
    · exact bootDecision_lawful h
    · exact idleTick_lawful h

/-- A turn takes a CMD record where one is waiting (log 7), and keeps the rest. -/
theorem consumerTurn_lawful {s t : State} (h : consumerTurn s = .next t) : Lawful { s with cmds := t.cmds } t := by
  unfold consumerTurn at h
  split at h
  · have hk := runCmd_lawful h
    rw [hk.keeps.cmds]; exact hk
  · have hk := hostTurn_lawful h
    rw [hk.keeps.cmds]; exact hk

/-! ### The whole step -/

/-- What a whole step that leads from `s` to `t` keeps, losses of power and arrivals included. -/
structure StepKeeps (s t : State) : Prop where
  params : t.params = s.params
  outside : ∀ a, ¬ (s.params.appRegion.start ≤ a ∧ a < s.params.appRegion.stop) →
    ¬ (s.params.metaSector.start ≤ a ∧ a < s.params.metaSector.stop) → t.flash.read a = s.flash.read a
  wf : s.flash.wf = true → t.flash.wf = true
  inSpace : s.params.Ok → s.flash.inSpace → t.flash.inSpace
  regs : RegsOk s → RegsOk t

theorem StepKeeps.trans_flash {s t u : State} (h : StepKeeps s t) (hp : u.params = t.params) (hf : u.flash = t.flash)
    (hr : RegsOk t → RegsOk u) : StepKeeps s u where
  params := hp.trans h.params
  outside := by rw [hf]; exact h.outside
  wf := by rw [hf]; exact h.wf
  inSpace := by rw [hf]; exact h.inSpace
  regs := hr ∘ h.regs

theorem regsOk_powerLoss (s : State) : RegsOk (powerLoss s) := .of_lost (powerLoss_lost s s ⟨[], by simp⟩)

theorem regsOk_cutShort (k : Nat) (s t : State) : RegsOk (cutShort k s t) := by
  unfold cutShort
  split <;> exact regsOk_powerLoss _

/-- A turn runs to its end, or power is lost inside it (R163). -/
theorem interrupt_keeps {s t : State} (h : Lawful { s with cmds := t.cmds } t) : StepKeeps s (interrupt s t) := by
  obtain ⟨hk, hr⟩ := h
  have hend : StepKeeps s t := ⟨hk.params, hk.outside, hk.wf, hk.inSpace, fun hs => hr (hs.taken hs.ticks t.cmds s.wire s.frame)⟩
  unfold interrupt
  split
  · split
    · rename_i k _
      obtain ⟨hp, -, -, -, ho, hf, hi⟩ := cutShort_keeps hk.records hk.params hk.wire k hk.outside hk.wf hk.inSpace
      exact ⟨hp, ho, hf, hi, fun _ => regsOk_cutShort k s t⟩
    · exact hend
  · exact hend

/-- An arrival fills the slot, is dropped, or is a hardware reset (R116, R163). -/
theorem StepKeeps.arrive {s t : State} (h : StepKeeps s t) (a : Arrival) : StepKeeps s (arrive t a) := by
  cases a with
  | powerLoss => exact h.trans_flash rfl rfl fun _ => regsOk_powerLoss t
  | frame f =>
    unfold Machine.arrive
    dsimp only
    split
    · exact h.trans_flash rfl rfl fun ht => ht.taken ht.ticks t.cmds t.wire (some f)
    · exact h

theorem StepKeeps.deliver {s t : State} (h : StepKeeps s t) : StepKeeps s (deliver t) := by
  unfold Machine.deliver
  split
  · rename_i now later _
    exact List.foldlRecOn now.arrivals Machine.arrive (h.trans_flash rfl rfl fun ht => ht.taken ht.ticks t.cmds later t.frame)
      fun u hu a _ => hu.arrive a
  · exact h

/-- What every step keeps, from every state. -/
theorem step_keeps {s t : State} (h : step s = .next t) : StepKeeps s t := by
  unfold step at h
  split at h
  · cases h
  · obtain ⟨u, hu, hk⟩ := andThen_eq_next h
    cases hk
    exact (interrupt_keeps (consumerTurn_lawful hu)).deliver

/-! ### The obligations -/

/-- Settles O9: a step keeps the constants, so they meet R6 as before; it keeps the canonical form of the flash; and it keeps the
registers within the invariant. -/
theorem stepKeepsInvariant : Obligations.StepKeepsInvariant := by
  intro s t hs h
  obtain ⟨hparams, hwf, hspace, hregs⟩ := (inv_iff s).1 hs
  have hk := step_keeps h
  exact (inv_iff t).2 ⟨by rw [hk.params]; exact hparams, hk.wf hwf, hk.inSpace hparams hspace, hk.regs hregs⟩

/-- Settles O10 (R17). -/
theorem stepKeepsConstants : Obligations.StepKeepsConstants := fun _ _ h => (step_keeps h).params

/-- Settles O20: FEED advances the counter by eights (R12, R38), and a loss of power inside it resets the counter to 0. -/
theorem feedKeepsCountAligned : Obligations.FeedKeepsCountAligned := by
  intro s t base chunk hs h
  obtain ⟨-, hl | ⟨-, hmod, -⟩⟩ := execFeed_spec h
  · rw [hl.count]; rfl
  · rw [hmod, hs]

/-- Settles O29: of the three things an instruction can do to the flag, one clears it and one raises it. -/
theorem onlyBeginAndResetClearAborted : Obligations.OnlyBeginAndResetClearAborted := by
  intro s t i h
  refine ⟨fun hs ht => ?_, fun hs ht => ?_⟩
  · rcases exec_aborted h with hsame | ⟨-, hc | hl⟩ | ⟨-, hraised, -⟩
    · rw [hs, ht] at hsame; cases hsame
    · rcases hc with hi | hi | hi | hi <;> simp [hi]
    · exact .inr (.inr (.inr (.inr hl)))
    · rw [ht] at hraised; cases hraised
  · rcases exec_aborted h with hsame | ⟨hcleared, -⟩ | ⟨hw, -, herr⟩
    · rw [hs, ht] at hsame; cases hsame
    · rw [ht] at hcleared; cases hcleared
    · exact ⟨hw, herr⟩

/-- Settles O7: the reset state holds the values of R24, R117 and R127 as they are written (log 18 for the host's). -/
theorem resetLeavesAccumulatorEmpty : Obligations.ResetLeavesAccumulatorEmpty := ⟨rfl, rfl, rfl, rfl, rfl, rfl, rfl, rfl, rfl⟩

end Sys2Proof.Proofs
end

section
/-! Proofs of the family 20_memory.md: which flash bytes an operation can change, which action a step runs, and where the machine
refuses by name. -/

namespace Sys2Proof.Proofs
open Sys2Proof Sys2Proof.Machine

/-! ### Programs of unit AW stay inside the application region -/

/-- No program of unit AW changes a byte outside the application region, however it ends (R31, R78; log 1). -/
theorem awProgram_inside {d : DWord} {n : Nat} {s : State} {p : PortResult × State} (h : awProgram d n s = .next p) {a : Nat}
    (ha : ¬ (s.params.appRegion.start ≤ a ∧ a < s.params.appRegion.stop)) : p.2.flash.read a = s.flash.read a := by
  rcases awProgram_cases h with ⟨rfl, -⟩ | ⟨-, q, hq, hend⟩
  · simp
  · have hread : q.2.flash.read a = s.flash.read a := flashProgram_inside hq ha
    rcases hend with ⟨-, -, rfl⟩ | ⟨-, rfl⟩ | ⟨-, rfl⟩ <;> exact hread

/-- Nor does a run of them: no program of the run changes the region it is declared in (R17). -/
theorem awProgramAll_inside {ds : List DWord} {s : State} {p : PortResult × State} (h : awProgramAll ds s = .next p) {a : Nat}
    (ha : ¬ (s.params.appRegion.start ≤ a ∧ a < s.params.appRegion.stop)) : p.2.flash.read a = s.flash.read a := by
  induction ds generalizing s with
  | nil => cases h; rfl
  | cons d ds ih =>
    obtain ⟨⟨r, t⟩, hfirst, hrest⟩ := andThen_eq_next h
    have hread : t.flash.read a = s.flash.read a := awProgram_inside hfirst ha
    have hparams : t.params = s.params := (awProgram_keeps hfirst).1
    cases r with
    | ok => exact (ih hrest (by rw [hparams]; exact ha)).trans hread
    | err => cases hrest; exact hread
    | lost => cases hrest; exact hread

theorem execFeed_inside {s t : State} {base : Word} {chunk : List Byte} (h : execFeed base chunk s = .next t) {a : Nat}
    (ha : ¬ (s.params.appRegion.start ≤ a ∧ a < s.params.appRegion.stop)) : t.flash.read a = s.flash.read a := by
  rcases execFeed_cases h with ⟨-, rfl⟩ | ⟨-, -, -, rfl⟩ | ⟨-, b, x, hx, -, hend⟩
  · rfl
  · rfl
  · have hread : x.2.flash.read a = s.flash.read a := awProgramAll_inside hx ha
    rcases hend with ⟨-, rfl⟩ | ⟨-, rfl⟩ <;> exact hread

theorem execFinish_inside {s t : State} (h : execFinish s = .next t) {a : Nat}
    (ha : ¬ (s.params.appRegion.start ≤ a ∧ a < s.params.appRegion.stop)) : t.flash.read a = s.flash.read a := by
  rcases execFinish_cases h with ⟨-, rfl⟩ | ⟨-, -, rfl⟩ | ⟨-, -, x, hx, hend⟩
  · rfl
  · rfl
  · have hread : x.2.flash.read a = s.flash.read a := awProgram_inside hx ha
    rcases hend with ⟨-, rfl⟩ | ⟨-, rfl⟩ <;> exact hread

/-! ### The action a step runs -/

/-- A waiting CMD record is decoded and run before the host's loop has its turn (R41, R51; log 7). -/
theorem step_cmd {s : State} {c : Cmd} {rest : List Cmd} (happ : s.app = none) (hcmds : s.cmds = c :: rest) :
    step s = andThen (runDecoded (decode s.params.maxChunk s.params.appBase .command (.cmd c)) { s with cmds := rest }) fun t =>
      .next (finishStep s t) := by
  simp only [step, happ, consumerTurn, hcmds, runCmd, decode]

/-- With no CMD record waiting the host has its turn (R117, R127). -/
theorem step_hostTurn {s : State} (happ : s.app = none) (hcmds : s.cmds = []) :
    step s = andThen (hostTurn s) fun t => .next (finishStep s t) := by
  simp only [step, happ, consumerTurn, hcmds]

/-- A command Frame polled in `Idle` (R116, R117, R127). -/
theorem hostTurn_commandFrame {s : State} {f : List Byte} {i : Instr} (hdisp : s.dispatcher = .idle) (hticks : s.ticks ≠ 0)
    (hframe : s.frame = some f) (hdec : decode s.params.maxChunk s.params.appBase .command (.frame f) = .instr i) :
    hostTurn s = exec i { s with ticks := s.ticks - 1, frame := none, commandSeen := true } := by
  simp only [hostTurn, hdisp, if_neg hticks, idleTick, hframe, idleFrame, hdec, State.seeCommand]

/-- A payload Frame of a ProgramApp or UpdateApp is decoded and run, and the host looks at the response (R119, R125). -/
theorem hostTurn_payloadFrame {s : State} {f : List Byte} {op : MultiFrame} (hdisp : s.dispatcher = .awaitingMore op)
    (hop : op ≠ .writeChecksum) (hframe : s.frame = some f) :
    hostTurn s = andThen (runDecoded (decode s.params.maxChunk s.params.appBase .stream (.frame f)) { s with frame := none }) fun t =>
      .next (afterPayload t) := by
  cases op with
  | writeChecksum => exact absurd rfl hop
  | programApp => simp only [hostTurn, hdisp, awaitFrame, hframe, streamFrame]
  | updateApp => simp only [hostTurn, hdisp, awaitFrame, hframe, streamFrame]

theorem step_commandFrame {s : State} {f : List Byte} {i : Instr} (happ : s.app = none) (hcmds : s.cmds = [])
    (hdisp : s.dispatcher = .idle) (hticks : s.ticks ≠ 0) (hframe : s.frame = some f)
    (hdec : decode s.params.maxChunk s.params.appBase .command (.frame f) = .instr i) :
    step s = andThen (exec i { s with ticks := s.ticks - 1, frame := none, commandSeen := true }) fun t =>
      .next (finishStep s t) := by
  rw [step_hostTurn happ hcmds, hostTurn_commandFrame hdisp hticks hframe hdec]

theorem step_payloadFrame {s : State} {f : List Byte} {op : MultiFrame} (happ : s.app = none) (hcmds : s.cmds = [])
    (hdisp : s.dispatcher = .awaitingMore op) (hop : op ≠ .writeChecksum) (hframe : s.frame = some f) :
    step s = andThen (runDecoded (decode s.params.maxChunk s.params.appBase .stream (.frame f)) { s with frame := none }) fun t =>
      .next (finishStep s (afterPayload t)) := by
  rw [step_hostTurn happ hcmds, hostTurn_payloadFrame hdisp hop hframe, andThen_assoc]
  rfl

/-! ### Where a row's word of the table is placed -/

theorem decoded_instr_eq_some {d : Decoded} {i : Instr} : d.instr? = some i ↔ d = .instr i := by
  cases d <;> simp [Decoded.instr?]

@[simp] theorem bytesOfTable_length (n w : Nat) : (bytesOfTable n w).length = n := by
  induction n with
  | zero => rfl
  | succ n ih => simp [bytesOfTable, ih]

/-- `MAX_CHUNK` bounds no record without a chunk (R52). -/
theorem decodeCmd_emptyChunk (m m' : Nat) (op : BitVec 2) (base : Word) : decodeCmd m ⟨op, base, []⟩ = decodeCmd m' ⟨op, base, []⟩ := by
  simp [decodeCmd]

/-- A CMD record carries no end-of-stream marker (R51, R63). -/
theorem contextOf_decodeCmd {m : Nat} {c : Cmd} {i : Instr} (h : decodeCmd m c = .instr i) : contextOf i = .command := by
  unfold decodeCmd at h
  split_ifs at h <;> cases h <;> rfl

theorem contextOf_commandOf {b : Byte} {i : Instr} (h : commandOf b = some i) : contextOf i = .command := by
  unfold commandOf at h
  split_ifs at h <;> cases h <;> rfl

/-- The end-of-stream marker is "not a command in Idle" (R62). -/
theorem contextOf_decodeCommand {f : List Byte} {i : Instr} (h : decodeCommand f = .instr i) : contextOf i = .command := by
  unfold decodeCommand at h
  split at h
  · split at h
    · split at h
      · cases h; exact contextOf_commandOf ‹_›
      · cases h
    · cases h
  · cases h

theorem decodePayload_marked {m : Nat} {f data : List Byte} (appBase : Word) (hmark : stripMarker f = some data)
    (hlen : f.length ≤ m) : decodePayload m appBase f = .instr (.hostEndOfStream data) := by
  simp only [decodePayload, if_pos hlen, hmark]

/-- A payload Frame is decoded only where `MAX_CHUNK` allows its length (R52). -/
theorem decodePayload_length {m : Nat} {appBase : Word} {f : List Byte} {i : Instr} (h : decodePayload m appBase f = .instr i) :
    f.length ≤ m := by
  by_contra hlen
  simp [decodePayload, hlen] at h

theorem contextOfPacket_unmarked {f : List Byte} (h : stripMarker f = none) : contextOfPacket (.frame f) = .command := by
  rw [contextOfPacket, h]

theorem contextOfPacket_marked {f data : List Byte} (h : stripMarker f = some data) : contextOfPacket (.frame f) = .stream := by
  rw [contextOfPacket, h]

/-- A row's word is a CMD record without a chunk, a Frame for `Idle`, or a Frame that ends a stream (R51, R61, R63). -/
theorem decodeTableWord_cases {nbits w : Nat} {i : Instr} (h : decodeTableWord nbits w = some i) :
    (∃ op, packetOfTable nbits w = .cmd ⟨op, 0#32, []⟩ ∧ ∀ m, decodeCmd m ⟨op, 0#32, []⟩ = .instr i) ∨
    (∃ f, packetOfTable nbits w = .frame f ∧ stripMarker f = none ∧ decodeCommand f = .instr i) ∨
    (∃ f data, packetOfTable nbits w = .frame f ∧ f.length = nbits / 8 ∧ stripMarker f = some data ∧ i = .hostEndOfStream data) := by
  have hdec : decode Params.sample.maxChunk Params.sample.appBase (contextOfPacket (packetOfTable nbits w)) (packetOfTable nbits w) =
      .instr i := decoded_instr_eq_some.1 h
  by_cases hbits : nbits ≤ 8
  · have hpacket : packetOfTable nbits w = .cmd ⟨BitVec.ofNat 2 w, 0#32, []⟩ := if_pos hbits
    rw [hpacket] at hdec
    exact .inl ⟨_, hpacket, fun m => (decodeCmd_emptyChunk ..).trans hdec⟩
  · have hpacket : packetOfTable nbits w = .frame (bytesOfTable (nbits / 8) w) := if_neg hbits
    rw [hpacket] at hdec
    cases hmark : stripMarker (bytesOfTable (nbits / 8) w) with
    | none =>
      rw [contextOfPacket_unmarked hmark] at hdec
      exact .inr (.inl ⟨_, hpacket, hmark, hdec⟩)
    | some data =>
      rw [contextOfPacket_marked hmark] at hdec
      have hinstr := (decodePayload_marked _ hmark (decodePayload_length hdec)).symm.trans hdec
      exact .inr (.inr ⟨_, data, hpacket, bytesOfTable_length .., hmark, (Decoded.instr.inj hinstr).symm⟩)

theorem withFetchWord_cmd {nbits w : Nat} {c : Cmd} (s : State) (hpacket : packetOfTable nbits w = .cmd c) :
    s.withFetchWord nbits w = { s with app := none, cmds := c :: s.cmds } := by
  rw [State.withFetchWord, hpacket, placePacket]

theorem withFetchWord_commandFrame {nbits w : Nat} {f : List Byte} (s : State) (hpacket : packetOfTable nbits w = .frame f)
    (hmark : stripMarker f = none) : s.withFetchWord nbits w =
      { s with app := none, cmds := [], frame := some f, dispatcher := .idle, ticks := max 1 s.ticks } := by
  simp only [State.withFetchWord, hpacket, placePacket, contextOfPacket_unmarked hmark]

theorem withFetchWord_payloadFrame {nbits w : Nat} {f data : List Byte} (s : State) (hpacket : packetOfTable nbits w = .frame f)
    (hmark : stripMarker f = some data) : s.withFetchWord nbits w =
      { s with app := none, cmds := [], frame := some f, dispatcher := .awaitingMore .programApp } := by
  simp only [State.withFetchWord, hpacket, placePacket, contextOfPacket_marked hmark]

/-! ### Where the machine refuses -/

theorem decode_oversizeCmd {m : Nat} {c : Cmd} (appBase : Word) (ctx : Context) (hop : c.op = 1#2) (hlen : m < c.chunk.length) :
    decode m appBase ctx (.cmd c) = .reject .oversize := by
  simp [decode, decodeCmd, hop, Nat.not_le.2 hlen]

theorem decode_oversizePayload {m : Nat} {f : List Byte} (appBase : Word) (hlen : m < f.length) :
    decode m appBase .stream (.frame f) = .reject .oversize := by
  simp [decode, decodePayload, Nat.not_le.2 hlen]

/-- An erase of partial pages is refused where power holds (R104, U14; log 21). -/
theorem flashErase_partialPages {r : Region} {s : State} (hpages : ¬ r.wholePages s.params.pageSize)
    (hpower : s.answers.head? ≠ some .lostBefore) : flashErase r s = .refused .partialPageErase := by
  unfold flashErase
  rw [if_neg hpages, orLost_stop hpower]

/-- A field write that passes the guard of R123 rewrites the sector (R122). -/
theorem writeField_rewrites {off : Nat} {bs : List Byte} {s : State} (h : off + bs.length ≤ s.params.metaMax) :
    writeField off bs s = rewriteSector (patch (s.flash.readBytes s.params.metaBase.toNat s.params.metaSectorSize) off bs)
      (s.flashRead s.params.metaBase s.params.metaSectorSize) := if_neg (Nat.not_lt.2 h)

theorem rewriteSector_partialPages {scratch : List Byte} {s : State} (hpages : ¬ s.params.metaSector.wholePages s.params.pageSize)
    (hpower : s.answers.head? ≠ some .lostBefore) : rewriteSector scratch s = .refused .partialPageErase := by
  rw [rewriteSector, flashErase_partialPages hpages hpower, andThen_refused]

theorem execUpdateApp_partialPages {s : State} (hpages : ¬ s.params.appRegion.wholePages s.params.pageSize)
    (hpower : s.answers.head? ≠ some .lostBefore) : execUpdateApp s = .refused .partialPageErase := by
  rw [execUpdateApp, flashErase_partialPages hpages hpower, andThen_refused]

/-! ### The obligations -/

/-- Settles O28: FEED and FINISH change flash by programs of unit AW only, and these stay inside the application region. -/
theorem writerStaysInRegion : Obligations.WriterStaysInRegion := by
  rintro s t i (rfl | ⟨base, chunk, rfl⟩) h a ha
  · exact execFinish_inside h ha
  · exact execFeed_inside h ha

/-- Settles O60: what every step keeps, losses of power and arrivals included. -/
theorem stepWritesOnlyDeclaredRegions : Obligations.StepWritesOnlyDeclaredRegions := fun _ _ h => (step_keeps h).outside

/-- Settles O11: each kind of packet has its lemma about the step that polls it. -/
theorem stepRunsDecoded : Obligations.StepRunsDecoded := by
  refine ⟨fun s c rest i happ hcmds hdec => ?_, fun s f i happ hcmds hdisp hticks hframe hdec => ?_,
    fun s f i op happ hcmds hdisp hop hframe hdec => ?_⟩
  · rw [step_cmd happ hcmds, hdec]; rfl
  · exact step_commandFrame happ hcmds hdisp hticks hframe hdec
  · rw [step_payloadFrame happ hcmds hdisp hop hframe, hdec]; rfl

/-- Settles O12: each kind of packet is placed where the step that polls it reads it; only the length of a Frame that ends a stream
is tested against `MAX_CHUNK`. -/
theorem fetchWordRuns : Obligations.FetchWordRuns := by
  intro s nbits w i hi hlen
  obtain ⟨hcmd, hcommand, hpayload⟩ := stepRunsDecoded
  rcases decodeTableWord_cases hi with ⟨op, hpacket, hdec⟩ | ⟨f, hpacket, hmark, hdec⟩ | ⟨f, data, hpacket, hf, hmark, rfl⟩
  · rw [withFetchWord_cmd s hpacket, contextOf_decodeCmd (hdec 0)]
    refine ⟨{ s with app := none }, rfl, rfl, rfl, rfl, rfl, rfl, rfl, rfl, rfl, rfl, ?_⟩
    exact hcmd _ _ s.cmds i rfl rfl (hdec _)
  · rw [withFetchWord_commandFrame s hpacket hmark, contextOf_decodeCommand hdec]
    have hticks : max 1 s.ticks ≠ 0 := by omega
    refine ⟨{ s with app := none, cmds := [], frame := none, dispatcher := .idle, ticks := max 1 s.ticks - 1, commandSeen := true },
      rfl, rfl, rfl, rfl, rfl, rfl, rfl, rfl, rfl, rfl, ?_⟩
    exact hcommand _ f i rfl rfl rfl hticks rfl hdec
  · rw [withFetchWord_payloadFrame s hpacket hmark]
    refine ⟨{ s with app := none, cmds := [], frame := none, dispatcher := .awaitingMore .programApp },
      rfl, rfl, rfl, rfl, rfl, rfl, rfl, rfl, rfl, rfl, ?_⟩
    exact hpayload _ f _ .programApp rfl rfl rfl (by decide) rfl
      (decodePayload_marked _ hmark (by rw [hf]; exact hlen rfl))

/-- Settles O33: the address is tested before the region and before the environment is asked (D20; log 26). -/
theorem misalignedProgramRefused : Obligations.MisalignedProgramRefused := by
  intro r addr d s hmis
  have herr : flashProgram r addr d s = .next (.err, s.log (.prog addr d .err)) := if_pos hmis
  exact ⟨_, herr, rfl, fun _ => rfl⟩

/-- Settles O58: the application runs, the decoder rejects, or the erase is refused. -/
theorem refusalsByName : Obligations.RefusalsByName := by
  refine fun s => ⟨fun l happ => ?_, fun c rest happ hcmds hop hlen => ?_, fun f op happ hcmds hdisp hop hframe hlen => ?_,
    execUpdateApp_partialPages, fun off bs hfits hpages hpower => ?_⟩
  · simp only [step, happ]
  · rw [step_cmd happ hcmds, decode_oversizeCmd _ _ hop hlen]; rfl
  · rw [step_payloadFrame happ hcmds hdisp hop hframe, decode_oversizePayload _ hlen]; rfl
  · rw [writeField_rewrites hfits]
    exact rewriteSector_partialPages hpages hpower

end Sys2Proof.Proofs
end

section
/-! Proofs of the family 30_encoding.md: what each kind of packet decodes to, that encoding is inverted and bounds are kept, and which
Frames are dropped in `Idle`. -/

namespace Sys2Proof.Proofs
open Sys2Proof Sys2Proof.Machine

/-! ### CMD records -/

/-- A CMD record means the same in either context (R51). -/
@[simp] theorem decode_cmd (maxChunk : Nat) (appBase : Word) (ctx : Context) (c : Cmd) :
    decode maxChunk appBase ctx (.cmd c) = decodeCmd maxChunk c := by
  cases ctx <;> rfl

theorem decodeCmd_feed {maxChunk : Nat} {chunk : List Byte} (base : Word) (hlen : chunk.length ≤ maxChunk) :
    decodeCmd maxChunk ⟨1#2, base, chunk⟩ = .instr (.awFeed base chunk) := if_pos hlen

/-- Only a chunk longer than `MAX_CHUNK` is no record (R52). -/
theorem decodeCmd_accepts {maxChunk : Nat} {c : Cmd} (hlen : c.chunk.length ≤ maxChunk) : ∃ i, decodeCmd maxChunk c = .instr i := by
  unfold decodeCmd
  split_ifs <;> exact ⟨_, rfl⟩

theorem decodeCmd_wellFormed {maxChunk : Nat} {c : Cmd} {i : Instr} (h : decodeCmd maxChunk c = .instr i) :
    WellFormed maxChunk i = true := by
  unfold decodeCmd at h
  split_ifs at h with _ _ hlen <;> cases h
  · rfl
  · exact decide_eq_true hlen
  · rfl
  · rfl

/-! ### Command Frames -/

/-- The table of R61, row by row. -/
theorem commandOf_eq_some {b : Byte} {i : Instr} : commandOf b = some i ↔
    (b = 0x01#8 ∧ i = .hostConnect) ∨ (b = 0x02#8 ∧ i = .hostEraseApp) ∨ (b = 0x04#8 ∧ i = .hostProgramApp) ∨
    (b = 0x05#8 ∧ i = .hostWriteChecksum) ∨ (b = 0xF2#8 ∧ i = .hostRestart) ∨ (b = 0xF3#8 ∧ i = .hostJumpToApp) ∨
    (b = 0xF4#8 ∧ i = .hostVerifyAndJump) ∨ (b = 0xF5#8 ∧ i = .hostUpdateApp) := by
  constructor
  · intro h
    unfold commandOf at h
    split_ifs at h <;> cases h <;> simp [*]
  · rintro (⟨rfl, rfl⟩ | ⟨rfl, rfl⟩ | ⟨rfl, rfl⟩ | ⟨rfl, rfl⟩ | ⟨rfl, rfl⟩ | ⟨rfl, rfl⟩ | ⟨rfl, rfl⟩ | ⟨rfl, rfl⟩) <;> rfl

theorem commandOf_wellFormed {b : Byte} {i : Instr} (maxChunk : Nat) (h : commandOf b = some i) : WellFormed maxChunk i = true := by
  obtain ⟨_, rfl⟩ | ⟨_, rfl⟩ | ⟨_, rfl⟩ | ⟨_, rfl⟩ | ⟨_, rfl⟩ | ⟨_, rfl⟩ | ⟨_, rfl⟩ | ⟨_, rfl⟩ := commandOf_eq_some.1 h <;> rfl

/-- A Frame in `Idle` is a command by its marker and the table, whatever follows (R61, R62, D31). -/
theorem decodeCommand_eq_instr {f : List Byte} {i : Instr} :
    decodeCommand f = .instr i ↔ ∃ b rest, f = 0xFE#8 :: 0xA5#8 :: b :: rest ∧ commandOf b = some i := by
  constructor
  · intro h
    unfold decodeCommand at h
    split at h
    case h_1 b0 b1 b rest =>
      split at h
      case isTrue hmark =>
        obtain ⟨rfl, rfl⟩ := hmark
        split at h
        case h_1 hcode => cases h; exact ⟨b, rest, rfl, hcode⟩
        case h_2 => cases h
      case isFalse => cases h
    case h_2 => cases h
  · rintro ⟨b, rest, rfl, hcode⟩
    simp [decodeCommand, hcode]

/-! ### Payload Frames -/

/-- The marker is found exactly where it is a suffix (R63). -/
theorem stripMarker_eq_some {f data : List Byte} : stripMarker f = some data ↔ f = data ++ endMarker := by
  constructor
  · intro h
    unfold stripMarker at h
    split_ifs at h with hmark
    cases h
    rw [← hmark.2, List.take_append_drop]
  · rintro rfl
    have hlen : (data ++ endMarker).length - 3 = data.length := by simp [endMarker]
    rw [stripMarker, hlen, List.drop_left, List.take_left, if_pos ⟨by simp [endMarker], rfl⟩]

theorem decodePayload_unmarked {maxChunk : Nat} {f : List Byte} (appBase : Word) (hmark : stripMarker f = none)
    (hlen : f.length ≤ maxChunk) : decodePayload maxChunk appBase f = .instr (.awFeed appBase f) := by
  simp only [decodePayload, if_pos hlen, hmark]

theorem decodePayload_wellFormed {maxChunk : Nat} {appBase : Word} {f : List Byte} {i : Instr}
    (h : decodePayload maxChunk appBase f = .instr i) : WellFormed maxChunk i = true := by
  have hlen : f.length ≤ maxChunk := decodePayload_length h
  cases hmark : stripMarker f with
  | none =>
    rw [decodePayload_unmarked appBase hmark hlen] at h
    cases h
    exact decide_eq_true hlen
  | some data =>
    rw [decodePayload_marked appBase hmark hlen] at h
    cases h
    rw [stripMarker_eq_some.1 hmark, List.length_append] at hlen
    exact decide_eq_true hlen

/-! ### Words of the opcode table -/

/-- The packet of an instruction is placed where its own context reads it (R62, R63). -/
theorem contextOfPacket_encode (i : Instr) : contextOfPacket (encode i) = contextOf i := by
  cases i with
  | hostEndOfStream data => exact contextOfPacket_marked (stripMarker_eq_some.2 rfl)
  | _ => rfl

/-! ### Frames in `Idle` that are no command -/

theorem idleFrame_dropped {f : List Byte} (s : State) (h : ∀ i, decodeCommand f ≠ .instr i) : idleFrame f s = .next s := by
  unfold idleFrame
  split
  case h_1 i hdec => exact absurd hdec (h i)
  all_goals rfl

theorem hostTurn_droppedFrame {s : State} {f : List Byte} (hdisp : s.dispatcher = .idle) (hticks : s.ticks ≠ 0)
    (hframe : s.frame = some f) (h : ∀ i, decodeCommand f ≠ .instr i) :
    hostTurn s = .next { s with ticks := s.ticks - 1, frame := none } := by
  simp only [hostTurn, hdisp, if_neg hticks, idleTick, hframe, idleFrame_dropped _ h]

/-- The end-of-stream marker carries a code outside the table (R61, R62). -/
theorem decodeCommand_endMarker (i : Instr) : decodeCommand endMarker ≠ .instr i := nofun

theorem execEndOfStream_idle {s : State} (data : List Byte) (hdisp : s.dispatcher = .idle) : execEndOfStream data s = .next s := by
  rw [execEndOfStream, hdisp]

/-! ### The obligations -/

/-- Settles O3: only FEED and the end of a stream carry operands, which come back because their packets are within `MAX_CHUNK`; every other
packet is a constant. -/
theorem decodeOfEncode : Obligations.DecodeOfEncode := by
  intro maxChunk appBase i hwf
  cases i with
  | awFeed base chunk => exact decodeCmd_feed base (of_decide_eq_true hwf)
  | hostEndOfStream data =>
    have hlen : (data ++ endMarker).length ≤ maxChunk := List.length_append ▸ of_decide_eq_true hwf
    exact decodePayload_marked appBase (stripMarker_eq_some.2 rfl) hlen
  | _ => rfl

/-- Settles O4: by the three kinds of packet. -/
theorem decodedIsWellFormed : Obligations.DecodedIsWellFormed := by
  intro maxChunk appBase ctx p i h
  cases p with
  | cmd c => exact decodeCmd_wellFormed ((decode_cmd ..).symm.trans h)
  | frame f =>
    cases ctx with
    | command =>
      obtain ⟨b, rest, -, hcode⟩ := decodeCommand_eq_instr.1 h
      exact commandOf_wellFormed maxChunk hcode
    | stream => exact decodePayload_wellFormed h

/-- Settles O5: `stripMarker` decides which of the two a payload Frame is. -/
theorem endMarkerIsSuffix : Obligations.EndMarkerIsSuffix := by
  refine ⟨fun _ _ => stripMarker_eq_some, fun maxChunk appBase f hlen => ⟨fun data hf => ?_, fun hf => ?_⟩⟩
  · exact decodePayload_marked appBase (stripMarker_eq_some.2 hf) hlen
  · have hmark : stripMarker f = none := Option.eq_none_iff_forall_ne_some.2 fun data h => hf data (stripMarker_eq_some.1 h)
    exact decodePayload_unmarked appBase hmark hlen

/-- Settles O6: the form of the Frame, then the table. -/
theorem commandFrames : Obligations.CommandFrames := by
  intro f i
  simp only [decodeCommand_eq_instr, commandOf_eq_some]

/-- Settles O54: the poll drops the Frame, and nothing from outside lands after it. -/
theorem unknownFramesDropped : Obligations.UnknownFramesDropped := by
  refine ⟨fun s f happ hcmds hwire hdisp hticks hframe hdec => ?_, fun s data hdisp => ⟨decodeCommand_endMarker, ?_⟩⟩
  · rw [step_hostTurn happ hcmds, hostTurn_droppedFrame hdisp hticks hframe hdec, andThen_next]
    exact congrArg Host.Outcome.next (finishStep_quiet hwire hwire)
  · exact execEndOfStream_idle data hdisp

/-- A word that is the packet of a well-formed instruction decodes to it, at the sample's `MAX_CHUNK` (log 2). -/
theorem decodeTableWord_of_encode {nbits w : Nat} {i : Instr} (hpacket : packetOfTable nbits w = encode i)
    (hwf : WellFormed Params.sample.maxChunk i = true) : decodeTableWord nbits w = some i := by
  have hdec := decodeOfEncode Params.sample.maxChunk Params.sample.appBase i hwf
  simp only [decodeTableWord, hpacket, contextOfPacket_encode, hdec, Decoded.instr?]

/-- Settles O1: each row's word is the packet of its instruction, which `decodeOfEncode` gives back; the two codes outside the table and
the status codes are evaluated. -/
theorem tableWordsDecode : Obligations.TableWordsDecode :=
  ⟨decodeTableWord_of_encode rfl rfl, decodeTableWord_of_encode rfl rfl, decodeTableWord_of_encode rfl rfl,
    decodeTableWord_of_encode rfl rfl, decodeTableWord_of_encode rfl rfl, decodeTableWord_of_encode rfl rfl,
    decodeTableWord_of_encode rfl rfl, decodeTableWord_of_encode rfl rfl, decodeTableWord_of_encode rfl rfl,
    rfl, rfl, rfl, rfl, rfl⟩

/-- Settles O2: the clause of each `op` is its branch of the decoder. -/
theorem cmdFormat : Obligations.CmdFormat := by
  intro maxChunk appBase base ctx chunk
  simp only [decode_cmd]
  exact ⟨rfl, rfl, rfl, rfl, fun op hlen => decodeCmd_accepts hlen⟩

end Sys2Proof.Proofs
end

section
/-! Proofs of the family 40_alignment_writer.md: what BEGIN, FEED and FINISH do where every program answers `Ok`, where one fails and
however they end; that the segmentation of an image and the stale bytes of the buffer cannot be observed; and which commands leave the
flash alone. -/

namespace Sys2Proof.Proofs
open Sys2Proof Sys2Proof.Machine

/-! ### Byte sequences and double-words -/

theorem wordsOf_flatten_append (ds : List DWord) (bs : List Byte) :
    wordsOf ((ds.map (·.toList)).flatten ++ bs) = ds ++ wordsOf bs := by
  induction ds with
  | nil => rfl
  | cons d ds ih => simp only [List.map_cons, List.flatten_cons, List.append_assoc, wordsOf_append, ih, List.cons_append]

theorem tailOf_flatten_append (ds : List DWord) (bs : List Byte) : tailOf ((ds.map (·.toList)).flatten ++ bs) = tailOf bs := by
  induction ds with
  | nil => rfl
  | cons d ds ih => simp only [List.map_cons, List.flatten_cons, List.append_assoc, tailOf_append, ih]

/-- Bytes that follow a sequence are grouped with its tail (R74, R81). -/
theorem wordsOf_append_bytes (xs ys : List Byte) : wordsOf (xs ++ ys) = wordsOf xs ++ wordsOf (tailOf xs ++ ys) := by
  conv_lhs => rw [← words_tail xs, List.append_assoc, wordsOf_flatten_append]

theorem tailOf_append_bytes (xs ys : List Byte) : tailOf (xs ++ ys) = tailOf (tailOf xs ++ ys) := by
  conv_lhs => rw [← words_tail xs, List.append_assoc, tailOf_flatten_append]

/-- The first `k` groups hold the first `8 * k` bytes. -/
theorem flatten_take_wordsOf {bs : List Byte} {k : Nat} (hk : k ≤ bs.length / 8) :
    (((wordsOf bs).take k).map (·.toList)).flatten = bs.take (8 * k) := by
  have hlen : (((wordsOf bs).take k).map (·.toList)).flatten.length = 8 * k := by
    rw [flatten_dwords_length, List.length_take, wordsOf_length, Nat.min_eq_left hk]
  have hsplit : (((wordsOf bs).take k).map (·.toList)).flatten ++
      ((((wordsOf bs).drop k).map (·.toList)).flatten ++ tailOf bs) = bs := by
    rw [← List.append_assoc, ← List.flatten_append, ← List.map_append, List.take_append_drop, words_tail]
  conv_rhs => rw [← hsplit, ← hlen, List.take_left]

/-- Bytes filled up with `0xFF` read as the bytes alone do, an address behind them being erased. -/
theorem getD_padded (bs : List Byte) (n j : Nat) :
    ((bs ++ List.replicate n erasedByte)[j]?).getD erasedByte = (bs[j]?).getD erasedByte := by
  rw [List.getElem?_append]
  split
  · rfl
  · rename_i hj
    rw [List.getElem?_eq_none (Nat.not_lt.1 hj), List.getElem?_replicate]
    split <;> rfl

theorem read_writeBytes_take {m : Memory} (hwf : m.wf = true) (lo : Nat) {bs : List Byte} {n : Nat} (hn : n ≤ bs.length) (a : Nat) :
    (m.writeBytes lo (bs.take n)).read a = if lo ≤ a ∧ a < lo + n then (bs[a - lo]?).getD erasedByte else m.read a := by
  rw [Memory.read_writeBytes hwf, List.length_take_of_le hn]
  split
  · rw [List.getElem?_take_of_lt (by omega)]
  · rfl

/-- What `wordsPadded` programs besides the full groups: the tail, filled up (R60, R77). -/
theorem wordsPadded_of_tail {bs : List Byte} {d : DWord} (hne : tailOf bs ≠ [])
    (hd : d.toList = tailOf bs ++ List.replicate (8 - (tailOf bs).length) erasedByte) : wordsPadded bs = wordsOf bs ++ [d] := by
  have hlast : wordsOf (tailOf bs ++ List.replicate (8 - (tailOf bs).length) erasedByte) = [d] := by
    rw [← hd, ← List.append_nil d.toList, wordsOf_append]; rfl
  unfold wordsPadded
  split
  · exact absurd ‹_› hne
  · rw [hlast]

theorem wordsPadded_of_no_tail {bs : List Byte} (h : tailOf bs = []) : wordsPadded bs = wordsOf bs := by
  rw [wordsPadded, h]

/-- Eight bytes are a double-word (R35). -/
theorem exists_dword {bs : List Byte} (h : bs.length = 8) : ∃ d : DWord, d.toList = bs := ⟨⟨bs.toArray, h⟩, rfl⟩

/-- The padded sequence is the bytes and as many `0xFF` as complete the last double-word (R60, R82 (b)). -/
theorem flatten_wordsPadded (bs : List Byte) :
    ((wordsPadded bs).map (·.toList)).flatten = bs ++ List.replicate (8 * ((bs.length + 7) / 8) - bs.length) erasedByte := by
  have htail := tailOf_length bs
  by_cases hnil : tailOf bs = []
  · have hwords := words_tail bs
    rw [hnil, List.append_nil] at hwords
    rw [hnil, List.length_nil] at htail
    have hpad : 8 * ((bs.length + 7) / 8) - bs.length = 0 := by omega
    rw [wordsPadded_of_no_tail hnil, hwords, hpad, List.replicate_zero, List.append_nil]
  · have hpos : 0 < (tailOf bs).length := List.length_pos_iff.2 hnil
    have hpad : 8 - (tailOf bs).length = 8 * ((bs.length + 7) / 8) - bs.length := by omega
    obtain ⟨d, hd⟩ : ∃ d : DWord, d.toList = tailOf bs ++ List.replicate (8 - (tailOf bs).length) erasedByte :=
      exists_dword (by rw [List.length_append, List.length_replicate]; omega)
    rw [wordsPadded_of_tail hnil hd, List.map_append, List.flatten_append, List.map_singleton, List.flatten_singleton, hd,
      ← List.append_assoc, words_tail, hpad]

theorem wordsPadded_length (bs : List Byte) : (wordsPadded bs).length = (bs.length + 7) / 8 := by
  have hbytes := flatten_dwords_length (wordsPadded bs)
  rw [flatten_wordsPadded, List.length_append, List.length_replicate] at hbytes
  omega

/-- Double-words written behind others are one write of all their bytes (R75). -/
theorem writeBytes_dwords_append (m : Memory) (a : Nat) (ds es : List DWord) :
    (m.writeBytes a (ds.map (·.toList)).flatten).writeBytes (a + 8 * ds.length) (es.map (·.toList)).flatten =
      m.writeBytes a ((ds ++ es).map (·.toList)).flatten := by
  rw [List.map_append, List.flatten_append, Memory.writeBytes_append, flatten_dwords_length]

/-! ### The transactions of unit AW -/

theorem progEvents_append (a : Word) (ds es : List DWord) :
    progEvents a (ds ++ es) = progEvents a ds ++ progEvents (a + BitVec.ofNat 32 (8 * ds.length)) es := by
  induction ds generalizing a with
  | nil => simp [progEvents]
  | cons d ds ih =>
    have haddr : a + 8#32 + BitVec.ofNat 32 (8 * ds.length) = a + BitVec.ofNat 32 (8 * (ds.length + 1)) := by
      rw [BitVec.add_assoc, ← BitVec.ofNat_add, Nat.mul_add, Nat.add_comm]
    simp only [List.cons_append, progEvents, ih, List.length_cons, haddr]

theorem progEvents_filter_isProg (a : Word) (ds : List DWord) : (progEvents a ds).filter Event.isProg = progEvents a ds := by
  induction ds generalizing a with
  | nil => rfl
  | cons d ds ih => exact congrArg (Event.prog a d .ok :: ·) (ih _)

theorem progEvents_filter_not_isProg (a : Word) (ds : List DWord) : (progEvents a ds).filter (!·.isProg) = [] := by
  induction ds generalizing a with
  | nil => rfl
  | cons d ds ih => exact ih _

/-- A draw gives the listed answer (R102). -/
theorem draw_listed {s : State} {a : Answer} (h : s.answers.head? = some a) : s.draw.1 = a := by
  obtain ⟨rest, hs⟩ := List.head?_eq_some_iff.1 h
  simp only [State.draw, hs]

/-- A program that cannot succeed answers `Err`: at a misaligned address with the flash unchanged (R37, R101; D20, log 26), or in
hardware (R102). -/
theorem flashProgram_err {r : Region} {addr : Word} (d : DWord) {s : State}
    (h : addr.toNat % 8 ≠ 0 ∨
      (addr.toNat % 8 = 0 ∧ r.start ≤ addr.toNat ∧ addr.toNat + 8 ≤ r.stop ∧ s.answers.head? = some .err)) :
    ∃ t, flashProgram r addr d s = .next (.err, t) ∧ (addr.toNat % 8 ≠ 0 → t.flash = s.flash) := by
  rcases h with hmis | ⟨hal, hlo, hhi, ha⟩
  · exact ⟨_, if_pos hmis, fun _ => rfl⟩
  · have hin : Region.holds r addr.toNat 8 = true := by simp [Region.holds, hlo, hhi]
    have herr : flashProgram r addr d s = .next (.err, (s.draw.2.scramble s.draws addr.toNat 8).log (.prog addr d .err)) := by
      simp only [flashProgram, hal, hin, draw_listed ha]
      rfl
    exact ⟨_, herr, fun hmis => absurd hal hmis⟩

/-- A program of unit AW that answers `Err` is abort entry (R80, R148). -/
theorem awProgram_err {d : DWord} {s t : State} (n : Nat) (hlt : s.writeAddr < addressSpace)
    (h : flashProgram s.params.appRegion s.writePointer d s = .next (.err, t)) :
    awProgram d n s = .next (.err, abortEntry t) := by
  have hsum : ¬ addressSpace ≤ s.base.toNat + s.count.toNat := Nat.not_le.2 hlt
  unfold awProgram
  rw [if_neg hsum, h, andThen_next]

/-- After programs that succeeded a run goes on with the others. -/
theorem awProgramAll_append_of_ok {ds : List DWord} (es : List DWord) {s t : State} (h : awProgramAll ds s = .next (.ok, t)) :
    awProgramAll (ds ++ es) s = awProgramAll es t := by
  induction ds generalizing s with
  | nil => cases h; rfl
  | cons d ds ih =>
    obtain ⟨⟨r, u⟩, hu, hk⟩ := andThen_eq_next h
    cases r with
    | ok => simp only [List.cons_append, awProgramAll, hu, andThen_next, ih hk]
    | err => cases hk
    | lost => cases hk

/-- A run ends with the first program that answers `Err` (R80, R147). -/
theorem awProgramAll_cons_err {d : DWord} (ds : List DWord) {s t : State} (h : awProgram d 8 s = .next (.err, t)) :
    awProgramAll (d :: ds) s = .next (.err, t) := by
  simp only [awProgramAll, h, andThen_next]

/-- A run whose program behind `k` successful ones answers `Err` ends with its abort entry (R80, R148). -/
theorem awProgramAll_err {ds : List DWord} {k : Nat} {d : DWord} {s u t : State} (hd : ds[k]? = some d)
    (hrun : awProgramAll (ds.take k) s = .next (.ok, u)) (hlt : u.writeAddr < addressSpace)
    (hfail : flashProgram u.params.appRegion u.writePointer d u = .next (.err, t)) :
    awProgramAll ds s = .next (.err, abortEntry t) := by
  obtain ⟨hk, rfl⟩ := List.getElem?_eq_some_iff.1 hd
  conv_lhs => rw [← List.take_append_drop k ds, List.drop_eq_getElem_cons hk]
  rw [awProgramAll_append_of_ok _ hrun, awProgramAll_cons_err _ (awProgram_err 8 hlt hfail)]

theorem count_add_toNat {c : Word} {n : Nat} (h : c.toNat + n < counterSpace) : (c + BitVec.ofNat 32 n).toNat = c.toNat + n := by
  simp only [counterSpace] at h
  rw [BitVec.toNat_add, BitVec.toNat_ofNat]
  omega

/-- The region that is left to program behind the first `k` double-words (R82). -/
theorem canProgram_after {m : Memory} {r : Region} {a n : Nat} (h : CanProgram m r a n) {bs : List Byte} {k j : Nat}
    (hbs : bs.length = 8 * k) (hle : k + j ≤ n) : CanProgram (m.writeBytes a bs) r (a + 8 * k) j := by
  rcases h with h0 | ⟨hal, hlo, hhi, hspace, herased⟩
  · exact .inl (by omega)
  · refine .inr ⟨by omega, by omega, by omega, by omega, fun i hi => ?_⟩
    rw [Memory.read_writeBytes_other (by omega), Nat.add_assoc]
    exact herased _ (by omega)

/-- The answers left behind `m` successful programs (R102). -/
theorem answersOk_after {s u : State} {m k n : Nat} (h : AnswersOk n s) (hu : u.answers = s.answers.drop m) (hle : m + k ≤ n) :
    AnswersOk k u := by
  have hmk : s.answers.take (m + k) = List.replicate (m + k) .ok := by
    rw [← Nat.min_eq_left hle, ← List.take_take, h, List.take_replicate]
  rw [AnswersOk, hu, List.take_drop, hmk, List.drop_replicate, Nat.add_sub_cancel_left]

theorem hostSame_trans {s t u : State} (h : HostSame s t) (k : HostSame t u) : HostSame s u := by
  simp only [HostSame] at *
  simp only [k, h, and_self]

/-! ### FEED -/

/-- While `AW.aborted` is set FEED answers `ABORTED` (R80, R144). -/
theorem execFeed_refused {s : State} (base : Word) (chunk : List Byte) (hab : s.aborted = true) :
    execFeed base chunk s = .next (s.respondAW .aborted) := if_pos hab

theorem wordsOf_feedStream_length (s : State) (chunk : List Byte) : (wordsOf (feedStream s chunk)).length = feedPrograms s chunk := by
  have hp : min s.pending.val 8 = s.pending.val := Nat.min_eq_left (Nat.le_of_lt_succ s.pending.isLt)
  rw [wordsOf_length, feedStream_length, hp, feedPrograms]

/-- FEED whose programs all answer `Ok` (R72 to R76). -/
theorem execFeed_ok {s : State} {base : Word} {chunk : List Byte} (hab : s.aborted = false) (hp : s.pending.val ≤ 7)
    (hcan : CanProgram s.flash s.params.appRegion (base.toNat + s.count.toNat) (feedPrograms s chunk))
    (hfits : s.count.toNat + 8 * feedPrograms s chunk < counterSpace) (hok : AnswersOk (feedPrograms s chunk) s) :
    ∃ b : DWord, b.toList.take ((s.pending.val + chunk.length) % 8) = tailOf (feedStream s chunk) ∧
      execFeed base chunk s = .next (afterFeed b s chunk (programmed (wordsOf (feedStream s chunk)) (s.latch base))) := by
  obtain ⟨b, hb, hfeed⟩ := execFeed_eq s base chunk hab (.inl hp)
  rw [← wordsOf_feedStream_length] at hcan hfits hok
  have hrun := awProgramAll_ok (s := s.latch base) hcan hfits hok
  exact ⟨b, hb, by rw [hfeed, hrun]; rfl⟩

theorem afterFeed_pendingBytes (b : DWord) (s : State) (chunk : List Byte) (t : State) :
    (afterFeed b s chunk t).pendingBytes = b.toList.take ((s.pending.val + chunk.length) % 8) := by
  have hval : (Fin.ofNat 9 ((s.pending.val + chunk.length) % 8)).val = (s.pending.val + chunk.length) % 8 :=
    Nat.mod_eq_of_lt (by omega)
  exact congrArg b.toList.take hval

/-- What the flash holds after the full double-words of a byte sequence were programmed (R75). -/
theorem programmed_wordsOf_read {s : State} (hwf : s.flash.wf = true) (bs : List Byte) (a : Nat) :
    (programmed (wordsOf bs) s).flash.read a =
      if s.writeAddr ≤ a ∧ a < s.writeAddr + 8 * (wordsOf bs).length then (bs[a - s.writeAddr]?).getD erasedByte
      else s.flash.read a := by
  rw [programmed, flatten_wordsOf, wordsOf_length]
  exact read_writeBytes_take hwf _ (by omega) a

/-- `u` is the state inside a FEED after the first `k` double-words of its stream were programmed, each with the answer `Ok`
(R72, R75). -/
structure FedWords (base : Word) (chunk : List Byte) (k : Nat) (s u : State) : Prop where
  run : awProgramAll ((wordsOf (feedStream s chunk)).take k) (s.latch base) = .next (.ok, u)
  latched : u.base = base
  count : u.count = s.count + BitVec.ofNat 32 (8 * k)
  writeAddr : u.writeAddr = base.toNat + s.count.toNat + 8 * k
  writePointer : u.writePointer = base + s.count + BitVec.ofNat 32 (8 * k)
  flash : u.flash = s.flash.writeBytes (base.toNat + s.count.toNat) ((feedStream s chunk).take (8 * k))
  answers : u.answers = s.answers.drop k
  trace : u.trace = s.trace ++ progEvents (base + s.count) ((wordsOf (feedStream s chunk)).take k)
  host : HostSame s u

theorem exists_fedWords {s : State} {base : Word} {chunk : List Byte} {k : Nat} (hk : k ≤ feedPrograms s chunk)
    (hcan : CanProgram s.flash s.params.appRegion (base.toNat + s.count.toNat) k)
    (hfits : s.count.toNat + 8 * k < counterSpace) (hok : AnswersOk k s) : ∃ u, FedWords base chunk k s u := by
  rw [← wordsOf_feedStream_length] at hk
  have htake : ((wordsOf (feedStream s chunk)).take k).length = k := List.length_take_of_le hk
  have hcount : (s.count + BitVec.ofNat 32 (8 * k)).toNat = s.count.toNat + 8 * k := count_add_toNat hfits
  refine ⟨programmed ((wordsOf (feedStream s chunk)).take k) (s.latch base), ?_, rfl, ?_, ?_, ?_, ?_, ?_, rfl, ?_⟩
  · refine awProgramAll_ok ?_ ?_ ?_ <;> rw [htake] <;> assumption
  · rw [programmed, htake]; rfl
  · simp only [programmed, State.writeAddr, htake, latch_count, latch_base, hcount, Nat.add_assoc]
  · simp only [programmed, State.writePointer, htake, latch_count, latch_base, BitVec.add_assoc]
  · rw [wordsOf_length] at hk
    rw [← flatten_take_wordsOf hk]; rfl
  · rw [programmed, htake]; rfl
  · simp [HostSame, programmed]

theorem FedWords.read {s u : State} {base : Word} {chunk : List Byte} {k : Nat} (h : FedWords base chunk k s u)
    (hwf : s.flash.wf = true) (hk : k ≤ feedPrograms s chunk) (a : Nat) :
    u.flash.read a =
      if base.toNat + s.count.toNat ≤ a ∧ a < base.toNat + s.count.toNat + 8 * k
      then ((feedStream s chunk)[a - (base.toNat + s.count.toNat)]?).getD erasedByte else s.flash.read a := by
  rw [← wordsOf_feedStream_length, wordsOf_length] at hk
  rw [h.flash]
  exact read_writeBytes_take hwf _ (by omega) a

/-- FEED whose run of programs stops with an `Err` (R80). -/
theorem execFeed_err {s t : State} {base : Word} {chunk : List Byte} (hab : s.aborted = false) (hp : s.pending.val ≤ 7)
    (h : awProgramAll (wordsOf (feedStream s chunk)) (s.latch base) = .next (.err, t)) : execFeed base chunk s = .next t := by
  obtain ⟨b, -, hfeed⟩ := execFeed_eq s base chunk hab (.inl hp)
  rw [hfeed, h]; rfl

/-- However FEED ends, its run of programs decides what it leaves of the flash and of the host (R72, R80, R163). -/
theorem execFeed_frame {s t : State} {base : Word} {chunk : List Byte} (h : execFeed base chunk s = .next t)
    (hp : s.aborted = false → s.pending.val ≤ 7) :
    (s.aborted = true ∧ t = s.respondAW .aborted) ∨
    ∃ x, awProgramAll (wordsOf (feedStream s chunk)) (s.latch base) = .next x ∧ t.params = x.2.params ∧ t.flash = x.2.flash ∧
      t.base = x.2.base ∧ HostSame x.2 t := by
  rcases execFeed_cases h with hrefused | ⟨hab, h7, -, -⟩ | ⟨-, b, x, hx, -, hend⟩
  · exact .inl hrefused
  · exact absurd (hp hab) (by omega)
  · refine .inr ⟨x, hx, ?_⟩
    rcases hend with ⟨-, rfl⟩ | ⟨-, rfl⟩ <;> exact ⟨rfl, rfl, rfl, by simp [HostSame, afterFeed, State.respondAW, State.withPartial]⟩

/-! ### FINISH -/

/-- While `AW.aborted` is set FINISH answers `ABORTED` (R80, R144). -/
theorem execFinish_refused {s : State} (hab : s.aborted = true) : execFinish s = .next (s.respondAW .aborted) := if_pos hab

/-- FINISH with nothing pending (R77). -/
theorem execFinish_nothingPending {s : State} (hab : s.aborted = false) (hp : s.pending = 0) :
    execFinish s = .next (s.respondAW .ok) := by
  simp [execFinish, hab, hp]

/-- FINISH with bytes pending is one padded program (R77). -/
theorem execFinish_pending {s : State} (hab : s.aborted = false) (hp : 0 < s.pending.val) :
    execFinish s = andThen (awProgram (padded s.buf s.pending.val) s.pending.val s) fun p =>
      match p.1 with
      | .ok => .next (p.2.clearPending.respondAW .ok)
      | .err => .next p.2
      | .lost => .next p.2 :=
  (if_neg (by simp [hab])).trans (if_pos hp)

/-- The state after a FINISH that programmed the pending bytes as `d` (R77). -/
def finished (d : DWord) (s : State) : State :=
  { s with
    pending := 0
    count := s.count + BitVec.ofNat 32 s.pending.val
    flash := s.flash.writeBytes s.writeAddr d.toList
    rsp := some (.aw .ok (s.count + BitVec.ofNat 32 s.pending.val))
    answers := s.answers.drop 1
    draws := s.draws + 1
    trace := s.trace ++ [.prog s.writePointer d .ok, .rsp (.aw .ok (s.count + BitVec.ofNat 32 s.pending.val))] }

theorem finished_read {d : DWord} {s : State} (hwf : s.flash.wf = true)
    (hd : d.toList = s.pendingBytes ++ List.replicate (8 - s.pending.val) erasedByte) (a : Nat) :
    (finished d s).flash.read a =
      if s.writeAddr ≤ a ∧ a < s.writeAddr + s.pending.val then (s.pendingBytes[a - s.writeAddr]?).getD erasedByte
      else if s.writeAddr ≤ a ∧ a < s.writeAddr + 8 then erasedByte else s.flash.read a := by
  have hp : s.pending.val ≤ 8 := Nat.le_of_lt_succ s.pending.isLt
  rw [finished, Memory.read_writeBytes hwf, Vector.length_toList, hd, getD_padded]
  by_cases hreal : s.writeAddr ≤ a ∧ a < s.writeAddr + s.pending.val
  · rw [if_pos hreal, if_pos (by omega)]
  · rw [if_neg hreal]
    split
    · rw [List.getElem?_eq_none (by rw [State.pendingBytes_length s hp]; omega), Option.getD_none]
    · rfl

/-- FINISH whose program answers `Ok` (R77). -/
theorem execFinish_ok {s : State} (hab : s.aborted = false) (hp : 0 < s.pending.val)
    (hcan : CanProgram s.flash s.params.appRegion s.writeAddr 1) (hfits : s.count.toNat + s.pending.val < counterSpace)
    (hok : AnswersOk 1 s) : execFinish s = .next (finished (padded s.buf s.pending.val) s) := by
  obtain ⟨rest, hrest⟩ : ∃ rest, s.answers = .ok :: rest := List.head?_eq_some_iff.1 <| by
    have h1 : (s.answers.take 1).head? = some .ok := by rw [hok]; rfl
    rwa [List.head?_take, if_neg (by decide)] at h1
  rw [execFinish_pending hab hp, awProgram_ok hcan hfits hrest]
  simp [finished, State.clearPending, State.respondAW, State.respond, hrest]

/-- FINISH whose program answers `Err` (R80, R148). -/
theorem execFinish_err {s t : State} (hab : s.aborted = false) (hp : 0 < s.pending.val) (hlt : s.writeAddr < addressSpace)
    (h : flashProgram s.params.appRegion s.writePointer (padded s.buf s.pending.val) s = .next (.err, t)) :
    execFinish s = .next (abortEntry t) := by
  rw [execFinish_pending hab hp, awProgram_err _ hlt h]
  rfl

/-! ### Stale bytes of the buffer -/

/-- The outcome is no refusal. -/
def NeverRefused {α : Type} (o : Host.Outcome α Fault Refusal) : Prop := ∀ r, o ≠ .refused r

theorem NeverRefused.andThen {α β : Type} {o : Host.Outcome α Fault Refusal} {k : α → Host.Outcome β Fault Refusal}
    (ho : NeverRefused o) (hk : ∀ a, NeverRefused (k a)) : NeverRefused (andThen o k) := by
  cases o with
  | next a => exact hk a
  | fault f => exact nofun
  | refused r => exact absurd rfl (ho r)

theorem orLost_fault_neverRefused (f : Fault) (s : State) : NeverRefused (orLost (.fault f) s) := by
  unfold orLost
  split <;> exact nofun

theorem flashProgram_neverRefused (r : Region) (addr : Word) (d : DWord) (s : State) : NeverRefused (flashProgram r addr d s) := by
  unfold flashProgram
  split
  · exact nofun
  · split
    · exact orLost_fault_neverRefused _ s
    · split
      · split <;> exact nofun
      all_goals exact nofun

/-- A program of unit AW stops with a fault, never with a refusal (R146). -/
theorem awProgram_neverRefused (d : DWord) (n : Nat) (s : State) : NeverRefused (awProgram d n s) := by
  unfold awProgram
  split
  · exact orLost_fault_neverRefused _ s
  · refine (flashProgram_neverRefused _ _ d s).andThen fun p => ?_
    split
    · split <;> exact nofun
    all_goals exact nofun

theorem awProgramAll_neverRefused (ds : List DWord) (s : State) : NeverRefused (awProgramAll ds s) := by
  induction ds generalizing s with
  | nil => exact nofun
  | cons d ds ih =>
    refine (awProgram_neverRefused d 8 s).andThen fun p => ?_
    split
    · exact ih p.2
    all_goals exact nofun

/-- Two ends of an operation that only the bytes behind the valid ones of `AW.buf` can tell apart (R10). -/
def StaleAgree (o o' : Host.Outcome State Fault Refusal) : Prop :=
  match o, o' with
  | .next t, .next t' => { t' with buf := t.buf } = t ∧ t'.pendingBytes = t.pendingBytes
  | .fault f, .fault f' => f = f'
  | _, _ => False

theorem StaleAgree.refl (t : State) : StaleAgree (.next t) (.next t) := ⟨rfl, rfl⟩

/-- An operation whose transactions are the same and which goes on alike after them ends alike. -/
theorem StaleAgree.andThen {o : Host.Outcome (PortResult × State) Fault Refusal}
    {k k' : PortResult × State → Host.Outcome State Fault Refusal} (ho : NeverRefused o) (hk : ∀ x, StaleAgree (k x) (k' x)) :
    StaleAgree (andThen o k) (andThen o k') := by
  cases o with
  | next x => exact hk x
  | fault f => rfl
  | refused r => exact absurd rfl (ho r)

section
variable {s : State} {b : DWord} (hb : b.toList.take s.pending.val = s.buf.toList.take s.pending.val)
include hb

/-- FINISH programs the valid bytes and the pad only (D13). -/
theorem padded_stale : padded b s.pending.val = padded s.buf s.pending.val := by
  rw [← Vector.toList_inj, padded_toList, padded_toList, hb]

theorem respondAW_stale (st : Status) :
    StaleAgree (.next (s.respondAW st)) (.next ((s.withPartial b s.pending).respondAW st)) := ⟨rfl, hb⟩

/-- FINISH ends the same way with other stale bytes: its program is the same (R77). -/
theorem execFinish_stale : StaleAgree (execFinish s) (execFinish (s.withPartial b s.pending)) := by
  cases hab : s.aborted with
  | true =>
    rw [execFinish_refused hab, execFinish_refused (s := s.withPartial b s.pending) hab]
    exact respondAW_stale hb _
  | false =>
    by_cases hp : 0 < s.pending.val
    · have hprogram : awProgram (padded b s.pending.val) s.pending.val (s.withPartial b s.pending) =
          andThen (awProgram (padded s.buf s.pending.val) s.pending.val s) fun x => .next (keepPartial b s.pending x) := by
        rw [awProgram_withPartial, padded_stale hb]
      have hfinish := execFinish_pending (s := s.withPartial b s.pending) hab hp
      rw [execFinish_pending hab hp, hfinish]
      simp only [State.withPartial] at hprogram ⊢
      rw [hprogram, andThen_assoc]
      refine .andThen (awProgram_neverRefused _ _ s) fun x => ?_
      obtain ⟨r, t⟩ := x
      cases r with
      | ok => exact ⟨rfl, rfl⟩
      | err => exact .refl t
      | lost => exact .refl t
    · have h0 : s.pending = 0 := Fin.ext (by simpa using hp)
      rw [execFinish_nothingPending hab h0, execFinish_nothingPending (s := s.withPartial b s.pending) hab h0]
      exact respondAW_stale hb _

/-- So does FEED: its stream, and with it its run of programs, is the same (R72). -/
theorem execFeed_stale (base : Word) (chunk : List Byte) (h7 : s.pending.val ≤ 7) :
    StaleAgree (execFeed base chunk s) (execFeed base chunk (s.withPartial b s.pending)) := by
  cases hab : s.aborted with
  | true =>
    rw [execFeed_refused base chunk hab, execFeed_refused (s := s.withPartial b s.pending) base chunk hab]
    exact respondAW_stale hb _
  | false =>
    have hstream : feedStream (s.withPartial b s.pending) chunk = feedStream s chunk := congrArg (· ++ chunk) hb
    obtain ⟨c, hc, hfeed⟩ := execFeed_eq s base chunk hab (.inl h7)
    obtain ⟨c', hc', hfeed'⟩ := execFeed_eq (s.withPartial b s.pending) base chunk hab (.inl h7)
    have hrun := awProgramAll_withPartial (wordsOf (feedStream s chunk)) (s.latch base) b s.pending
    rw [hstream] at hc' hfeed'
    have hlatch : (s.withPartial b s.pending).latch base = (s.latch base).withPartial b s.pending := rfl
    rw [hfeed, hfeed', hlatch, hrun, andThen_assoc]
    refine .andThen (awProgramAll_neverRefused _ _) fun x => ?_
    obtain ⟨r, t⟩ := x
    cases r with
    | ok =>
      refine ⟨rfl, ?_⟩
      simp only [afterFeed_pendingBytes]
      exact hc'.trans hc.symm
    | err => exact .refl t
    | lost => exact .refl t
end

/-! ### A stream of FEEDs between BEGIN and FINISH -/

theorem execAll_append (is js : List Instr) (s : State) : execAll (is ++ js) s = andThen (execAll is s) (execAll js) := by
  induction is generalizing s with
  | nil => rfl
  | cons i is ih =>
    simp only [List.cons_append, execAll, andThen_assoc]
    exact andThen_congr fun t _ => ih t

/-- From `s` to `u` the records made are the programs `ps` and, in any order with them, the others `rs`. -/
def Recorded (s u : State) (ps rs : List Event) : Prop :=
  ∃ l, u.trace = s.trace ++ l ∧ l.filter Event.isProg = ps ∧ l.filter (!·.isProg) = rs

/-- An operation of unit AW makes programs and then responds (R8, R53). -/
theorem Recorded.respond {s u v : State} {ps rs : List Event} (h : Recorded s u ps rs) (a : Word) (ds : List DWord) (r : Rsp)
    (hv : v.trace = u.trace ++ (progEvents a ds ++ [.rsp r])) : Recorded s v (ps ++ progEvents a ds) (rs ++ [.rsp r]) := by
  obtain ⟨l, htrace, hprog, hother⟩ := h
  refine ⟨l ++ (progEvents a ds ++ [.rsp r]), by rw [hv, htrace, List.append_assoc], ?_, ?_⟩
  · rw [List.filter_append, List.filter_append, hprog, progEvents_filter_isProg]
    exact congrArg (ps ++ ·) (List.append_nil _)
  · rw [List.filter_append, List.filter_append, hother, progEvents_filter_not_isProg]
    rfl

/-- From `s` on the writer has taken BEGIN and the bytes `xs` in FEEDs at `base`, every program answering `Ok`, and is in `u`: the
double-words of `xs` are in the flash, its tail is pending, and `rs` are the records so far that are no programs. -/
structure Streamed (base : Word) (s : State) (xs : List Byte) (rs : List Event) (u : State) : Prop where
  host : HostSame s u
  aborted : u.aborted = false
  latched : xs ≠ [] → u.base = base
  count : u.count = BitVec.ofNat 32 (8 * (wordsOf xs).length)
  pendingBytes : u.pendingBytes = tailOf xs
  flash : u.flash = s.flash.writeBytes base.toNat ((wordsOf xs).map (·.toList)).flatten
  answers : u.answers = s.answers.drop (wordsOf xs).length
  records : Recorded s u (progEvents base (wordsOf xs)) rs

/-- BEGIN starts a stream with no byte taken (R71). -/
theorem streamed_begin (base : Word) (s : State) : Streamed base s [] [.rsp (.aw .ok 0#32)] (abortRecovery s) where
  host := by simp [HostSame, abortRecovery, State.respondAW]
  aborted := rfl
  latched h := absurd rfl h
  count := rfl
  pendingBytes := rfl
  flash := rfl
  answers := rfl
  records := ⟨[.rsp (.aw .ok 0#32)], rfl, rfl, rfl⟩

/-- `n` double-words from `base` on can be programmed, and all these programs answer `Ok` (the premises of R82). -/
structure Programs (base : Word) (s : State) (n : Nat) : Prop where
  can : CanProgram s.flash s.params.appRegion base.toNat n
  fits : 8 * n < counterSpace
  ok : AnswersOk n s

section
variable {base : Word} {s u : State} {xs : List Byte} {rs : List Event} {n : Nat} (h : Streamed base s xs rs u)
include h

theorem Streamed.pending_val : u.pending.val = (tailOf xs).length := by
  rw [← h.pendingBytes, State.pendingBytes_length u (Nat.le_of_lt_succ u.pending.isLt)]

theorem Streamed.count_toNat (hn : Programs base s n) (hle : (wordsOf xs).length ≤ n) : u.count.toNat = 8 * (wordsOf xs).length := by
  have hfits : 8 * (wordsOf xs).length < counterSpace := Nat.lt_of_le_of_lt (Nat.mul_le_mul_left 8 hle) hn.fits
  rw [h.count, BitVec.toNat_ofNat, Nat.mod_eq_of_lt hfits]

/-- What is left of the premises behind the double-words programmed so far. -/
theorem Streamed.programs (hn : Programs base s n) {k : Nat} (hk : (wordsOf xs).length + k ≤ n) :
    CanProgram u.flash u.params.appRegion (base.toNat + u.count.toNat) k ∧ u.count.toNat + 8 * k < counterSpace ∧ AnswersOk k u := by
  have hcount := h.count_toNat hn (Nat.le_trans (Nat.le_add_right ..) hk)
  have hfits := hn.fits
  have hcan : CanProgram u.flash u.params.appRegion (base.toNat + 8 * (wordsOf xs).length) k := by
    rw [h.flash, h.host.1]
    exact canProgram_after hn.can (flatten_dwords_length _) hk
  rw [hcount]
  exact ⟨hcan, by omega, answersOk_after hn.ok h.answers hk⟩

/-- One FEED takes its chunk into the stream (R72, R81, R82 (d)). -/
theorem Streamed.feed (chunk : List Byte) (hn : Programs base s n) (hle : (wordsOf (xs ++ chunk)).length ≤ n) :
    ∃ v, execFeed base chunk u = .next v ∧
      Streamed base s (xs ++ chunk) (rs ++ [.rsp (.aw .ok (BitVec.ofNat 32 (8 * ((xs.length + chunk.length) / 8))))]) v := by
  have hstream : feedStream u chunk = tailOf xs ++ chunk := congrArg (· ++ chunk) h.pendingBytes
  have hwords : wordsOf (xs ++ chunk) = wordsOf xs ++ wordsOf (feedStream u chunk) := by rw [hstream, wordsOf_append_bytes]
  have hlen : (wordsOf (xs ++ chunk)).length = (wordsOf xs).length + (wordsOf (feedStream u chunk)).length := by
    rw [hwords, List.length_append]
  obtain ⟨hcan, hfits, hok⟩ := h.programs hn (hlen ▸ hle)
  rw [wordsOf_feedStream_length] at hcan hfits hok
  have h7 : u.pending.val ≤ 7 := by rw [h.pending_val]; exact Nat.le_of_lt_succ (tailOf_length_lt xs)
  obtain ⟨b, hb, hfeed⟩ := execFeed_ok h.aborted h7 hcan hfits hok
  have hcount : u.count + BitVec.ofNat 32 (8 * (wordsOf (feedStream u chunk)).length) =
      BitVec.ofNat 32 (8 * (wordsOf (xs ++ chunk)).length) := by
    rw [h.count, ← BitVec.ofNat_add, hlen, Nat.mul_add]
  have haddr : ((u.latch base).writeAddr) = base.toNat + 8 * (wordsOf xs).length :=
    congrArg (base.toNat + ·) (h.count_toNat hn (by omega))
  have hptr : (u.latch base).writePointer = base + BitVec.ofNat 32 (8 * (wordsOf xs).length) := congrArg (base + ·) h.count
  refine ⟨_, hfeed,
    { host := hostSame_trans h.host (by simp [HostSame, afterFeed, State.withPartial, State.respondAW, programmed])
      aborted := h.aborted
      latched := fun _ => rfl
      count := hcount
      pendingBytes := ?_
      flash := ?_
      answers := ?_
      records := ?_ }⟩
  · rw [afterFeed_pendingBytes, hb, hstream, ← tailOf_append_bytes]
  · have hflash : (programmed (wordsOf (feedStream u chunk)) (u.latch base)).flash = _ := congrArg₂
      (fun m a => m.writeBytes a ((wordsOf (feedStream u chunk)).map (·.toList)).flatten) h.flash haddr
    rw [hwords, ← writeBytes_dwords_append]
    exact hflash
  · rw [hlen, ← List.drop_drop, ← h.answers]; rfl
  · rw [hwords, progEvents_append, ← hptr, ← List.length_append, ← wordsOf_length, ← hcount]
    exact h.records.respond _ _ _ (List.append_assoc ..)

/-- FINISH ends the stream with its padded tail (R77, R82). -/
theorem Streamed.finish (hn : Programs base s n) (hle : (wordsPadded xs).length ≤ n) :
    ∃ t, execFinish u = .next t ∧ t.rsp = some (.aw .ok (BitVec.ofNat 32 xs.length)) ∧ t.count = BitVec.ofNat 32 xs.length ∧
      t.pending = 0 ∧ t.aborted = false ∧ HostSame s t ∧
      t.flash = s.flash.writeBytes base.toNat ((wordsPadded xs).map (·.toList)).flatten ∧
      Recorded s t (progEvents base (wordsPadded xs)) (rs ++ [.rsp (.aw .ok (BitVec.ofNat 32 xs.length))]) := by
  have hbytes : xs.length = 8 * (wordsOf xs).length + (tailOf xs).length := by rw [wordsOf_length, tailOf_length]; omega
  by_cases hnil : tailOf xs = []
  · have hpending : u.pending = 0 := Fin.ext (by rw [h.pending_val, hnil]; rfl)
    have hcount : u.count = BitVec.ofNat 32 xs.length := by rw [h.count, hbytes, hnil]; rfl
    rw [wordsPadded_of_no_tail hnil, ← hcount]
    refine ⟨u.respondAW .ok, execFinish_nothingPending h.aborted hpending, rfl, rfl, hpending, h.aborted, h.host, h.flash, ?_⟩
    have hrec := h.records.respond (v := u.respondAW .ok) base [] (.aw .ok u.count) rfl
    rwa [progEvents, List.append_nil] at hrec
  · have hpos : 0 < u.pending.val := by rw [h.pending_val]; exact List.length_pos_iff.2 hnil
    have hlast : (padded u.buf u.pending.val).toList = tailOf xs ++ List.replicate (8 - (tailOf xs).length) erasedByte := by
      rw [padded_toList, ← h.pending_val]
      exact congrArg (· ++ _) h.pendingBytes
    have hwords := wordsPadded_of_tail hnil hlast
    have hlen : (wordsPadded xs).length = (wordsOf xs).length + 1 := by rw [hwords]; exact List.length_append
    obtain ⟨hcan, hfits, hok⟩ := h.programs hn (hlen ▸ hle)
    have hbase : u.base = base := h.latched (by rintro rfl; exact hnil rfl)
    have haddr : u.writeAddr = base.toNat + 8 * (wordsOf xs).length := by
      rw [State.writeAddr, hbase, h.count_toNat hn (by omega)]
    have hptr : u.writePointer = base + BitVec.ofNat 32 (8 * (wordsOf xs).length) := by rw [State.writePointer, hbase, h.count]
    have hcount : u.count + BitVec.ofNat 32 u.pending.val = BitVec.ofNat 32 xs.length := by
      rw [h.count, h.pending_val, ← BitVec.ofNat_add, ← hbytes]
    have hlt := u.pending.isLt
    have hfinish := execFinish_ok h.aborted hpos (by rw [State.writeAddr, hbase]; exact hcan) (by omega) hok
    rw [hwords, ← hcount]
    refine ⟨_, hfinish, rfl, rfl, rfl, h.aborted, hostSame_trans h.host (by simp [HostSame, finished]), ?_, ?_⟩
    · rw [← writeBytes_dwords_append, ← haddr, ← h.flash]
      simp [finished]
    · rw [progEvents_append, ← hptr]
      exact h.records.respond _ [_] _ rfl
end

/-- FEEDs of any chunks take all of them into the stream. -/
theorem Streamed.feeds {base : Word} {s : State} {n : Nat} (hn : Programs base s n) (chunks : List (List Byte)) {u : State}
    {xs : List Byte} {rs : List Event} (h : Streamed base s xs rs u) (hle : (wordsOf (xs ++ chunks.flatten)).length ≤ n) :
    ∃ v, execAll (chunks.map (.awFeed base)) u = .next v ∧
      Streamed base s (xs ++ chunks.flatten) (rs ++ feedResponses xs.length chunks) v := by
  induction chunks generalizing u xs rs with
  | nil => exact ⟨u, rfl, by simpa [feedResponses] using h⟩
  | cons c cs ih =>
    rw [List.flatten_cons, ← List.append_assoc] at hle ⊢
    have hfirst : (wordsOf (xs ++ c)).length ≤ n := by
      rw [wordsOf_append_bytes, List.length_append] at hle; omega
    obtain ⟨v, hv, hstreamed⟩ := h.feed c hn hfirst
    obtain ⟨w, hw, hlast⟩ := ih hstreamed hle
    refine ⟨w, ?_, ?_⟩
    · simp only [List.map_cons, execAll, exec, hv, andThen_next, hw]
    · simpa [feedResponses] using hlast

/-! ### Commands that make no flash transaction -/

/-- Flash, constants and inputs are as they were. -/
def Untouched (s t : State) : Prop :=
  t.flash = s.flash ∧ t.params = s.params ∧ t.cmds = s.cmds ∧ t.wire = s.wire ∧ t.answers = s.answers

theorem Untouched.trans {s t u : State} (h : Untouched s t) (k : Untouched t u) : Untouched s u := by
  obtain ⟨hf, hp, hc, hw, ha⟩ := h
  obtain ⟨kf, kp, kc, kw, ka⟩ := k
  exact ⟨kf.trans hf, kp.trans hp, kc.trans hc, kw.trans hw, ka.trans ha⟩

/-- VERIFY reads, and computes a checksum (R90, R103, R105). -/
theorem verifyWith_untouched (crc : List Byte → Word) (s : State) : Untouched s (verifyWith crc s) := by
  unfold verifyWith
  split <;> exact ⟨rfl, rfl, rfl, rfl, rfl⟩

/-- A jump reads the application's first words (R130). -/
theorem jump_untouched (a : Word) (s : State) : Untouched s (jump a s) := by
  unfold jump
  split <;> exact ⟨rfl, rfl, rfl, rfl, rfl⟩

theorem jumpIfValid_untouched (s : State) : Untouched s (jumpIfValid s) := by
  unfold jumpIfValid
  split
  · exact jump_untouched _ s
  · exact ⟨rfl, rfl, rfl, rfl, rfl⟩

/-! ### The obligations -/

/-- Settles O16: every program of the run answers `Ok`, and the accumulator keeps the tail of the stream. -/
theorem feedProgramsStream : Obligations.FeedProgramsStream := by
  intro s base chunk hwf hab hp hcan hfits hok
  obtain ⟨b, hb, hfeed⟩ := execFeed_ok hab hp hcan hfits hok
  have hlen := wordsOf_feedStream_length s chunk
  refine ⟨_, hfeed, ?_, ?_, fun a => ?_⟩
  · simp only [afterFeed, programmed, State.withPartial, State.respondAW, State.respond, State.latch, hlen]
    rfl
  · rw [afterFeed_pendingBytes, hb, tailOf_eq_drop, ← wordsOf_length, hlen]; rfl
  · have hread := programmed_wordsOf_read (s := s.latch base) hwf (feedStream s chunk) a
    rw [hlen] at hread
    exact hread

/-- Settles O18: the run is `k` programs that succeed and one that is abort entry. -/
theorem feedStopsAtFirstFailure : Obligations.FeedStopsAtFirstFailure := by
  intro s base chunk k hwf hab hp hk hcan hal hlo hhi hspace hfits hok herr
  obtain ⟨u, hu⟩ := exists_fedWords (Nat.le_of_lt hk) hcan hfits hok
  have hkd : k < (wordsOf (feedStream s chunk)).length := by rw [wordsOf_feedStream_length]; exact hk
  have hlt : u.writeAddr < addressSpace := by rw [hu.writeAddr]; omega
  have haddr : u.writePointer.toNat = base.toNat + s.count.toNat + 8 * k := (writePointer_toNat hlt).trans hu.writeAddr
  have hregion : u.params.appRegion = s.params.appRegion := congrArg Params.appRegion hu.host.1
  obtain ⟨t, ht, -⟩ := flashProgram_err (r := u.params.appRegion) (addr := u.writePointer) (wordsOf (feedStream s chunk))[k] (s := u) <|
    .inr (by rw [haddr, hregion, hu.answers, List.head?_drop]; exact ⟨by omega, by omega, hhi, herr⟩)
  obtain ⟨-, hread, -⟩ := flashProgram_keeps ht
  obtain ⟨-, ⟨hl, -⟩ | ⟨-, hhost, ⟨-, -, hcount, hbase, -⟩, -, htrace⟩⟩ := flashProgram_spec ht (.inl rfl)
  · cases hl
  · have hd : (wordsOf (feedStream s chunk))[k]? = some (wordsOf (feedStream s chunk))[k] := List.getElem?_eq_getElem hkd
    have hcount' : t.count = s.count + BitVec.ofNat 32 (8 * k) := hcount.trans hu.count
    rw [haddr] at hread
    refine ⟨abortEntry t, (wordsOf (feedStream s chunk))[k], hd, execFeed_err hab hp (awProgramAll_err hd hu.run hlt ht), ?_, hcount',
      rfl, hbase.trans hu.latched, hostSame_trans hu.host hhost, ?_, fun j hj => ?_, fun a ha => ?_⟩
    · exact congrArg (fun n => some (Rsp.aw .flashProgramError n)) hcount'
    · have habort : (abortEntry t).trace = t.trace ++ [.rsp (.aw .flashProgramError t.count)] := rfl
      rw [habort, htrace, hu.trace, hu.writePointer, hcount']
      simp [feedStream]
    · have hin : (abortEntry t).flash.read (base.toNat + s.count.toNat + j) = _ := hread _ (by omega)
      rw [hin, hu.read hwf (Nat.le_of_lt hk), if_pos (by omega), Nat.add_sub_cancel_left]; rfl
    · have hout : (abortEntry t).flash.read a = _ := hread _ (by omega)
      rw [hout, hu.read hwf (Nat.le_of_lt hk), if_neg (by omega)]

/-- Settles O19: FEED is refused, or its run of programs has written the double-words of its stream and nothing else. -/
theorem feedFrame : Obligations.FeedFrame := by
  intro s t base chunk hp h
  rcases execFeed_frame h hp with ⟨hab, rfl⟩ | ⟨x, hx, hparams, hflash, hbase, hhost⟩
  · exact ⟨rfl, fun _ _ => rfl, fun _ => ⟨by simp [HostSame, State.respondAW], fun hab' => by rw [hab] at hab'; cases hab'⟩⟩
  · obtain ⟨hkparams, hkread, -⟩ := awProgramAll_keeps hx
    refine ⟨hparams.trans hkparams, fun a ha => ?_, fun hn => ?_⟩
    · rw [hflash]
      exact hkread a (by rw [wordsOf_feedStream_length]; exact ha)
    · obtain ⟨-, hsame, hlatch⟩ := awProgramAll_same hx hn
      exact ⟨hostSame_trans hsame hhost, fun _ => hbase.trans hlatch⟩

/-- Settles O21: the one program of FINISH answers `Ok`. -/
theorem finishPadsAndPrograms : Obligations.FinishPadsAndPrograms := by
  intro s hwf hab hpos h7 hcan hfits hok
  have hd := padded_toList s.buf s.pending.val
  exact ⟨_, padded s.buf s.pending.val, hd, execFinish_ok hab hpos hcan hfits hok, rfl, finished_read hwf hd⟩

/-- Settles O23: whatever the cause, the program answers `Err`, and FINISH is abort entry. -/
theorem finishFailureAborts : Obligations.FinishFailureAborts := by
  intro s hab hpos hlt hcause
  have haddr := writePointer_toNat hlt
  obtain ⟨t, ht, hmis⟩ := flashProgram_err (r := s.params.appRegion) (addr := s.writePointer) (padded s.buf s.pending.val) (s := s)
    (by rw [haddr]; exact hcause)
  obtain ⟨-, hread, -⟩ := flashProgram_keeps ht
  obtain ⟨-, ⟨hl, -⟩ | ⟨-, hhost, ⟨-, -, hcount, hbase, -⟩, -⟩⟩ := flashProgram_spec ht (.inl rfl)
  · cases hl
  · rw [haddr] at hmis hread
    refine ⟨_, execFinish_err hab hpos hlt ht, ?_, rfl, hcount, hbase, hhost, hmis, hread⟩
    exact congrArg (fun n => some (Rsp.aw .flashProgramError n)) hcount

/-- Settles O24: FINISH makes no program, or one of a double-word at the write pointer. -/
theorem finishFrame : Obligations.FinishFrame := by
  intro s t h
  rcases execFinish_cases h with ⟨-, rfl⟩ | ⟨-, -, rfl⟩ | ⟨-, hpos, x, hx, hend⟩
  · exact ⟨rfl, fun _ _ => rfl, fun _ => by simp [HostSame, State.respondAW]⟩
  · exact ⟨rfl, fun _ _ => rfl, fun _ => by simp [HostSame, State.respondAW]⟩
  · obtain ⟨hparams, hread, -⟩ := awProgram_keeps hx
    have hprogram : x.2.params = s.params ∧
        (∀ a, ¬ (0 < s.pending.val ∧ s.writeAddr ≤ a ∧ a < s.writeAddr + 8) → x.2.flash.read a = s.flash.read a) ∧
        (NoPowerLoss s → HostSame s x.2 ∧ x.2.base = s.base) := by
      refine ⟨hparams, fun a ha => hread a fun hin => ha ⟨hpos, hin⟩, fun hn => ?_⟩
      obtain ⟨-, hhost, hbase, -⟩ := awProgram_same hx hn
      exact ⟨hhost, hbase⟩
    rcases hend with ⟨-, rfl⟩ | ⟨-, rfl⟩ <;> exact hprogram

/-- Settles O26: BEGIN starts the stream, the FEEDs take the whole image into it however it is cut, and FINISH ends it with the padded
image in the flash. -/
theorem segmentationLaw : Obligations.SegmentationLaw := by
  intro s base chunks hwf _ hcan hfits hok
  have hlen := wordsPadded_length chunks.flatten
  have hn : Programs base s ((chunks.flatten.length + 7) / 8) := ⟨hcan, hfits, hok⟩
  obtain ⟨v, hfeeds, hstreamed⟩ := (streamed_begin base s).feeds hn chunks (by rw [List.nil_append, wordsOf_length]; omega)
  rw [List.nil_append] at hstreamed
  obtain ⟨t, hfinish, hrsp, hcount, hpending, haborted, hhost, hflash, l, htrace, hprog, hother⟩ :=
    hstreamed.finish hn (Nat.le_of_eq hlen)
  have hread := Memory.read_writeBytes hwf base.toNat ((wordsPadded chunks.flatten).map (·.toList)).flatten
  rw [← hflash, flatten_dwords_length, hlen, flatten_wordsPadded] at hread
  simp only [getD_padded] at hread
  have hnews : t.trace.drop s.trace.length = l := by rw [htrace, List.drop_left]
  refine ⟨t, ?_, hrsp, hcount, hpending, haborted, hhost, fun k hk => ?_, fun k hk hk' => ?_, fun a ha => ?_, ?_, ?_⟩
  · rw [execAll_append]
    simp only [List.singleton_append, execAll, exec, execBegin, andThen_next, hfeeds, hfinish]
  · rw [hread, if_pos (by omega), Nat.add_sub_cancel_left]
  · rw [hread, if_pos (by omega), Nat.add_sub_cancel_left, List.getElem?_eq_none hk]; rfl
  · rw [hread, if_neg ha]
  · rw [hnews, hprog]
  · rw [hnews, hother]; rfl

/-- Settles O27: `{ s with buf := b }` is `s` with other stale bytes. -/
theorem staleBufferIsUnobservable : Obligations.StaleBufferIsUnobservable := by
  rintro s b i h7 (rfl | ⟨base, chunk, rfl⟩) hb
  · exact execFinish_stale hb
  · exact execFeed_stale hb base chunk h7

/-- Settles O13: BEGIN is recovery (R149), with these five fields written out. -/
theorem beginResetsAccumulator : Obligations.BeginResetsAccumulator := fun _ => rfl

/-- Settles O14: BEGIN leaves nothing pending and the flag down, so the FINISH behind it makes no transaction. -/
theorem beginDiscardsPending : Obligations.BeginDiscardsPending := by
  intro s
  have hfinish : execFinish (abortRecovery s) = .next ((abortRecovery s).respondAW .ok) := execFinish_nothingPending rfl rfl
  refine ⟨(abortRecovery s).respondAW .ok, ?_, rfl, rfl, rfl, rfl, ?_⟩
  · simp only [execAll, exec, execBegin, andThen_next, hfinish]
  · simp [abortRecovery, State.respondAW]

/-- Settles O22: a FINISH with nothing pending leaves nothing pending. -/
theorem finishWithNothingPending : Obligations.FinishWithNothingPending := by
  intro s hab hp
  have hfirst : execFinish s = .next (s.respondAW .ok) := execFinish_nothingPending hab hp
  have hsecond : execFinish (s.respondAW .ok) = .next ((s.respondAW .ok).respondAW .ok) := execFinish_nothingPending hab hp
  refine ⟨hfirst, ?_⟩
  simp only [execAll, exec, hfirst, hsecond, andThen_next]
  simp [State.respondAW, State.respond]

/-- Settles O48: VERIFY and a jump only read; the other commands write registers and the trace. -/
theorem onlyWritersTouchFlash : Obligations.OnlyWritersTouchFlash := by
  intro s t i hi h
  simp only [List.mem_cons, List.not_mem_nil, or_false] at hi
  rcases hi with rfl | rfl | rfl | rfl | rfl | rfl | rfl | rfl <;> cases h
  · exact ⟨rfl, rfl, rfl, rfl, rfl⟩
  · exact verifyWith_untouched _ s
  · exact ⟨rfl, rfl, rfl, rfl, rfl⟩
  · exact ⟨rfl, rfl, rfl, rfl, rfl⟩
  · exact ⟨rfl, rfl, rfl, rfl, rfl⟩
  · exact ⟨rfl, rfl, rfl, rfl, rfl⟩
  · exact jump_untouched _ s
  · exact (verifyWith_untouched _ s).trans (jumpIfValid_untouched _)

end Sys2Proof.Proofs
end

section
/-! Proofs of the family 41_integrity_verifier.md: what VERIFY reads, answers and leaves alone, and its answer after a length and a
checksum were stored. -/

namespace Sys2Proof.Proofs
open Sys2Proof Sys2Proof.Machine

/-! ### Reads of the flash -/

/-- The first address of a read counts modulo `2^ADDR_W` (R7). -/
theorem readBytes_mod (m : Memory) (a n : Nat) : m.readBytes (a % addressSpace) n = m.readBytes a n := by
  apply List.ext_getElem?
  intro j
  simp only [Memory.getElem?_readBytes, Nat.mod_add_mod]

/-- A range that does not wrap is read from the addresses inside it alone. -/
theorem readBytes_congr_range {m m' : Memory} {a n : Nat} (hspace : a + n ≤ addressSpace)
    (h : ∀ c, a ≤ c → c < a + n → m.read c = m'.read c) : m.readBytes a n = m'.readBytes a n := by
  refine Memory.readBytes_congr fun j hj => ?_
  rw [Nat.mod_eq_of_lt (by omega)]
  exact h (a + j) (by omega) (by omega)

theorem readBytes_erased {m : Memory} {a n : Nat} (hspace : a + n ≤ addressSpace) (h : Erased m a n) :
    m.readBytes a n = List.replicate n erasedByte := by
  apply List.ext_getElem?
  intro j
  rw [Memory.getElem?_readBytes, List.getElem?_replicate]
  split
  · rename_i hj
    rw [Nat.mod_eq_of_lt (by omega), h j hj]
  · rfl

/-- The offset of a field is added to an address modulo `2^ADDR_W` (R7, R36). -/
theorem flashRead_offset (s : State) (w : Word) (off n : Nat) :
    s.flashRead (w + BitVec.ofNat 32 off) n = s.log (.read (w + BitVec.ofNat 32 off) (s.flash.readBytes (w.toNat + off) n)) := by
  have haddr : (w + BitVec.ofNat 32 off).toNat = (w.toNat + off) % addressSpace := by
    rw [BitVec.toNat_add, BitVec.toNat_ofNat, Nat.add_mod_mod]
  rw [State.flashRead, haddr, readBytes_mod]

/-! ### VERIFY -/

/-- The two reads, the length first (R91, D26). -/
theorem fetchMetadata_eq (s : State) : fetchMetadata s = { s with
    trace := s.trace ++ [.read s.params.metaBase (s.flash.readBytes s.params.metaBase.toNat 4),
      .read (s.params.metaBase + 4#32) (s.flash.readBytes (s.params.metaBase.toNat + 4) 4)] } := by
  simp only [fetchMetadata, flashRead_offset, State.log, List.append_assoc]
  simp

/-- Above the length guard there is no CRC transaction (R92). -/
theorem verifyWith_tooLong (crc : List Byte → Word) {s : State} (h : s.params.appMax < s.appLength.toNat) :
    verifyWith crc s = (fetchMetadata s).respond (.iv false) := if_pos h

theorem verifyWith_fits (crc : List Byte → Word) {s : State} (h : s.appLength.toNat ≤ s.params.appMax) :
    verifyWith crc s =
      ((fetchMetadata s).checksum32 crc s.crcWords).respond (.iv (crc (s.imageBytes s.crcWords) == s.appChecksum)) :=
  if_neg (Nat.not_lt.2 h)

/-- The answer of VERIFY is the length guard and the comparison (R92, R95). -/
theorem verifyWith_rsp (crc : List Byte → Word) (s : State) : (verifyWith crc s).rsp =
    some (.iv (decide (s.appLength.toNat ≤ s.params.appMax ∧ crc (s.imageBytes s.crcWords) = s.appChecksum))) := by
  by_cases h : s.appLength.toNat ≤ s.params.appMax
  · rw [verifyWith_fits crc h]
    simp [h, beq_eq_decide]
  · rw [verifyWith_tooLong crc (Nat.not_le.1 h)]
    simp [h]

/-- A CRC transaction covers `appLength` less the remainder of the division (R94). -/
theorem crcWords_mul (s : State) :
    s.crcWords * s.params.crcWordBytes = s.appLength.toNat - s.appLength.toNat % s.params.crcWordBytes :=
  Nat.eq_sub_of_add_eq (Nat.div_add_mod' ..)

/-- Below the length guard the covered bytes lie inside the application region (R93). -/
theorem covered_inside {s : State} (h : s.appLength.toNat ≤ s.params.appMax) :
    s.params.appBase.toNat + s.crcWords * s.params.crcWordBytes ≤ s.params.appRegion.stop :=
  Nat.add_le_add_left (Nat.le_trans (Nat.div_mul_le_self ..) h) _

/-- States whose flashes agree on the covered bytes cover the same bytes (R93). -/
theorem imageBytes_congr {s t : State} {n : Nat} (hparams : t.params = s.params)
    (hspace : s.params.appBase.toNat + n * s.params.crcWordBytes ≤ addressSpace)
    (h : ∀ a, s.params.appBase.toNat ≤ a → a < s.params.appBase.toNat + n * s.params.crcWordBytes →
      t.flash.read a = s.flash.read a) : t.imageBytes n = s.imageBytes n := by
  rw [State.imageBytes, hparams]
  exact readBytes_congr_range hspace h

/-- An erased length field reads `0xFFFFFFFF` (R92). -/
theorem appLength_erased {s : State} (hspace : s.params.metaBase.toNat + 4 ≤ addressSpace)
    (h : Erased s.flash s.params.metaBase.toNat 4) : s.appLength = 0xFFFFFFFF#32 := by
  rw [State.appLength, State.wordAt, Nat.add_zero, readBytes_erased hspace h]
  decide

/-! ### Field writes that succeed -/

/-- What R6 and log 11 ask of the metadata sector. -/
theorem sector_ok {p : Params} (hok : p.Ok) : p.metaBase.toNat % 8 = 0 ∧ p.metaSectorSize % 8 = 0 ∧
    p.metaMax ≤ p.metaSectorSize ∧ p.metaBase.toNat + p.metaSectorSize ≤ addressSpace := by
  obtain ⟨-, -, -, -, -, hmax, hal, hsize, hspace, -, -⟩ := hok
  exact ⟨hal, hsize, hmax, hspace⟩

/-- Both fields lie inside the usable size of the sector (R5, R6). -/
theorem word_fits {p : Params} (hok : p.Ok) {off : Nat} (v : Word) (hoff : off ≤ 4) : off + (le32Bytes v).length ≤ p.metaMax := by
  obtain ⟨-, -, -, -, hmeta, -⟩ := hok
  rw [le32Bytes_length]
  omega

@[simp] theorem patch_length {scratch bs : List Byte} {off : Nat} (h : off + bs.length ≤ scratch.length) :
    (patch scratch off bs).length = scratch.length := by
  simp only [patch, List.length_append, List.length_take, List.length_drop]
  omega

theorem getElem?_patch {scratch bs : List Byte} {off : Nat} (h : off + bs.length ≤ scratch.length) (j : Nat) :
    (patch scratch off bs)[j]? = if off ≤ j ∧ j < off + bs.length then bs[j - off]? else scratch[j]? := by
  have htake : (scratch.take off).length = off := List.length_take_of_le (by omega)
  rw [patch, List.append_assoc, List.getElem?_append, htake]
  by_cases hlo : j < off
  · rw [if_pos hlo, if_neg (by omega), List.getElem?_take_of_lt hlo]
  · rw [if_neg hlo, List.getElem?_append]
    by_cases hhi : j < off + bs.length
    · rw [if_pos (by omega), if_pos (by omega)]
    · rw [if_neg (by omega), if_neg (by omega), List.getElem?_drop]
      congr 1
      omega

/-- The state after a rewrite of the metadata sector that succeeds: an erase, then the programs of the buffer (R122). -/
def sectorRewritten (scratch : List Byte) (s : State) : State :=
  { s with
    flash := (s.flash.erase s.params.metaSector).writeBytes s.params.metaBase.toNat scratch
    answers := s.answers.drop (1 + s.params.metaSectorSize / 8)
    draws := s.draws + (1 + s.params.metaSectorSize / 8)
    trace := s.trace ++ .erase s.params.metaSector .ok :: progEvents s.params.metaBase (wordsPadded scratch) }

/-- The state after a field write that succeeds: the sector is read whole, patched and rewritten (R122). -/
def fieldWritten (off : Nat) (bs : List Byte) (s : State) : State :=
  sectorRewritten (patch (s.flash.readBytes s.params.metaBase.toNat s.params.metaSectorSize) off bs)
    (s.flashRead s.params.metaBase s.params.metaSectorSize)

@[simp] theorem fieldWritten_params (off : Nat) (bs : List Byte) (s : State) : (fieldWritten off bs s).params = s.params := rfl

@[simp] theorem fieldWritten_answers (off : Nat) (bs : List Byte) (s : State) :
    (fieldWritten off bs s).answers = s.answers.drop (1 + s.params.metaSectorSize / 8) := rfl

theorem fieldWritten_flash (off : Nat) (bs : List Byte) (s : State) : (fieldWritten off bs s).flash =
    (s.flash.erase s.params.metaSector).writeBytes s.params.metaBase.toNat
      (patch (s.flash.readBytes s.params.metaBase.toNat s.params.metaSectorSize) off bs) := rfl

theorem fieldWritten_wf {s : State} (hwf : s.flash.wf = true) (off : Nat) (bs : List Byte) :
    (fieldWritten off bs s).flash.wf = true :=
  Memory.wf_writeBytes (Memory.wf_erase hwf _) _ _

/-- An erased sector of whole double-words can be programmed whole (R101, R122; log 11). -/
theorem canProgram_erasedSector {m : Memory} {p : Params} (hok : p.Ok) (hwf : m.wf = true) :
    CanProgram (m.erase p.metaSector) p.metaSector p.metaBase.toNat (p.metaSectorSize / 8) := by
  obtain ⟨hal, hsize, -, hspace⟩ := sector_ok hok
  have hall : 8 * (p.metaSectorSize / 8) = p.metaSectorSize := by omega
  refine .inr ⟨hal, Nat.le_refl _, by rw [hall]; exact Nat.le_refl _, by omega, fun k hk => ?_⟩
  rw [Memory.read_erase hwf]
  exact if_pos ⟨Nat.le_add_right .., Nat.add_lt_add_left (by omega) _⟩

/-- The answers to the first transaction and to the others (R102). -/
theorem answersOk_succ {n : Nat} {s : State} (h : AnswersOk (1 + n) s) :
    ∃ rest, s.answers = .ok :: rest ∧ rest.take n = List.replicate n .ok := by
  rw [AnswersOk, Nat.add_comm, List.replicate_succ] at h
  cases hs : s.answers with
  | nil => simp [hs] at h
  | cons a rest =>
    rw [hs, List.take_succ_cons, List.cons.injEq] at h
    exact ⟨rest, by rw [h.1], h.2⟩

/-- A rewrite of the sector that the environment lets succeed: one erase, then the programs of the whole buffer (R122). -/
theorem rewriteSector_ok {scratch : List Byte} {s : State} (hok : s.params.Ok) (hwf : s.flash.wf = true)
    (hpages : s.params.metaSector.wholePages s.params.pageSize) (hlen : scratch.length = s.params.metaSectorSize)
    (ha : AnswersOk (1 + s.params.metaSectorSize / 8) s) :
    rewriteSector scratch s = .next (.stored, sectorRewritten scratch s) := by
  obtain ⟨-, hsize, -, -⟩ := sector_ok hok
  have hwords : (wordsPadded scratch).length = s.params.metaSectorSize / 8 := by
    rw [wordsPadded_length, hlen]; omega
  have hbytes : ((wordsPadded scratch).map (·.toList)).flatten = scratch := by
    rw [flatten_wordsPadded, hlen, show 8 * ((s.params.metaSectorSize + 7) / 8) - s.params.metaSectorSize = 0 by omega,
      List.replicate_zero, List.append_nil]
  obtain ⟨rest, hrest, hothers⟩ := answersOk_succ ha
  rw [rewriteSector, flashErase_ok hpages hrest, andThen_next]
  dsimp only
  rw [programSector_ok (by rw [hwords]; exact canProgram_erasedSector hok hwf) (by rw [hwords]; exact hothers), andThen_next]
  simp only [sectorRewritten, sectorProgrammed, hwords, hbytes, hrest, Nat.add_comm 1, List.drop_succ_cons, List.append_assoc,
    List.singleton_append, Nat.add_assoc]

/-- R122 where the environment answers `Ok` to the erase and to every program. -/
theorem writeField_ok {off : Nat} {bs : List Byte} {s : State} (hok : s.params.Ok) (hwf : s.flash.wf = true)
    (hfits : off + bs.length ≤ s.params.metaMax) (hpages : s.params.metaSector.wholePages s.params.pageSize)
    (ha : AnswersOk (1 + s.params.metaSectorSize / 8) s) : writeField off bs s = .next (.stored, fieldWritten off bs s) := by
  obtain ⟨-, -, hmax, -⟩ := sector_ok hok
  rw [writeField_rewrites hfits]
  refine rewriteSector_ok hok hwf hpages ?_ ha
  rw [patch_length (by rw [Memory.length_readBytes]; omega), Memory.length_readBytes]
  rfl

/-- A field write stores the bytes at the offset and leaves every other byte as it was (R122). -/
theorem read_fieldWritten {off : Nat} {bs : List Byte} {s : State} (hok : s.params.Ok) (hwf : s.flash.wf = true)
    (hfits : off + bs.length ≤ s.params.metaMax) (a : Nat) : (fieldWritten off bs s).flash.read a =
      if s.params.metaBase.toNat + off ≤ a ∧ a < s.params.metaBase.toNat + off + bs.length
      then (bs[a - (s.params.metaBase.toNat + off)]?).getD erasedByte else s.flash.read a := by
  obtain ⟨-, -, hmax, hspace⟩ := sector_ok hok
  have hlen : off + bs.length ≤ (s.flash.readBytes s.params.metaBase.toNat s.params.metaSectorSize).length := by
    rw [Memory.length_readBytes]; omega
  rw [fieldWritten_flash, Memory.read_writeBytes (Memory.wf_erase hwf _), patch_length hlen, Memory.length_readBytes]
  by_cases hin : s.params.metaBase.toNat ≤ a ∧ a < s.params.metaBase.toNat + s.params.metaSectorSize
  · rw [if_pos hin, getElem?_patch hlen]
    by_cases hfield : s.params.metaBase.toNat + off ≤ a ∧ a < s.params.metaBase.toNat + off + bs.length
    · rw [if_pos hfield, if_pos (by omega), Nat.sub_sub]
    · have hback : s.params.metaBase.toNat + (a - s.params.metaBase.toNat) = a := by omega
      rw [if_neg hfield, if_neg (by omega), Memory.getElem?_readBytes, if_pos (by omega), hback, Nat.mod_eq_of_lt (by omega),
        Option.getD_some]
  · have hother : (s.flash.erase s.params.metaSector).read a = s.flash.read a := Memory.read_erase_other s.flash hin
    rw [if_neg hin, if_neg (by omega)]
    exact hother

section
variable {off : Nat} {bs : List Byte} {s : State} (hok : s.params.Ok) (hwf : s.flash.wf = true)
include hok hwf

/-- The field written reads back (R36, R122). -/
theorem readBytes_fieldWritten_same (hfits : off + bs.length ≤ s.params.metaMax) :
    (fieldWritten off bs s).flash.readBytes (s.params.metaBase.toNat + off) bs.length = bs := by
  obtain ⟨-, -, hmax, hspace⟩ := sector_ok hok
  apply List.ext_getElem?
  intro j
  rw [Memory.getElem?_readBytes]
  split
  · rename_i hj
    rw [Nat.mod_eq_of_lt (by omega), read_fieldWritten hok hwf hfits, if_pos (by omega), Nat.add_sub_cancel_left,
      List.getElem?_eq_getElem hj]
    rfl
  · rename_i hj
    exact (List.getElem?_eq_none (Nat.not_lt.1 hj)).symm

/-- A range apart from the field reads as before (R122). -/
theorem readBytes_fieldWritten_other (hfits : off + bs.length ≤ s.params.metaMax) {a n : Nat} (hspace : a + n ≤ addressSpace)
    (hapart : a + n ≤ s.params.metaBase.toNat + off ∨ s.params.metaBase.toNat + off + bs.length ≤ a) :
    (fieldWritten off bs s).flash.readBytes a n = s.flash.readBytes a n := by
  refine readBytes_congr_range hspace fun c hlo hhi => ?_
  rw [read_fieldWritten hok hwf hfits, if_neg (by omega)]

/-- A stored word reads back (R7, R36). -/
theorem wordAt_fieldWritten {v : Word} (hfits : off + (le32Bytes v).length ≤ s.params.metaMax) :
    (fieldWritten off (le32Bytes v) s).wordAt (s.params.metaBase.toNat + off) = v := by
  have hbytes := readBytes_fieldWritten_same hok hwf hfits
  rw [le32Bytes_length] at hbytes
  rw [State.wordAt, hbytes, le32_le32Bytes]

theorem appLength_lengthWritten (v : Word) : (fieldWritten Config.lenOff (le32Bytes v) s).appLength = v :=
  wordAt_fieldWritten hok hwf (word_fits hok v (by decide))

theorem appChecksum_checksumWritten (v : Word) : (fieldWritten Config.crcOff (le32Bytes v) s).appChecksum = v :=
  wordAt_fieldWritten hok hwf (word_fits hok v (by decide))

/-- The two fields do not overlap (R36). -/
theorem appLength_checksumWritten (v : Word) : (fieldWritten Config.crcOff (le32Bytes v) s).appLength = s.appLength := by
  obtain ⟨-, -, hmax, hspace⟩ := sector_ok hok
  have hfits := word_fits hok (off := Config.crcOff) v (by decide)
  rw [le32Bytes_length] at hfits
  have hbytes : (fieldWritten Config.crcOff (le32Bytes v) s).flash.readBytes (s.params.metaBase.toNat + 0) 4 = _ :=
    readBytes_fieldWritten_other hok hwf (word_fits hok v (by decide)) (by omega) (.inl (Nat.le_refl _))
  exact congrArg le32 hbytes

/-- The image lies apart from the metadata sector (log 11). -/
theorem imageBytes_fieldWritten (hfits : off + bs.length ≤ s.params.metaMax) {n : Nat}
    (hn : n * s.params.crcWordBytes ≤ s.params.appMax) : (fieldWritten off bs s).imageBytes n = s.imageBytes n := by
  obtain ⟨-, -, hmax, -⟩ := sector_ok hok
  obtain ⟨-, -, -, hspace, -, -, -, -, -, hapart, -⟩ := id hok
  rw [State.imageBytes, fieldWritten_params]
  exact readBytes_fieldWritten_other hok hwf hfits (by omega) (by omega)

end

/-! ### The obligations -/

/-- Settles O30 (R36, R90 to R94; log 30): the two cases of the length guard. -/
theorem verifyChecksImage : Obligations.VerifyChecksImage := by
  intro s
  dsimp only
  split
  · rename_i h
    have hv : verifyWith Config.crc32Fn s = _ := verifyWith_tooLong _ h
    simp only [exec, execVerify, hv, fetchMetadata_eq, State.respond]
  · rename_i h
    have hv : verifyWith Config.crc32Fn s = _ := verifyWith_fits _ (Nat.not_lt.1 h)
    simp only [exec, execVerify, hv, fetchMetadata_eq, State.respond, State.checksum32, State.log, List.append_assoc]
    rfl

/-- Settles O31: an erased length field is `0xFFFFFFFF`, above the guard. -/
theorem verifyFailsOnErasedLength : Obligations.VerifyFailsOnErasedLength := by
  intro s hspace herased hmax
  have hlen : s.params.appMax < s.appLength.toNat := by
    rw [appLength_erased (by omega) herased]
    exact hmax
  refine ⟨(fetchMetadata s).respond (.iv false), s.flash.readBytes s.params.metaBase.toNat 4,
    s.flash.readBytes (s.params.metaBase.toNat + 4) 4, congrArg Host.Outcome.next (verifyWith_tooLong _ hlen), rfl, ?_⟩
  simp [fetchMetadata_eq]

/-- Settles O32: the two answers are the same guard and, where it passes, the same comparison over the same bytes. -/
theorem verifyDependsOnCoveredBytes : Obligations.VerifyDependsOnCoveredBytes := by
  intro s s' hok hparams hlen hsum hread
  obtain ⟨-, -, -, hspace, -⟩ := hok
  refine ⟨_, _, rfl, rfl, ?_⟩
  have hwords : s'.crcWords = s.crcWords := by rw [State.crcWords, hlen, hparams, ← State.crcWords]
  have himage (hfits : s.appLength.toNat ≤ s.params.appMax) : s'.imageBytes s.crcWords = s.imageBytes s.crcWords :=
    imageBytes_congr hparams (Nat.le_trans (covered_inside hfits) hspace) (by rw [crcWords_mul]; exact hread)
  simp only [verifyWith_rsp, hparams, hlen, hsum, hwords]
  by_cases hfits : s.appLength.toNat ≤ s.params.appMax
  · rw [himage hfits]
  · simp only [hfits, false_and]

/-- Settles O52: both fields read back after the two writes, and the covered bytes are those of before. -/
theorem storedChecksumRoundTrip : Obligations.StoredChecksumRoundTrip := by
  intro s n c hinv hmax hpages ha
  obtain ⟨hok, hwf, -⟩ := hinv
  have hlenFits := word_fits hok (off := Config.lenOff) n (by decide)
  have hsumFits := word_fits hok (off := Config.crcOff) c (by decide)
  let t := fieldWritten Config.lenOff (le32Bytes n) s
  let u := fieldWritten Config.crcOff (le32Bytes c) t
  have hokt : t.params.Ok := hok
  have hwft : t.flash.wf = true := fieldWritten_wf hwf _ _
  have hat : AnswersOk (1 + s.params.metaSectorSize / 8) t := answersOk_after ha (fieldWritten_answers ..) (by omega)
  have hfirst : writeField Config.lenOff (le32Bytes n) s = .next (.stored, t) :=
    writeField_ok hok hwf hlenFits hpages (answersOk_after (m := 0) ha rfl (by omega))
  have hsecond : writeField Config.crcOff (le32Bytes c) t = .next (.stored, u) := writeField_ok hokt hwft hsumFits hpages hat
  have hlen : u.appLength = n := (appLength_checksumWritten hokt hwft c).trans (appLength_lengthWritten hok hwf n)
  have hsum : u.appChecksum = c := appChecksum_checksumWritten hokt hwft c
  have hparams : u.params = s.params := rfl
  have himage : u.imageBytes u.crcWords = s.imageBytes (n.toNat / s.params.crcWordBytes) := by
    have hcovered := Nat.le_trans (Nat.div_mul_le_self n.toNat s.params.crcWordBytes) hmax
    rw [State.crcWords, hlen, hparams, imageBytes_fieldWritten hokt hwft hsumFits hcovered,
      imageBytes_fieldWritten hok hwf hlenFits hcovered]
  refine ⟨t, u, _, hfirst, hsecond, rfl, ?_⟩
  simp only [verifyWith_rsp, hlen, hsum, himage, hparams, hmax, true_and]
  rfl

end Sys2Proof.Proofs
end

section
/-! Proofs of the family 42_external_capabilities.md: the contracts of a read and of a program of the flash. -/

namespace Sys2Proof.Proofs
open Sys2Proof Sys2Proof.Machine

/-! ### FlashProgram -/

/-- An aligned double-word ends inside the address space (R37). -/
theorem dword_inSpace {addr : Word} (hal : addr.toNat % 8 = 0) : addr.toNat + 8 ≤ addressSpace := by
  have hlt := addr.isLt
  simp only [addressSpace]
  omega

/-- The test of R101 passes only where the eight bytes are erased. -/
theorem erased_of_dwordErased {m : Memory} {a : Nat} (hspace : a + 8 ≤ addressSpace) (h : dwordErased m a = true) :
    Erased m a 8 := by
  intro k hk
  have hbyte : (m.readBytes a 8)[k]? = some (m.read (a + k)) := by
    rw [Memory.getElem?_readBytes, if_pos hk, Nat.mod_eq_of_lt (by omega)]
  simpa using List.all_eq_true.1 h _ (List.mem_of_getElem? hbyte)

/-- What the region test of R78 and R101 asks. -/
theorem regionHolds_iff {r : Region} {a n : Nat} : Region.holds r a n = true ↔ r.start ≤ a ∧ a + n ≤ r.stop := by
  simp only [Region.holds, Bool.and_eq_true, decide_eq_true_eq]

/-- An aligned program outside the region stops the model, unless power is lost first (R101, R163). -/
theorem flashProgram_outside {r : Region} {addr : Word} (d : DWord) {s : State} (hal : addr.toNat % 8 = 0)
    (hout : ¬ (r.start ≤ addr.toNat ∧ addr.toNat + 8 ≤ r.stop)) (hpower : s.answers.head? ≠ some .lostBefore) :
    flashProgram r addr d s = .fault .regionViolation := by
  have hholds : Region.holds r addr.toNat 8 = false := Bool.eq_false_iff.2 (mt regionHolds_iff.1 hout)
  unfold flashProgram
  rw [if_neg (not_not.2 hal), if_pos hholds, orLost_stop hpower]

section
variable {r : Region} {addr : Word} {s : State}
variable (hal : addr.toNat % 8 = 0) (hlo : r.start ≤ addr.toNat) (hhi : addr.toNat + 8 ≤ r.stop)
include hal hlo hhi

/-- An aligned program inside the region that fails in hardware (R101, R102). -/
theorem flashProgram_hardwareErr (d : DWord) (ha : s.answers.head? = some .err) :
    flashProgram r addr d s = .next (.err, (s.draw.2.scramble s.draws addr.toNat 8).log (.prog addr d .err)) := by
  have hholds : Region.holds r addr.toNat 8 = true := regionHolds_iff.2 ⟨hlo, hhi⟩
  simp [flashProgram, hal, hholds, draw_listed ha]

/-- An aligned program inside the region of a double-word that is not erased stops the model (R101). -/
theorem flashProgram_notErased (d : DWord) (ha : s.answers.head? = some .ok) (he : ¬ Erased s.flash addr.toNat 8) :
    flashProgram r addr d s = .fault .programNotErased := by
  have hholds : Region.holds r addr.toNat 8 = true := regionHolds_iff.2 ⟨hlo, hhi⟩
  have htest : dwordErased s.flash addr.toNat = false :=
    Bool.eq_false_iff.2 (mt (erased_of_dwordErased (dword_inSpace hal)) he)
  simp [flashProgram, hal, hholds, draw_listed ha, htest]

end

/-! ### The obligations -/

/-- Settles O35: the misaligned address, the region, then the environment's answer and the double-word's erasure. -/
theorem flashProgramContract : Obligations.FlashProgramContract := by
  refine fun r addr d s hwf => ⟨fun hmis => if_pos hmis, flashProgram_outside d, fun hal hlo hhi ha => ?_,
    fun hal hlo hhi ha he => ?_, fun hal hlo hhi => flashProgram_notErased hal hlo hhi d⟩
  · refine ⟨s.flash.writeBytes addr.toNat (freeBytes s.draws addr.toNat 8), ?_, fun a hother => ?_⟩
    · rw [flashProgram_hardwareErr hal hlo hhi d ha, draw_snd]
      rfl
    · exact Memory.read_writeBytes_other (by rwa [freeBytes_length])
  · obtain ⟨rest, hrest⟩ := List.head?_eq_some_iff.1 ha
    refine ⟨s.flash.writeBytes addr.toNat d.toList, ?_, fun a => ?_⟩
    · rw [hrest]
      exact flashProgram_ok hal hlo hhi (dwordErased_of_erased (dword_inSpace hal) he) hrest
    · rw [Memory.read_writeBytes hwf, Vector.length_toList]

/-- Settles O34: the bytes are those of `Memory.readBytes`, and the read is its record. -/
theorem flashReadContract : Obligations.FlashReadContract := by
  refine fun s addr n => ⟨s.flash.readBytes addr.toNat n, rfl, Memory.length_readBytes .., fun j hj => ?_⟩
  rw [Memory.getElem?_readBytes, if_pos hj]

end Sys2Proof.Proofs
end

section
/-! Proofs of the family 43_host_sequences.md: what the host's commands do, the field writes of the metadata sector, the streams of
ProgramApp and UpdateApp, the decision at the end of a countdown, and where control passes to the application. -/

namespace Sys2Proof.Proofs
open Sys2Proof Sys2Proof.Machine

/-! ### FlashErase -/

/-- An erase of whole pages that fails in hardware leaves its region unspecified, and nothing else but the environment's fields
changes (R104, U14). -/
theorem flashErase_err {r : Region} {s : State} (hpages : r.wholePages s.params.pageSize) (ha : s.answers.head? = some .err) :
    ∃ t, flashErase r s = .next (.err, t) ∧ WriterSame s t ∧ HostSame s t ∧ t.rsp = s.rsp ∧
      t.trace = s.trace ++ [.erase r .err] ∧ ∀ a, ¬ (r.start ≤ a ∧ a < r.stop) → t.flash.read a = s.flash.read a := by
  refine ⟨(s.draw.2.scramble s.draws r.start (r.stop - r.start)).log (.erase r .err), ?_, by simp [WriterSame], by simp [HostSame],
    by simp, by simp, fun a ha => ?_⟩
  · rw [flashErase, if_pos hpages, draw_listed ha]
  · rw [log_flash, scramble_flash, draw_flash, Memory.read_writeBytes_other (by rw [freeBytes_length]; omega)]

section
variable {s u : State}

theorem execEraseApp_of_ok (h : flashErase s.params.appRegion s = .next (.ok, u)) : execEraseApp s = .next u := by
  rw [execEraseApp, h, andThen_next]

theorem execEraseApp_of_err (h : flashErase s.params.appRegion s = .next (.err, u)) :
    execEraseApp s = .next (u.log (.report .flashEraseError)) := by
  rw [execEraseApp, h, andThen_next]

theorem execUpdateApp_of_ok (h : flashErase s.params.appRegion s = .next (.ok, u)) :
    execUpdateApp s = .next (startStream .updateApp u) := by
  rw [execUpdateApp, h, andThen_next]

theorem execUpdateApp_of_err (h : flashErase s.params.appRegion s = .next (.err, u)) :
    execUpdateApp s = .next (u.log (.report .flashEraseError)) := by
  rw [execUpdateApp, h, andThen_next]

end

theorem execEraseApp_partialPages {s : State} (hpages : ¬ s.params.appRegion.wholePages s.params.pageSize)
    (hpower : s.answers.head? ≠ some .lostBefore) : execEraseApp s = .refused .partialPageErase := by
  rw [execEraseApp, flashErase_partialPages hpages hpower, andThen_refused]

/-! ### Steps after which nothing lands -/

/-- Where the environment has nothing in store a step is the turn of the host (R117, R127). -/
theorem step_of_hostTurn {s t : State} (happ : s.app = none) (hcmds : s.cmds = []) (hwire : s.wire = [])
    (h : hostTurn s = .next t) : step s = .next t := by
  have hquiet : t.wire = [] := (hostTurn_lawful h).keeps.wire.trans hwire
  rw [step_hostTurn happ hcmds, h, andThen_next, finishStep_quiet hwire hquiet]

/-! ### AppLauncher -/

/-- AppLauncher compares the high bits of the word (R130). -/
theorem stackPlausible_iff {p : Params} {w : Word} :
    stackPlausible p w = true ↔ w >>> (32 - p.stackBits) = p.stackPattern >>> (32 - p.stackBits) := beq_iff_eq

/-- A jump to an image whose first word is plausible (R130). -/
theorem jump_plausible {a : Word} {s : State} (h : stackPlausible s.params (s.wordAt a.toNat) = true) :
    jump a s = { s with
      interrupts := false, transport := false, app := some ⟨s.wordAt a.toNat, s.wordAt (a.toNat + 4)⟩,
      trace := s.trace ++ [.disableInterrupts] } := if_pos h

/-- A jump that returns (R130). -/
theorem jump_implausible {a : Word} {s : State} (h : ¬ stackPlausible s.params (s.wordAt a.toNat) = true) :
    jump a s = s.log (.report .noApplicationFound) := if_neg h

theorem jump_app (a : Word) (s : State) : (jump a s).app =
    if stackPlausible s.params (s.wordAt a.toNat) then some ⟨s.wordAt a.toNat, s.wordAt (a.toNat + 4)⟩ else s.app := by
  unfold jump
  split <;> rfl

/-- A jump writes nothing but what it switches off, the control transfer and a record (R130; log 31). -/
theorem jump_eq (a : Word) (s : State) : ∃ i t l e, jump a s = { s with interrupts := i, transport := t, app := l, trace := e } := by
  unfold jump
  split <;> exact ⟨_, _, _, _, rfl⟩

/-- VERIFY writes nothing but the response and its records (R90). -/
theorem verifyWith_eq (crc : List Byte → Word) (s : State) : ∃ r e, verifyWith crc s = { s with rsp := r, trace := e } := by
  unfold verifyWith
  split <;> exact ⟨_, _, rfl⟩

theorem jumpIfValid_valid {s : State} (h : s.rsp = some (.iv true)) : jumpIfValid s = jump s.params.appBase s := if_pos h

theorem jumpIfValid_invalid {s : State} (h : s.rsp ≠ some (.iv true)) : jumpIfValid s = s := if_neg h

/-- Whether it jumps or not, the host writes no more than a jump does (R121). -/
theorem jumpIfValid_eq (s : State) : ∃ i t l e, jumpIfValid s = { s with interrupts := i, transport := t, app := l, trace := e } := by
  unfold jumpIfValid
  split
  · exact jump_eq _ s
  · exact ⟨_, _, _, _, rfl⟩

/-! ### MetadataStore -/

/-- `le32_bytes` undoes `le32` on four bytes (R7). -/
theorem le32Bytes_le32 {bs : List Byte} (h : bs.length = 4) : le32Bytes (le32 bs) = bs := by
  obtain ⟨b0, b1, b2, b3, rfl⟩ : ∃ b0 b1 b2 b3, bs = [b0, b1, b2, b3] := List.length_eq_four.1 h
  have h0 := b0.isLt
  have h1 := b1.isLt
  have h2 := b2.isLt
  have h3 := b3.isLt
  simp only [le32Bytes, le32, leNat, BitVec.toNat_ofNat, List.cons.injEq, and_true]
  refine ⟨?_, ?_, ?_, ?_⟩ <;> apply BitVec.eq_of_toNat_eq <;> rw [BitVec.toNat_ofNat] <;> omega

/-- A rewrite of the sector fails by its erase or by a program (R122, R141). -/
theorem rewriteSector_error {scratch : List Byte} {s t : State} {e : HostError} (h : rewriteSector scratch s = .next (.error e, t)) :
    e = .flashEraseError ∨ e = .flashProgramError := by
  obtain ⟨⟨r, u⟩, -, hk⟩ := andThen_eq_next h
  cases r with
  | ok =>
    obtain ⟨⟨r', v⟩, -, hk'⟩ := andThen_eq_next hk
    cases r' <;> cases hk'
    exact .inr rfl
  | err => cases hk; exact .inl rfl
  | lost => cases hk

/-- A field write that passes the guard of R123 fails by its rewrite only. -/
theorem writeField_error {off : Nat} {bs : List Byte} {s t : State} {e : HostError} (hfits : off + bs.length ≤ s.params.metaMax)
    (h : writeField off bs s = .next (.error e, t)) : e = .flashEraseError ∨ e = .flashProgramError := by
  rw [writeField_rewrites hfits] at h
  exact rewriteSector_error h

/-- Power lost before an aligned program comes before anything of it (R163). -/
theorem flashProgram_lostBefore {r : Region} {addr : Word} (d : DWord) {s : State} (hal : addr.toNat % 8 = 0)
    (ha : s.answers.head? = some .lostBefore) : flashProgram r addr d s = .next (.lost, powerLoss s.draw.2) := by
  simp [flashProgram, orLost, hal, draw_listed ha]

theorem programSector_lostBefore {d : DWord} {ds : List DWord} {a : Word} {s : State} (hal : a.toNat % 8 = 0)
    (ha : s.answers.head? = some .lostBefore) : programSector (d :: ds) a s = .next (.lost, powerLoss s.draw.2) := by
  rw [programSector, flashProgram_lostBefore d hal ha, andThen_next]

/-- A rewrite whose programs end with a loss of power (R122, R163). -/
theorem rewriteSector_of_lost {scratch : List Byte} {s t u : State} (herase : flashErase s.params.metaSector s = .next (.ok, t))
    (hprogram : programSector (wordsPadded scratch) t.params.metaBase t = .next (.lost, u)) :
    rewriteSector scratch s = .next (.lost, u) := by
  simp only [rewriteSector, herase, andThen_next, hprogram]

/-- Power lost between the erase of a rewrite and its first program (R124, R163). -/
theorem rewriteSector_lostAfterErase {scratch : List Byte} {s : State} {rest : List Answer}
    (hpages : s.params.metaSector.wholePages s.params.pageSize) (hal : s.params.metaBase.toNat % 8 = 0) (hne : 0 < scratch.length)
    (ha : s.answers = .ok :: .lostBefore :: rest) :
    ∃ t, rewriteSector scratch s = .next (.lost, t) ∧ t.flash = s.flash.erase s.params.metaSector ∧ t.params = s.params := by
  obtain ⟨d, ds, hds⟩ : ∃ d ds, wordsPadded scratch = d :: ds :=
    List.exists_cons_of_length_pos (by rw [wordsPadded_length]; omega)
  refine ⟨_, rewriteSector_of_lost (flashErase_ok hpages ha) (by rw [hds]; exact programSector_lostBefore hal rfl), ?_, ?_⟩
  · exact draw_flash _
  · exact draw_params _

theorem appChecksum_erased {s : State} (hspace : s.params.metaBase.toNat + 8 ≤ addressSpace)
    (h : Erased s.flash s.params.metaBase.toNat 8) : s.appChecksum = 0xFFFFFFFF#32 := by
  have herased : Erased s.flash (s.params.metaBase.toNat + 4) 4 := fun k hk => by
    rw [Nat.add_assoc]
    exact h (4 + k) (by omega)
  rw [State.appChecksum, State.wordAt, readBytes_erased (by omega) herased]
  decide

/-! ### The wait of WriteChecksum -/

/-- With no Frame the wait of a multi-frame operation goes on (R119, R120). -/
theorem hostTurn_noFrame {s : State} {op : MultiFrame} (hdisp : s.dispatcher = .awaitingMore op) (hframe : s.frame = none) :
    hostTurn s = .next s := by
  simp only [hostTurn, hdisp, awaitFrame, hframe]

/-- The Frame a WriteChecksum waits for (R120). -/
theorem hostTurn_checksumFrame {s : State} {f : List Byte} (hdisp : s.dispatcher = .awaitingMore .writeChecksum)
    (hframe : s.frame = some f) : hostTurn s = storeChecksum f { s with frame := none } := by
  simp only [hostTurn, hdisp, awaitFrame, hframe]

theorem storeChecksum_short {f : List Byte} {s : State} (h : f.length < 4) : storeChecksum f s = .next s := if_pos h

theorem storeChecksum_of_writeField {f : List Byte} {s : State} {p : StoreResult × State} (hlen : 4 ≤ f.length)
    (h : writeField Config.crcOff (f.take 4) s = .next p) : storeChecksum f s = .next (afterStore .writeChecksum p) := by
  rw [storeChecksum, if_neg (Nat.not_lt.2 hlen), h, andThen_next]

/-! ### FrameReceiver and BootSequencer -/

/-- At the end of a countdown in `Idle` the sequencer decides (R127). -/
theorem hostTurn_decision {s : State} (hdisp : s.dispatcher = .idle) (hticks : s.ticks = 0) : hostTurn s = bootDecision s := by
  simp only [hostTurn, hdisp, if_pos hticks]

/-- A tick without a Frame (R127). -/
theorem hostTurn_emptyTick {s : State} (hdisp : s.dispatcher = .idle) (hticks : s.ticks ≠ 0) (hframe : s.frame = none) :
    hostTurn s = .next { s with ticks := s.ticks - 1 } := by
  simp only [hostTurn, hdisp, if_neg hticks, idleTick, hframe]

theorem bootDecision_stay {s : State} (h : s.boot = .stay) : bootDecision s = .next { s with ticks := Config.windowTicks } := by
  simp only [bootDecision, h]

/-- With a command seen the device stays in update mode (R127). -/
theorem bootDecision_seen {s : State} (h : s.boot = .commandWindow) (hseen : s.commandSeen = true) :
    bootDecision s = .next { s with boot := .stay, ticks := Config.windowTicks } := by
  simp only [bootDecision, h, if_pos hseen]

/-- Where no command was seen the state after VERIFY and what follows it decides: an application launched, or another countdown
(R127; log 14). -/
theorem bootDecision_unseen {s u : State} (h : s.boot = .commandWindow) (hseen : s.commandSeen = false)
    (hu : jumpIfValid (verifyWith Config.crc32Fn s) = u) :
    bootDecision s = .next (if u.app.isSome then { u with boot := .launch } else { u with ticks := Config.windowTicks }) := by
  simp [bootDecision, h, hseen, execVerify, hu]

/-! ### The streams of ProgramApp and UpdateApp -/

theorem execEndOfStream_stream {s : State} {op : MultiFrame} (data : List Byte) (hdisp : s.dispatcher = .awaitingMore op)
    (hop : op ≠ .writeChecksum) : execEndOfStream data s = finishStream op data s := by
  cases op with
  | writeChecksum => exact absurd rfl hop
  | programApp => simp only [execEndOfStream, hdisp]
  | updateApp => simp only [execEndOfStream, hdisp]

section
variable {s u : State} {op : MultiFrame} {data : List Byte} {st : Status} {n : Word}

/-- The last FEED failed (R125; log 23). -/
theorem finishStream_failed (hfeed : execFeed s.params.appBase data s = .next u) (hrsp : u.rsp = some (.aw st n)) (hst : st ≠ .ok) :
    finishStream op data s = .next u.abortStream := by
  cases st with
  | ok => exact absurd rfl hst
  | flashProgramError => simp only [finishStream, hfeed, andThen_next, hrsp]
  | aborted => simp only [finishStream, hfeed, andThen_next, hrsp]

theorem finishStream_ok (hfeed : execFeed s.params.appBase data s = .next u) (hrsp : u.rsp = some (.aw .ok n)) :
    finishStream op data s = closeStream op u := by
  simp only [finishStream, hfeed, andThen_next, hrsp]

/-- FINISH failed (R125; log 23). -/
theorem closeStream_failed (hfinish : execFinish s = .next u) (hrsp : u.rsp = some (.aw st n)) (hst : st ≠ .ok) :
    closeStream op s = .next u.abortStream := by
  cases st with
  | ok => exact absurd rfl hst
  | flashProgramError => simp only [closeStream, hfinish, andThen_next, hrsp]
  | aborted => simp only [closeStream, hfinish, andThen_next, hrsp]

/-- The total of FINISH is what the field write stores (R119). -/
theorem closeStream_of_writeField {p : StoreResult × State} (hfinish : execFinish s = .next u) (hrsp : u.rsp = some (.aw .ok n))
    (hstore : writeField Config.lenOff (le32Bytes n) u = .next p) : closeStream op s = .next (afterStore op p) := by
  simp only [closeStream, hfinish, andThen_next, hrsp, hstore]

/-- The host gives the stream up after a response that is not `OK` (R125; log 23). -/
theorem afterPayload_failed (hdisp : s.dispatcher = .awaitingMore op) (hrsp : s.rsp = some (.aw st n)) (hst : st ≠ .ok) :
    afterPayload s = s.abortStream := by
  have hfailed : Rsp.failed (.aw st n) = true := by
    cases st with
    | ok => exact absurd rfl hst
    | flashProgramError => rfl
    | aborted => rfl
  simp only [afterPayload, hdisp, hrsp, Option.map_some, Option.getD_some, if_pos hfailed]

end

/-! ### What a failed stream leaves -/

theorem abortStream_trace (s : State) : s.abortStream.trace = s.trace ++ [.report .flashProgramError] := rfl

theorem hostSame_app {s t : State} (h : HostSame s t) : t.app = s.app := by
  obtain ⟨-, -, -, -, -, -, -, -, happ, -⟩ := h
  exact happ

/-- A FEED that gave a response lost no power, so the host is as it was (R8, R163). -/
theorem execFeed_responded {s t : State} {base : Word} {chunk : List Byte} {r : Rsp} (h : execFeed base chunk s = .next t)
    (hrsp : t.rsp = some r) : HostSame s t := by
  obtain ⟨-, hl | ⟨hh, -⟩⟩ := execFeed_spec h
  · rw [hl.rsp] at hrsp; cases hrsp
  · exact hh

theorem execFinish_responded {s t : State} {r : Rsp} (h : execFinish s = .next t) (hrsp : t.rsp = some r) : HostSame s t := by
  obtain ⟨-, hl | ⟨hh, -⟩⟩ := execFinish_spec h
  · rw [hl.rsp] at hrsp; cases hrsp
  · exact hh

/-- A field write that ended in an error lost no power. -/
theorem writeField_error_host {off : Nat} {bs : List Byte} {s t : State} {e : HostError}
    (h : writeField off bs s = .next (.error e, t)) : HostSame s t := by
  obtain ⟨-, ⟨hl, -⟩ | ⟨-, hh, -⟩⟩ := writeField_spec h
  · cases hl
  · exact hh

/-- The length field lies apart from the application region (log 11). -/
theorem appLength_congr {s t : State} (hok : s.params.Ok) (hparams : t.params = s.params)
    (h : ∀ a, ¬ (s.params.appRegion.start ≤ a ∧ a < s.params.appRegion.stop) → t.flash.read a = s.flash.read a) :
    t.appLength = s.appLength := by
  obtain ⟨-, -, hmax, hspace⟩ := sector_ok hok
  obtain ⟨-, -, -, -, hmeta, -, -, -, -, hapart, -⟩ := hok
  have hbytes : t.flash.readBytes s.params.metaBase.toNat 4 = s.flash.readBytes s.params.metaBase.toNat 4 :=
    readBytes_congr_range (by omega) fun c hlo hhi => h c (by simp only [Params.appRegion]; omega)
  rw [State.appLength, hparams]
  exact congrArg le32 hbytes

theorem execFeed_appLength {s t : State} {base : Word} {chunk : List Byte} (hok : s.params.Ok)
    (h : execFeed base chunk s = .next t) : t.appLength = s.appLength :=
  appLength_congr hok (execFeed_spec h).1.params fun _ => execFeed_inside h

theorem execFinish_appLength {s t : State} (hok : s.params.Ok) (h : execFinish s = .next t) : t.appLength = s.appLength :=
  appLength_congr hok (execFinish_spec h).1.params fun _ => execFinish_inside h

/-- A FEED whose first program is at a misaligned address (R168; D20, log 26). -/
theorem execFeed_misaligned {s : State} {base : Word} {chunk : List Byte} (hab : s.aborted = false) (h7 : s.pending.val ≤ 7)
    (hlen : 8 ≤ s.pending.val + chunk.length) (hmis : (base.toNat + s.count.toNat) % 8 ≠ 0)
    (hlt : base.toNat + s.count.toNat < addressSpace) :
    ∃ t d, execFeed base chunk s = .next t ∧ t.rsp = some (.aw .flashProgramError s.count) ∧ t.aborted = true ∧ t.count = s.count ∧
      t.flash = s.flash ∧
      t.trace = s.trace ++ [.prog (base + s.count) d .err, .rsp (.aw .flashProgramError s.count)] := by
  obtain ⟨d, ds, hds⟩ : ∃ d ds, wordsOf (feedStream s chunk) = d :: ds :=
    List.exists_cons_of_length_pos (by rw [wordsOf_feedStream_length, feedPrograms]; omega)
  have hptr : (s.latch base).writePointer.toNat = base.toNat + s.count.toNat := writePointer_toNat hlt
  have herr : flashProgram s.params.appRegion (s.latch base).writePointer d (s.latch base) =
      .next (.err, (s.latch base).log (.prog (s.latch base).writePointer d .err)) := if_pos (by rw [hptr]; exact hmis)
  have hrun := awProgramAll_cons_err ds (awProgram_err 8 (s := s.latch base) hlt herr)
  rw [← hds] at hrun
  refine ⟨_, d, execFeed_err hab h7 hrun, rfl, rfl, rfl, rfl, ?_⟩
  simp [abortEntry, State.respondAW, State.writePointer]

/-- From the write pointer on the image can be programmed as far as the application region reaches (R31, R37, R101). -/
theorem canProgram_image {s : State} {n : Nat} (hok : s.params.Ok) (hal : s.count.toNat % 8 = 0)
    (herased : Erased s.flash (s.params.appBase.toNat + s.count.toNat) (8 * n)) (hmax : s.count.toNat + 8 * n ≤ s.params.appMax) :
    CanProgram s.flash s.params.appRegion (s.params.appBase.toNat + s.count.toNat) n := by
  obtain ⟨hbase, -, -, hspace, -⟩ := hok
  exact .inr ⟨by omega, Nat.le_add_right .., by simp only [Params.appRegion]; omega, by omega, herased⟩

/-- A FEED of the image whose program behind `k` successful ones fails in hardware (R80, R119). -/
theorem imageFeed_hardwareErr {s : State} {f : List Byte} {k : Nat} (hok : s.params.Ok) (hwf : s.flash.wf = true)
    (hab : s.aborted = false) (h7 : s.pending.val ≤ 7) (hk : k < feedPrograms s f) (hal : s.count.toNat % 8 = 0)
    (herased : Erased s.flash (s.params.appBase.toNat + s.count.toNat) (8 * k))
    (hmax : s.count.toNat + 8 * (k + 1) ≤ s.params.appMax) (hfits : s.count.toNat + 8 * k < counterSpace) (hoks : AnswersOk k s)
    (herr : s.answers[k]? = some .err) :
    ∃ t d, execFeed s.params.appBase f s = .next t ∧
      t.rsp = some (.aw .flashProgramError (s.count + BitVec.ofNat 32 (8 * k))) ∧ t.aborted = true ∧
      t.count = s.count + BitVec.ofNat 32 (8 * k) ∧
      t.trace = s.trace ++ progEvents (s.params.appBase + s.count) ((wordsOf (s.pendingBytes ++ f)).take k) ++
        [.prog (s.params.appBase + s.count + BitVec.ofNat 32 (8 * k)) d .err,
         .rsp (.aw .flashProgramError (s.count + BitVec.ofNat 32 (8 * k)))] := by
  have hcan := canProgram_image (n := k) hok hal herased (by omega)
  obtain ⟨hbase, -, -, hspace, -⟩ := hok
  have hstop : s.params.appRegion.stop = s.params.appBase.toNat + s.params.appMax := rfl
  obtain ⟨t, d, -, hfeed, hrsp, hcount, haborted, -, -, htrace, -⟩ :=
    feedStopsAtFirstFailure s s.params.appBase f k hwf hab h7 hk hcan (by omega) (Nat.le_add_right ..) (by omega) (by omega) hfits
      hoks herr
  exact ⟨t, d, hfeed, hrsp, haborted, hcount, htrace⟩

/-- A field write whose erase fails in hardware (R122, R141). -/
theorem writeField_eraseErr {off : Nat} {bs : List Byte} {s : State} (hfits : off + bs.length ≤ s.params.metaMax)
    (hpages : s.params.metaSector.wholePages s.params.pageSize) (ha : s.answers.head? = some .err) :
    ∃ t, writeField off bs s = .next (.error .flashEraseError, t) ∧ HostSame s t ∧ WriterSame s t ∧ t.rsp = s.rsp ∧
      t.trace = s.trace ++ [.read s.params.metaBase (s.flash.readBytes s.params.metaBase.toNat s.params.metaSectorSize),
        .erase s.params.metaSector .err] ∧
      ∀ a, ¬ (s.params.metaSector.start ≤ a ∧ a < s.params.metaSector.stop) → t.flash.read a = s.flash.read a := by
  obtain ⟨t, herase, hwriter, hhost, hrsp, htrace, hread⟩ :=
    flashErase_err (s := s.flashRead s.params.metaBase s.params.metaSectorSize) hpages ha
  refine ⟨t, ?_, hhost, hwriter, hrsp, ?_, hread⟩
  · rw [writeField_rewrites hfits, rewriteSector]
    exact congrArg (andThen · _) herase
  · rw [htrace, State.flashRead, log_trace, List.append_assoc]
    rfl

/-! ### A step that gives a stream up -/

section
variable {s : State} {f : List Byte} {op : MultiFrame}
variable (happ : s.app = none) (hcmds : s.cmds = []) (hwire : s.wire = []) (hframe : s.frame = some f)
include happ hcmds hwire hframe

/-- A Frame of WriteChecksum whose field write fails (R120; log 13). -/
theorem step_failedChecksum {w : State} {e : HostError} (hdisp : s.dispatcher = .awaitingMore .writeChecksum)
    (hlen : 4 ≤ f.length) (hstore : writeField Config.crcOff (f.take 4) { s with frame := none } = .next (.error e, w)) :
    step s = .next (w.toIdle.log (.report e)) ∧ w.app = none :=
  ⟨step_of_hostTurn happ hcmds hwire ((hostTurn_checksumFrame hdisp hframe).trans (storeChecksum_of_writeField hlen hstore)),
    (hostSame_app (writeField_error_host hstore)).trans happ⟩

variable (hdisp : s.dispatcher = .awaitingMore op) (hop : op ≠ .writeChecksum) (hlen : f.length ≤ s.params.maxChunk)
variable (hmark : stripMarker f = none)
include hdisp hop hlen hmark

/-- A payload Frame whose FEED fails (R119, R125). -/
theorem step_failedFeed {u : State} {st : Status} {n : Word} (hfeed : execFeed s.params.appBase f { s with frame := none } = .next u)
    (hrsp : u.rsp = some (.aw st n)) (hst : st ≠ .ok) :
    step s = .next u.abortStream ∧ u.app = none ∧ (s.params.Ok → u.appLength = s.appLength) := by
  have hhost : HostSame { s with frame := none } u := execFeed_responded hfeed hrsp
  obtain ⟨-, hdispu, -⟩ := id hhost
  have hdec : decode s.params.maxChunk s.params.appBase .stream (.frame f) = .instr (.awFeed s.params.appBase f) :=
    decodePayload_unmarked _ hmark hlen
  have hrun : runDecoded (.instr (.awFeed s.params.appBase f)) { s with frame := none } = .next u := hfeed
  refine ⟨step_of_hostTurn happ hcmds hwire ?_, (hostSame_app hhost).trans happ,
    fun hok => execFeed_appLength (s := { s with frame := none }) hok hfeed⟩
  rw [hostTurn_payloadFrame hdisp hop hframe, hdec, hrun, andThen_next, afterPayload_failed (hdispu.trans hdisp) hrsp hst]

/-- The program behind `k` successful ones fails in hardware (R80, R125). -/
theorem step_feedHardwareErr {k : Nat} (hinv : Inv s) (hab : s.aborted = false) (hk : k < feedPrograms s f)
    (hal : s.count.toNat % 8 = 0) (herased : Erased s.flash (s.params.appBase.toNat + s.count.toNat) (8 * k))
    (hmax : s.count.toNat + 8 * (k + 1) ≤ s.params.appMax) (hfits : s.count.toNat + 8 * k < counterSpace) (hoks : AnswersOk k s)
    (herr : s.answers[k]? = some .err) :
    ∃ t d, step s = .next t ∧ t.dispatcher = .idle ∧ t.aborted = true ∧ t.count = s.count + BitVec.ofNat 32 (8 * k) ∧
      t.app = none ∧ t.appLength = s.appLength ∧
      t.trace = s.trace ++ progEvents (s.params.appBase + s.count) ((wordsOf (s.pendingBytes ++ f)).take k) ++
        [.prog (s.params.appBase + s.count + BitVec.ofNat 32 (8 * k)) d .err,
         .rsp (.aw .flashProgramError (s.count + BitVec.ofNat 32 (8 * k))), .report .flashProgramError] := by
  obtain ⟨hok, hwf, -, h7, -⟩ := hinv
  obtain ⟨u, d, hfeed, hrsp, haborted, hcount, htrace⟩ := imageFeed_hardwareErr (s := { s with frame := none }) hok hwf hab
    (h7 hab) hk hal herased hmax hfits hoks herr
  obtain ⟨hstep, happu, hlength⟩ := step_failedFeed happ hcmds hwire hframe hdisp hop hlen hmark hfeed hrsp (by decide)
  refine ⟨u.abortStream, d, hstep, rfl, haborted, hcount, happu, hlength hok, ?_⟩
  rw [abortStream_trace, htrace]
  simp [State.pendingBytes]

/-- The first program is at a misaligned address (R125, R168; D20, log 26). -/
theorem step_feedMisaligned (hab : s.aborted = false) (h7 : s.pending.val ≤ 7) (hwords : 8 ≤ s.pending.val + f.length)
    (hmis : (s.params.appBase.toNat + s.count.toNat) % 8 ≠ 0) (hlt : s.params.appBase.toNat + s.count.toNat < addressSpace) :
    ∃ t d, step s = .next t ∧ t.dispatcher = .idle ∧ t.aborted = true ∧ t.count = s.count ∧ t.flash = s.flash ∧
      t.trace = s.trace ++ [.prog (s.params.appBase + s.count) d .err, .rsp (.aw .flashProgramError s.count),
        .report .flashProgramError] := by
  obtain ⟨u, d, hfeed, hrsp, haborted, hcount, hflash, htrace⟩ :=
    execFeed_misaligned (s := { s with frame := none }) hab h7 hwords hmis hlt
  obtain ⟨hstep, -⟩ := step_failedFeed happ hcmds hwire hframe hdisp hop hlen hmark hfeed hrsp (by decide)
  refine ⟨u.abortStream, d, hstep, rfl, haborted, hcount, hflash, ?_⟩
  rw [abortStream_trace, htrace]
  simp

/-- The sticky flag is set (R80, R125; log 23). -/
theorem step_feedRefused (hab : s.aborted = true) : step s = .next { s with
    frame := none, dispatcher := .idle, rsp := some (.aw .aborted s.count),
    trace := s.trace ++ [.rsp (.aw .aborted s.count), .report .flashProgramError] } := by
  have hfeed := execFeed_refused (s := { s with frame := none }) s.params.appBase f hab
  obtain ⟨hstep, -⟩ := step_failedFeed happ hcmds hwire hframe hdisp hop hlen hmark hfeed rfl (by decide)
  rw [hstep]
  simp [State.abortStream, State.respondAW, State.respond, State.toIdle, State.log]

end

/-! ### A stream that ends well -/

/-- The state after a FEED of `data` at `base` and a FINISH that succeed: the stream is in the flash, its last double-word padded, and
nothing is pending (R72, R77, R82). -/
def imageStored (base : Word) (data : List Byte) (buf : DWord) (trace : List Event) (s : State) : State :=
  { s with
    buf := buf
    pending := 0
    count := s.count + BitVec.ofNat 32 (s.pending.val + data.length)
    base := base
    rsp := some (.aw .ok (s.count + BitVec.ofNat 32 (s.pending.val + data.length)))
    flash := s.flash.writeBytes (base.toNat + s.count.toNat) ((wordsPadded (feedStream s data)).map (·.toList)).flatten
    answers := s.answers.drop (wordsPadded (feedStream s data)).length
    draws := s.draws + (wordsPadded (feedStream s data)).length
    trace := trace }

theorem wordsPadded_feedStream_length {s : State} (h7 : s.pending.val ≤ 7) (data : List Byte) :
    (wordsPadded (feedStream s data)).length = (s.pending.val + data.length + 7) / 8 := by
  rw [wordsPadded_length, feedStream_length, Nat.min_eq_left (by omega)]

/-- What the flash holds after the stream was stored (R82 (a), (b)). -/
theorem read_imageStored {base : Word} {data : List Byte} {buf : DWord} {trace : List Event} {s : State} (hwf : s.flash.wf = true)
    (h7 : s.pending.val ≤ 7) (a : Nat) : (imageStored base data buf trace s).flash.read a =
      if base.toNat + s.count.toNat ≤ a ∧ a < base.toNat + s.count.toNat + 8 * ((s.pending.val + data.length + 7) / 8)
      then ((s.pendingBytes ++ data)[a - (base.toNat + s.count.toNat)]?).getD erasedByte else s.flash.read a := by
  rw [imageStored, Memory.read_writeBytes hwf, flatten_dwords_length, wordsPadded_feedStream_length h7, flatten_wordsPadded,
    getD_padded]
  rfl

section
variable {s : State} {base : Word} {data : List Byte}

/-- The state of the block after a FEED of `data` at `base` whose programs all answered `Ok`. -/
def fedOk (base : Word) (data : List Byte) (b : DWord) (s : State) : State :=
  afterFeed b s data (programmed (wordsOf (feedStream s data)) (s.latch base))

theorem fedOk_pending (b : DWord) : (fedOk base data b s).pending.val = (s.pending.val + data.length) % 8 :=
  Nat.mod_eq_of_lt (by omega)

/-- The full double-words of the stream and its tail (R75, R76). -/
theorem stream_bytes (s : State) (data : List Byte) :
    8 * (wordsOf (feedStream s data)).length + (s.pending.val + data.length) % 8 = s.pending.val + data.length := by
  rw [wordsOf_feedStream_length]
  exact Nat.div_add_mod ..

theorem tailOf_feedStream_length (h7 : s.pending.val ≤ 7) (data : List Byte) :
    (tailOf (feedStream s data)).length = (s.pending.val + data.length) % 8 := by
  rw [tailOf_length, feedStream_length, Nat.min_eq_left (by omega)]

/-- A stream of whole double-words needs no FINISH program (R77). -/
theorem execFinish_fedOk_whole (hab : s.aborted = false) (h7 : s.pending.val ≤ 7) (b : DWord)
    (hnil : tailOf (feedStream s data) = []) :
    ∃ e, execFinish (fedOk base data b s) = .next (imageStored base data b e s) := by
  have hmod : (s.pending.val + data.length) % 8 = 0 := by rw [← tailOf_feedStream_length h7, hnil]; rfl
  have hpending : (fedOk base data b s).pending = 0 := Fin.ext ((fedOk_pending b).trans hmod)
  have hbytes := stream_bytes s data
  rw [hmod, Nat.add_zero] at hbytes
  refine ⟨((fedOk base data b s).respondAW .ok).trace, (execFinish_nothingPending (s := fedOk base data b s) hab hpending).trans ?_⟩
  rw [imageStored, wordsPadded_of_no_tail hnil, ← hbytes, ← hpending]
  rfl

/-- The tail of a stream is programmed by FINISH (R77). -/
theorem execFinish_fedOk_partial (hab : s.aborted = false) (h7 : s.pending.val ≤ 7) {b : DWord}
    (hb : b.toList.take ((s.pending.val + data.length) % 8) = tailOf (feedStream s data))
    (hne : tailOf (feedStream s data) ≠ [])
    (hcan : CanProgram s.flash s.params.appRegion (base.toNat + s.count.toNat) (wordsPadded (feedStream s data)).length)
    (hfits : s.count.toNat + 8 * (wordsPadded (feedStream s data)).length < counterSpace)
    (hok : AnswersOk (wordsPadded (feedStream s data)).length s) :
    ∃ e, execFinish (fedOk base data b s) = .next (imageStored base data b e s) := by
  have hpending := fedOk_pending (s := s) (base := base) (data := data) b
  have hpos : 0 < (fedOk base data b s).pending.val := by
    rw [hpending, ← tailOf_feedStream_length h7]; exact List.length_pos_iff.2 hne
  have hlast : (padded b (fedOk base data b s).pending.val).toList =
      tailOf (feedStream s data) ++ List.replicate (8 - (tailOf (feedStream s data)).length) erasedByte := by
    rw [padded_toList, hpending, hb, tailOf_feedStream_length h7]
  have hwords := wordsPadded_of_tail hne hlast
  have hlen : (wordsPadded (feedStream s data)).length = (wordsOf (feedStream s data)).length + 1 := by
    rw [hwords]; exact List.length_append
  have hbytes := stream_bytes s data
  rw [← hpending] at hbytes
  have hcount : (s.count + BitVec.ofNat 32 (8 * (wordsOf (feedStream s data)).length)).toNat =
      s.count.toNat + 8 * (wordsOf (feedStream s data)).length := count_add_toNat (by omega)
  have haddr : (fedOk base data b s).writeAddr = base.toNat + s.count.toNat + 8 * (wordsOf (feedStream s data)).length :=
    (congrArg (base.toNat + ·) hcount).trans (Nat.add_assoc ..).symm
  have hcan' : CanProgram (fedOk base data b s).flash (fedOk base data b s).params.appRegion (fedOk base data b s).writeAddr 1 := by
    rw [haddr]
    exact canProgram_after hcan (flatten_dwords_length _) (Nat.le_of_eq hlen.symm)
  have hfits' : (fedOk base data b s).count.toNat + (fedOk base data b s).pending.val < counterSpace := by
    have hcount' : (fedOk base data b s).count.toNat = _ := hcount
    have hlt := (fedOk base data b s).pending.isLt
    omega
  have hok' : AnswersOk 1 (fedOk base data b s) := answersOk_after hok rfl (Nat.le_of_eq hlen.symm)
  refine ⟨(finished (padded b (fedOk base data b s).pending.val) (fedOk base data b s)).trace,
    (execFinish_ok (s := fedOk base data b s) hab hpos hcan' hfits' hok').trans ?_⟩
  rw [imageStored, hlen, hwords, ← hbytes, BitVec.ofNat_add, ← BitVec.add_assoc, ← List.drop_drop, ← Nat.add_assoc,
    ← writeBytes_dwords_append, ← haddr, List.map_singleton, List.flatten_singleton]
  rfl

end

/-- FEED and FINISH whose programs all answer `Ok` (R72, R77). -/
theorem feed_finish_ok {s : State} {base : Word} {data : List Byte} (hab : s.aborted = false) (h7 : s.pending.val ≤ 7)
    (hcan : CanProgram s.flash s.params.appRegion (base.toNat + s.count.toNat) (wordsPadded (feedStream s data)).length)
    (hfits : s.count.toNat + 8 * (wordsPadded (feedStream s data)).length < counterSpace)
    (hok : AnswersOk (wordsPadded (feedStream s data)).length s) :
    ∃ u n b e, execFeed base data s = .next u ∧ u.rsp = some (.aw .ok n) ∧ execFinish u = .next (imageStored base data b e s) := by
  have hle : feedPrograms s data ≤ (wordsPadded (feedStream s data)).length := by
    rw [wordsPadded_feedStream_length h7, feedPrograms]; omega
  have hcanFeed := canProgram_after (bs := []) (k := 0) hcan rfl (by omega : 0 + feedPrograms s data ≤ _)
  obtain ⟨b, hb, hfeed⟩ := execFeed_ok hab h7 hcanFeed (by omega) (answersOk_after (m := 0) hok rfl (by omega))
  have hfinish : ∃ e, execFinish (fedOk base data b s) = .next (imageStored base data b e s) := by
    by_cases hnil : tailOf (feedStream s data) = []
    · exact execFinish_fedOk_whole hab h7 b hnil
    · exact execFinish_fedOk_partial hab h7 hb hnil hcan hfits hok
  obtain ⟨e, hfinish⟩ := hfinish
  exact ⟨fedOk base data b s, _, b, e, hfeed, rfl, hfinish⟩

/-! ### Where control passes to the application -/

/-- From `s` to `t` control does not pass on: the control transfer and 'command seen' are as before, or power was lost. -/
structure NoTransfer (s t : State) : Prop where
  trace : ∃ l, t.trace = s.trace ++ l
  held : (t.app = s.app ∧ t.commandSeen = s.commandSeen) ∨ (t.app = none ∧ .powerLoss ∈ s.news t)

theorem NoTransfer.of_same {s t : State} (htrace : ∃ l, t.trace = s.trace ++ l) (happ : t.app = s.app := by rfl)
    (hseen : t.commandSeen = s.commandSeen := by rfl) : NoTransfer s t := ⟨htrace, .inl ⟨happ, hseen⟩⟩

/-- A change of registers only, with no record. -/
theorem NoTransfer.of_regs {s t : State} (htrace : t.trace = s.trace := by rfl) (happ : t.app = s.app := by rfl)
    (hseen : t.commandSeen = s.commandSeen := by rfl) : NoTransfer s t := .of_same ⟨[], by simp [htrace]⟩ happ hseen

/-- The two ways an operation of the block or of the flash ends for the host. -/
theorem NoTransfer.of_end {s t : State} (hk : Keeps s t) (h : Lost s t ∨ HostSame s t) : NoTransfer s t := by
  rcases h with hl | ⟨-, -, -, -, hseen, -, -, -, happ, -, -⟩
  · exact ⟨hk.trace, .inr ⟨hl.app, hl.news⟩⟩
  · exact .of_same hk.trace happ hseen

theorem NoTransfer.refl (s : State) : NoTransfer s s := .of_regs

theorem NoTransfer.trans {s t u : State} (h : NoTransfer s t) (k : NoTransfer t u) : NoTransfer s u := by
  obtain ⟨l, hl⟩ := h.trace
  obtain ⟨m, hm⟩ := k.trace
  refine ⟨⟨l ++ m, by rw [hm, hl, List.append_assoc]⟩, ?_⟩
  rcases k.held with ⟨happ, hseen⟩ | ⟨happ, hlost⟩
  · rcases h.held with ⟨happ', hseen'⟩ | ⟨happ', hlost⟩
    · exact .inl ⟨happ.trans happ', hseen.trans hseen'⟩
    · exact .inr ⟨happ.trans happ', news_mono h.trace k.trace (.inl hlost)⟩
  · exact .inr ⟨happ, news_mono h.trace k.trace (.inr hlost)⟩

theorem NoTransfer.app_none {s t : State} (h : NoTransfer s t) (happ : s.app = none) : t.app = none := by
  rcases h.held with ⟨h, -⟩ | ⟨h, -⟩
  · exact h.trans happ
  · exact h

theorem log_noTransfer (s : State) (e : Event) : NoTransfer s (s.log e) := .of_same ⟨[e], rfl⟩

theorem toIdle_noTransfer (s : State) : NoTransfer s s.toIdle := .of_regs

theorem abortStream_noTransfer (s : State) : NoTransfer s s.abortStream := (toIdle_noTransfer s).trans (log_noTransfer _ _)

theorem powerLoss_noTransfer (s : State) : NoTransfer s (powerLoss s) := by
  have hl : Lost s (powerLoss s) := powerLoss_lost s s ⟨[], by simp⟩
  exact ⟨⟨[.powerLoss], rfl⟩, .inr ⟨hl.app, hl.news⟩⟩

theorem abortRecovery_noTransfer (s : State) : NoTransfer s (abortRecovery s) := .of_same ⟨[.rsp (.aw .ok 0#32)], rfl⟩

theorem execFeed_noTransfer {s t : State} {base : Word} {chunk : List Byte} (h : execFeed base chunk s = .next t) :
    NoTransfer s t := by
  obtain ⟨hk, hend⟩ := execFeed_spec h
  exact .of_end hk (hend.imp id And.left)

theorem execFinish_noTransfer {s t : State} (h : execFinish s = .next t) : NoTransfer s t := by
  obtain ⟨hk, hend⟩ := execFinish_spec h
  exact .of_end hk (hend.imp id And.left)

theorem verifyWith_noTransfer (crc : List Byte → Word) (s : State) : NoTransfer s (verifyWith crc s) := by
  have hk : Keeps s (verifyWith crc s) := (verifyWith_effect (w := False) crc s).keeps
  obtain ⟨r, e, hv⟩ := verifyWith_eq crc s
  exact .of_same hk.trace (by rw [hv]) (by rw [hv])

theorem flashErase_noTransfer {s : State} {p : PortResult × State} (h : flashErase s.params.appRegion s = .next p) :
    NoTransfer s p.2 := by
  obtain ⟨hk, hend⟩ := flashErase_spec h (.inl rfl)
  exact .of_end hk (hend.imp And.right fun ⟨_, hh, _⟩ => hh)

theorem writeField_noTransfer {off : Nat} {bs : List Byte} {s : State} {p : StoreResult × State}
    (h : writeField off bs s = .next p) : NoTransfer s p.2 := by
  obtain ⟨hk, hend⟩ := writeField_spec h
  exact .of_end hk (hend.imp And.right fun ⟨_, hh, _⟩ => hh)

theorem execEraseApp_noTransfer {s t : State} (h : execEraseApp s = .next t) : NoTransfer s t := by
  obtain ⟨⟨r, u⟩, hu, hk⟩ := andThen_eq_next h
  have hn : NoTransfer s u := flashErase_noTransfer hu
  cases r <;> cases hk
  case ok => exact hn
  case err => exact hn.trans (log_noTransfer _ _)
  case lost => exact hn

theorem startStream_noTransfer (op : MultiFrame) (s : State) : NoTransfer s (startStream op s) :=
  (abortRecovery_noTransfer s).trans .of_regs

theorem execUpdateApp_noTransfer {s t : State} (h : execUpdateApp s = .next t) : NoTransfer s t := by
  obtain ⟨⟨r, u⟩, hu, hk⟩ := andThen_eq_next h
  have hn : NoTransfer s u := flashErase_noTransfer hu
  cases r <;> cases hk
  case ok => exact hn.trans (startStream_noTransfer _ _)
  case err => exact hn.trans (log_noTransfer _ _)
  case lost => exact hn

/-- From `s` to `t` control passes on by a jump of AppLauncher to `APP_BASE` at the end, and only where `j` holds, or not at all. -/
def Passes (j : Prop) (s t : State) : Prop := NoTransfer s t ∨ (j ∧ ∃ u, NoTransfer s u ∧ t = jump u.params.appBase u)

theorem Passes.after {j : Prop} {s t u : State} (h : NoTransfer s t) (k : Passes j t u) : Passes j s u :=
  k.imp h.trans fun ⟨hj, v, hv, hu⟩ => ⟨hj, v, h.trans hv, hu⟩

theorem Passes.mono {j k : Prop} {s t : State} (h : Passes j s t) (hjk : j → k) : Passes k s t :=
  h.imp id (And.imp_left hjk)

theorem jumpIfValid_passes {j : Prop} (hj : j) (s : State) : Passes j s (jumpIfValid s) := by
  by_cases hv : s.rsp = some (.iv true)
  · exact .inr ⟨hj, s, .refl s, jumpIfValid_valid hv⟩
  · rw [jumpIfValid_invalid hv]
    exact .inl (.refl s)

/-- Behind a field write only UpdateApp jumps (R121). -/
theorem afterStore_passes (op : MultiFrame) (p : StoreResult × State) : Passes (op = .updateApp) p.2 (afterStore op p) := by
  obtain ⟨r, u⟩ := p
  cases r with
  | stored =>
    cases op with
    | updateApp => exact .inr ⟨rfl, u.toIdle, toIdle_noTransfer u, rfl⟩
    | programApp => exact .inl (toIdle_noTransfer u)
    | writeChecksum => exact .inl (toIdle_noTransfer u)
  | error e => exact .inl ((toIdle_noTransfer u).trans (log_noTransfer _ _))
  | lost => exact .inl (.refl u)

theorem storeField_passes {op : MultiFrame} {off : Nat} {bs : List Byte} {s t : State}
    (h : (andThen (writeField off bs s) fun p => .next (afterStore op p)) = .next t) : Passes (op = .updateApp) s t := by
  obtain ⟨p, hp, hk⟩ := andThen_eq_next h
  cases hk
  exact (afterStore_passes op p).after (writeField_noTransfer hp)

theorem closeStream_passes {op : MultiFrame} {s t : State} (h : closeStream op s = .next t) : Passes (op = .updateApp) s t := by
  obtain ⟨u, hu, hk⟩ := andThen_eq_next h
  refine Passes.after (execFinish_noTransfer hu) ?_
  split at hk
  · exact storeField_passes hk
  · cases hk; exact .inl (abortStream_noTransfer u)
  · cases hk; exact .inl (abortStream_noTransfer u)
  · cases hk; exact .inl (.refl _)
  · cases hk; exact .inl (.refl _)

theorem finishStream_passes {op : MultiFrame} {data : List Byte} {s t : State} (h : finishStream op data s = .next t) :
    Passes (op = .updateApp) s t := by
  obtain ⟨u, hu, hk⟩ := andThen_eq_next h
  refine Passes.after (execFeed_noTransfer hu) ?_
  split at hk
  · exact closeStream_passes hk
  · cases hk; exact .inl (abortStream_noTransfer u)
  · cases hk; exact .inl (abortStream_noTransfer u)
  · cases hk; exact .inl (.refl _)
  · cases hk; exact .inl (.refl _)

theorem execEndOfStream_passes {data : List Byte} {s t : State} (h : execEndOfStream data s = .next t) :
    Passes (s.dispatcher = .awaitingMore .updateApp) s t := by
  unfold execEndOfStream at h
  split at h
  · exact (finishStream_passes h).mono nofun
  · rename_i hdisp
    exact (finishStream_passes h).mono fun _ => hdisp
  · cases h; exact .inl (.refl s)
  · cases h; exact .inl (.refl s)

theorem storeChecksum_noTransfer {f : List Byte} {s t : State} (h : storeChecksum f s = .next t) : NoTransfer s t := by
  unfold storeChecksum at h
  split at h
  · cases h; exact .refl s
  · exact (storeField_passes h).resolve_right nofun

/-- The two commands that jump, and the end of an UpdateApp (R121). -/
def MayJump (i : Instr) (s : State) : Prop :=
  i = .hostJumpToApp ∨ i = .hostVerifyAndJump ∨ ((∃ data, i = .hostEndOfStream data) ∧ s.dispatcher = .awaitingMore .updateApp)

/-- Every instruction but a hardware reset, by which control does not pass on either (R121, R126). -/
theorem exec_passes {i : Instr} {s t : State} (h : exec i s = .next t) : i = .hostRestart ∨ Passes (MayJump i s) s t := by
  cases i with
  | awBegin => cases h; exact .inr (.inl (abortRecovery_noTransfer s))
  | awFeed base chunk => exact .inr (.inl (execFeed_noTransfer h))
  | awFinish => exact .inr (.inl (execFinish_noTransfer h))
  | ivVerify => cases h; exact .inr (.inl (verifyWith_noTransfer _ s))
  | hostConnect => cases h; exact .inr (.inl (log_noTransfer s _))
  | hostEraseApp => exact .inr (.inl (execEraseApp_noTransfer h))
  | hostProgramApp => cases h; exact .inr (.inl (startStream_noTransfer _ s))
  | hostWriteChecksum => cases h; exact .inr (.inl .of_regs)
  | hostRestart => exact .inl rfl
  | hostJumpToApp => cases h; exact .inr (.inr ⟨.inl rfl, s, .refl s, rfl⟩)
  | hostVerifyAndJump => cases h; exact .inr ((jumpIfValid_passes (.inr (.inl rfl)) _).after (verifyWith_noTransfer _ s))
  | hostUpdateApp => exact .inr (.inl (execUpdateApp_noTransfer h))
  | hostEndOfStream data => exact .inr ((execEndOfStream_passes h).mono fun hdisp => .inr (.inr ⟨⟨data, rfl⟩, hdisp⟩))

theorem exec_noTransfer {i : Instr} {s t : State} (h : exec i s = .next t) (hreset : i ≠ .hostRestart) (hjump : ¬ MayJump i s) :
    NoTransfer s t :=
  ((exec_passes h).resolve_left hreset).resolve_right fun ⟨hj, _⟩ => hjump hj

/-! ### Steps after which control has not passed on -/

/-- A CMD record carries one of the four operations of the block (R51). -/
theorem decodeCmd_cases {maxChunk : Nat} {c : Cmd} {i : Instr} (h : decodeCmd maxChunk c = .instr i) :
    i = .awBegin ∨ (∃ base chunk, i = .awFeed base chunk) ∨ i = .awFinish ∨ i = .ivVerify := by
  unfold decodeCmd at h
  split_ifs at h <;> cases h
  · exact .inl rfl
  · exact .inr (.inl ⟨_, _, rfl⟩)
  · exact .inr (.inr (.inl rfl))
  · exact .inr (.inr (.inr rfl))

theorem runCmd_noTransfer {c : Cmd} {s t : State} (h : runCmd c s = .next t) : NoTransfer s t := by
  obtain ⟨i, hi, hx⟩ := runDecoded_eq_next h
  rcases decodeCmd_cases hi with rfl | ⟨base, chunk, rfl⟩ | rfl | rfl <;> exact exec_noTransfer hx nofun (by simp [MayJump])

/-- A payload Frame is a FEED, or the end of the stream (R63, R119). -/
theorem decodePayload_cases {maxChunk : Nat} {appBase : Word} {f : List Byte} {i : Instr}
    (h : decodePayload maxChunk appBase f = .instr i) :
    i = .awFeed appBase f ∨ ∃ data, i = .hostEndOfStream data ∧ stripMarker f = some data := by
  have hlen := decodePayload_length h
  cases hmark : stripMarker f with
  | none => rw [decodePayload_unmarked appBase hmark hlen] at h; cases h; exact .inl rfl
  | some data => rw [decodePayload_marked appBase hmark hlen] at h; cases h; exact .inr ⟨data, rfl, rfl⟩

theorem afterPayload_noTransfer (s : State) : NoTransfer s (afterPayload s) := by
  unfold afterPayload
  split
  · exact .refl s
  · split
    · exact abortStream_noTransfer s
    · exact .refl s

theorem streamFrame_noTransfer {f : List Byte} {s t : State} (h : streamFrame f s = .next t)
    (hupdate : s.dispatcher = .awaitingMore .updateApp → ∀ data, stripMarker f ≠ some data) : NoTransfer s t := by
  obtain ⟨u, hu, hk⟩ := andThen_eq_next h
  obtain ⟨i, hi, hx⟩ := runDecoded_eq_next hu
  cases hk
  refine NoTransfer.trans ?_ (afterPayload_noTransfer u)
  rcases decodePayload_cases hi with rfl | ⟨data, rfl, hmark⟩
  · exact exec_noTransfer hx nofun (by simp [MayJump])
  · refine exec_noTransfer hx nofun ?_
    rintro (hc | hc | ⟨-, hdisp⟩)
    · cases hc
    · cases hc
    · exact hupdate hdisp data hmark

/-- With a command seen no decision invokes AppLauncher (R127). -/
theorem bootDecision_noTransfer {s t : State} (hseen : s.commandSeen = true) (h : bootDecision s = .next t) : NoTransfer s t := by
  cases hboot : s.boot with
  | commandWindow => rw [bootDecision_seen hboot hseen] at h; cases h; exact .of_regs
  | launch => simp only [bootDecision, hboot] at h; cases h; exact .of_regs
  | stay => rw [bootDecision_stay hboot] at h; cases h; exact .of_regs

/-- R127 for the turn of the host, but for the two in which a command of the protocol has its effect. -/
theorem hostTurn_noTransfer {s t : State} (hseen : s.commandSeen = true)
    (hidle : s.dispatcher = .idle → s.ticks ≠ 0 → ∀ f i, s.frame = some f → decodeCommand f ≠ .instr i)
    (hupdate : s.dispatcher = .awaitingMore .updateApp → ∀ f data, s.frame = some f → stripMarker f ≠ some data)
    (h : hostTurn s = .next t) : NoTransfer s t := by
  cases hdisp : s.dispatcher with
  | idle =>
    by_cases hticks : s.ticks = 0
    · exact bootDecision_noTransfer hseen ((hostTurn_decision hdisp hticks).symm.trans h)
    · cases hframe : s.frame with
      | none => rw [hostTurn_emptyTick hdisp hticks hframe] at h; cases h; exact .of_regs
      | some f =>
        rw [hostTurn_droppedFrame hdisp hticks hframe fun i => hidle hdisp hticks f i hframe] at h
        cases h
        exact .of_regs
  | awaitingMore op =>
    cases hframe : s.frame with
    | none => rw [hostTurn_noFrame hdisp hframe] at h; cases h; exact .refl s
    | some f =>
      have hpoll : NoTransfer s { s with frame := none } := .of_regs
      refine hpoll.trans ?_
      by_cases hop : op = .writeChecksum
      · subst hop
        exact storeChecksum_noTransfer ((hostTurn_checksumFrame hdisp hframe).symm.trans h)
      · exact streamFrame_noTransfer ((hostTurn_payloadFrame hdisp hop hframe).symm.trans h) fun hd data => hupdate hd f data hframe

/-! ### What lands from outside -/

/-- A turn runs to its end, or power is lost inside it (R163). -/
theorem interrupt_cases (s t : State) : interrupt s t = t ∨ ∃ k, interrupt s t = cutShort k s t := by
  unfold interrupt
  split
  · split
    · exact .inr ⟨_, rfl⟩
    · exact .inl rfl
  · exact .inl rfl

/-- An arrival is dropped, fills the slot, or is a loss of power (R116, R163). -/
theorem arrive_cases (s : State) (a : Arrival) :
    arrive s a = s ∨ (∃ f, arrive s a = { s with frame := some f }) ∨ arrive s a = powerLoss s := by
  cases a with
  | frame f =>
    unfold arrive
    dsimp only
    split
    · exact .inr (.inl ⟨f, rfl⟩)
    · exact .inl rfl
  | powerLoss => exact .inr (.inr rfl)

/-- What holds whatever is in store, in the slot, and after a loss of power, holds after everything has landed. -/
theorem deliver_induction {P : State → Prop} {s : State} (hwire : ∀ w, P { s with wire := w })
    (hframe : ∀ u f, P u → P { u with frame := some f }) (hlost : ∀ u, P u → P (powerLoss u)) : P (deliver s) := by
  unfold deliver
  split
  · rename_i now later _
    refine List.foldlRecOn now.arrivals arrive (hwire later) fun u hu a _ => ?_
    rcases arrive_cases u a with h | ⟨f, h⟩ | h <;> rw [h]
    · exact hu
    · exact hframe u f hu
    · exact hlost u hu
  · exact hwire s.wire

/-- A step takes place in update mode only: the turn of the thread of control, then what lands (R41, R45). -/
theorem step_eq_next {s t : State} (h : step s = .next t) :
    s.app = none ∧ ∃ u, consumerTurn s = .next u ∧ t = deliver (interrupt s u) := by
  unfold step at h
  split at h
  · cases h
  · rename_i happ
    obtain ⟨u, hu, hk⟩ := andThen_eq_next h
    cases hk
    exact ⟨happ, u, hu, rfl⟩

theorem cutShort_app (k : Nat) (s t : State) : (cutShort k s t).app = none := by
  unfold cutShort
  split <;> rfl

/-- Where power is lost inside a turn the trace says so (R163). -/
theorem interrupt_noTransfer {s t : State} (hturn : consumerTurn s = .next t) (h : NoTransfer s t) : NoTransfer s (interrupt s t) := by
  rcases interrupt_cases s t with heq | ⟨k, heq⟩ <;> rw [heq]
  · exact h
  · have hk := (consumerTurn_lawful hturn).keeps
    obtain ⟨-, -, -, ⟨m, hm⟩, -⟩ := cutShort_keeps hk.records hk.params hk.wire k hk.outside hk.wf hk.inSpace
    have htrace : (cutShort k s t).trace = s.trace ++ (m ++ [.powerLoss]) := hm.trans (List.append_assoc ..)
    exact ⟨⟨_, htrace⟩, .inr ⟨cutShort_app k s t, by simp [State.news, htrace]⟩⟩

theorem deliver_noTransfer {s t : State} (h : NoTransfer s t) : NoTransfer s (deliver t) :=
  deliver_induction (P := NoTransfer s) (fun _ => h.trans .of_regs) (fun _ _ hu => hu.trans .of_regs)
    fun u hu => hu.trans (powerLoss_noTransfer u)

/-! ### Control passes to plausible images only -/

/-- Control, where it has passed on, is at the image AppLauncher checked (R130). -/
def LaunchSound (s : State) : Prop := ∀ l, s.app = some l →
  l = ⟨s.wordAt s.params.appBase.toNat, s.wordAt (s.params.appBase.toNat + 4)⟩ ∧ stackPlausible s.params l.stackPointer = true ∧
    s.interrupts = false ∧ s.transport = false

theorem LaunchSound.of_none {s : State} (h : s.app = none) : LaunchSound s := fun l hl => by rw [h] at hl; cases hl

/-- What AppLauncher looked at and what it switched off is the same. -/
theorem LaunchSound.congr {s t : State} (h : LaunchSound s) (happ : t.app = s.app := by rfl) (hflash : t.flash = s.flash := by rfl)
    (hparams : t.params = s.params := by rfl) (hints : t.interrupts = s.interrupts := by rfl)
    (htrans : t.transport = s.transport := by rfl) : LaunchSound t := by
  intro l hl
  rw [happ] at hl
  rw [hparams, hints, htrans, State.wordAt, State.wordAt, hflash]
  exact h l hl

theorem jump_launchSound {s : State} (happ : s.app = none) : LaunchSound (jump s.params.appBase s) := by
  by_cases h : stackPlausible s.params (s.wordAt s.params.appBase.toNat) = true
  · rw [jump_plausible h]
    intro l hl
    cases hl
    exact ⟨rfl, h, rfl, rfl⟩
  · rw [jump_implausible h]
    exact .of_none happ

theorem Passes.launchSound {j : Prop} {s t : State} (h : Passes j s t) (happ : s.app = none) : LaunchSound t := by
  rcases h with h | ⟨-, u, hu, rfl⟩
  · exact .of_none (h.app_none happ)
  · exact jump_launchSound (hu.app_none happ)

theorem exec_launchSound {i : Instr} {s t : State} (h : exec i s = .next t) (happ : s.app = none) : LaunchSound t := by
  rcases exec_passes h with rfl | hp
  · cases h; exact .of_none rfl
  · exact hp.launchSound happ

theorem bootDecision_launchSound {s t : State} (h : bootDecision s = .next t) (happ : s.app = none) : LaunchSound t := by
  unfold bootDecision at h
  split at h
  · cases h; exact .of_none happ
  · cases h; exact .of_none happ
  · split at h
    · cases h; exact .of_none happ
    · have hsound : LaunchSound (jumpIfValid (verifyWith Config.crc32Fn s)) :=
        (jumpIfValid_passes trivial _).launchSound ((verifyWith_noTransfer _ s).app_none happ)
      cases h
      split <;> exact hsound.congr

theorem idleFrame_launchSound {f : List Byte} {s t : State} (h : idleFrame f s = .next t) (happ : s.app = none) : LaunchSound t := by
  unfold idleFrame at h
  split at h
  · exact exec_launchSound h happ
  all_goals cases h; exact .of_none happ

theorem afterPayload_launchSound {s : State} (h : LaunchSound s) : LaunchSound (afterPayload s) := by
  unfold afterPayload
  split
  · exact h
  · split
    · exact h.congr
    · exact h

theorem streamFrame_launchSound {f : List Byte} {s t : State} (h : streamFrame f s = .next t) (happ : s.app = none) :
    LaunchSound t := by
  obtain ⟨u, hu, hk⟩ := andThen_eq_next h
  obtain ⟨i, -, hx⟩ := runDecoded_eq_next hu
  cases hk
  exact afterPayload_launchSound (exec_launchSound hx happ)

theorem hostTurn_launchSound {s t : State} (h : hostTurn s = .next t) (happ : s.app = none) : LaunchSound t := by
  unfold hostTurn at h
  split at h
  case h_1 op _ =>
    unfold awaitFrame at h
    split at h
    · cases h; exact .of_none happ
    · cases op with
      | writeChecksum => exact .of_none ((storeChecksum_noTransfer h).app_none happ)
      | programApp => exact streamFrame_launchSound h happ
      | updateApp => exact streamFrame_launchSound h happ
  case h_2 =>
    split at h
    · exact bootDecision_launchSound h happ
    · unfold idleTick at h
      split at h
      · cases h; exact .of_none happ
      · exact idleFrame_launchSound h happ

theorem consumerTurn_launchSound {s t : State} (h : consumerTurn s = .next t) (happ : s.app = none) : LaunchSound t := by
  unfold consumerTurn at h
  split at h
  · exact .of_none ((runCmd_noTransfer h).app_none happ)
  · exact hostTurn_launchSound h happ

theorem interrupt_launchSound {s t : State} (h : LaunchSound t) : LaunchSound (interrupt s t) := by
  rcases interrupt_cases s t with heq | ⟨k, heq⟩ <;> rw [heq]
  · exact h
  · exact .of_none (cutShort_app k s t)

theorem deliver_launchSound {s : State} (h : LaunchSound s) : LaunchSound (deliver s) :=
  deliver_induction (fun _ => h.congr) (fun _ _ hu => hu.congr) fun _ _ => .of_none rfl

/-! ### The obligations -/

/-- Settles O37 (R66): the acknowledgment is the record `Config.connectAck`. -/
theorem connectAcknowledges : Obligations.ConnectAcknowledges := fun _ => rfl

/-- Settles O38: the one erase answers `Ok`. -/
theorem eraseAppErasesRegion : Obligations.EraseAppErasesRegion :=
  fun _ _ hwf hpages ha => ⟨_, execEraseApp_of_ok (flashErase_ok hpages ha), rfl, Memory.read_erase hwf _⟩

/-- Settles O39: the erase fails in hardware, or is refused for its partial pages. -/
theorem eraseAppFailures : Obligations.EraseAppFailures := by
  refine fun s => ⟨fun hpages ha => ?_, execEraseApp_partialPages⟩
  obtain ⟨u, herase, hwriter, hhost, -, htrace, hread⟩ := flashErase_err hpages ha
  exact ⟨_, execEraseApp_of_err herase, hwriter, hhost, by simp [htrace], hread⟩

/-- Settles O40: BEGIN (R149), and the dispatcher waits. -/
theorem programAppStartsStream : Obligations.ProgramAppStartsStream := fun _ => rfl

/-- Settles O41: the erase answers `Ok`, and a stream starts, or `Err`, and none does. -/
theorem updateAppErasesAndStarts : Obligations.UpdateAppErasesAndStarts := by
  refine fun s hwf hpages => ⟨fun ha => ?_, fun ha => ?_⟩
  · obtain ⟨rest, hrest⟩ := List.head?_eq_some_iff.1 ha
    refine ⟨_, execUpdateApp_of_ok (flashErase_ok hpages hrest), ?_, Memory.read_erase hwf _⟩
    simp [startStream, abortRecovery, State.respondAW, State.respond, State.clearAccumulator, hrest]
  · obtain ⟨u, herase, hwriter, hhost, -, htrace, -⟩ := flashErase_err hpages ha
    exact ⟨_, execUpdateApp_of_err herase, hwriter, hhost, by simp [htrace]⟩

/-- Settles O45: a system reset writes the reset values over all of this (log 18). -/
theorem restartResets : Obligations.RestartResets :=
  fun _ => ⟨_, rfl, rfl, rfl, rfl, rfl, rfl, rfl, rfl, rfl, rfl, rfl, rfl, rfl, rfl, rfl, rfl⟩

/-- Settles O46: the two outcomes of AppLauncher's check (log 16). -/
theorem jumpToAppLaunches : Obligations.JumpToAppLaunches := by
  intro s
  dsimp only
  split
  · rename_i h
    exact congrArg Host.Outcome.next (jump_plausible (stackPlausible_iff.2 h))
  · rename_i h
    exact congrArg Host.Outcome.next (jump_implausible (mt stackPlausible_iff.1 h))

/-- Settles O47: VERIFY writes the response only, and what follows it is nothing or a jump (log 16). -/
theorem verifyAndJumpGated : Obligations.VerifyAndJumpGated := by
  intro s
  obtain ⟨r, e, hv⟩ := verifyWith_eq Config.crc32Fn s
  obtain ⟨i, t, l, e', hj⟩ := jumpIfValid_eq (verifyWith Config.crc32Fn s)
  refine ⟨verifyWith Config.crc32Fn s, jumpIfValid (verifyWith Config.crc32Fn s), rfl, rfl, ?_, ?_, ?_, ?_,
    jumpIfValid_invalid, fun hvalid => ?_⟩
  · rw [hj]
  · rw [hj, hv]
  · rw [hj, hv]; simp [WriterSame]
  · rw [hj, hv]
  · rw [jumpIfValid_valid hvalid, jump_app, hv]
    rfl

/-- Settles O49: the erase and every program answer `Ok`. -/
theorem writeFieldKeepsOthers : Obligations.WriteFieldKeepsOthers := by
  rintro s off bs ⟨hok, hwf, -⟩ hfits hpages ha
  exact ⟨_, writeField_ok hok hwf hfits hpages ha, rfl, read_fieldWritten hok hwf hfits⟩

/-- Settles O50: the guard comes first, and a write of four bytes at one of the two offsets ends within eight. -/
theorem writeFieldRejectsOverflow : Obligations.WriteFieldRejectsOverflow := by
  refine fun s off bs => ⟨fun h => if_pos h, fun hmax hlen t e h => ?_⟩
  have he : e = .flashEraseError ∨ e = .flashProgramError := by
    rcases h with h | h
    · exact writeField_error (by rw [hlen]; exact Nat.le_trans (by decide) hmax) h
    · exact writeField_error (by rw [hlen]; exact hmax) h
  rcases he with rfl | rfl <;> decide

/-- Settles O51: the sector is erased and nothing is programmed, so both fields read as erased and the length is above the guard of
R92. -/
theorem powerLossLosesMetadata : Obligations.PowerLossLosesMetadata := by
  rintro s off bs rest ⟨hok, hwf, -⟩ hfits hpages ha hmax
  obtain ⟨hal, -, hsector, hspace⟩ := sector_ok hok
  obtain ⟨-, -, -, -, hmeta, -⟩ := hok
  obtain ⟨t, hrewrite, hflash, hparams⟩ := rewriteSector_lostAfterErase (s := s.flashRead s.params.metaBase s.params.metaSectorSize)
    (scratch := patch (s.flash.readBytes s.params.metaBase.toNat s.params.metaSectorSize) off bs) hpages hal
    (by rw [patch_length (by rw [Memory.length_readBytes]; omega), Memory.length_readBytes]; omega) ha
  have hread : ∀ a, s.params.metaBase.toNat ≤ a → a < s.params.metaBase.toNat + s.params.metaSectorSize → t.flash.read a = 0xFF#8 := by
    intro a hlo hhi
    rw [hflash]
    exact (Memory.read_erase hwf _ a).trans (if_pos ⟨hlo, hhi⟩)
  have herased : Erased t.flash t.params.metaBase.toNat 8 := fun k hk => by
    rw [hparams]
    exact hread _ (Nat.le_add_right ..) (Nat.add_lt_add_left (by omega) _)
  have hspace' : t.params.metaBase.toNat + 8 ≤ addressSpace := by
    rw [hparams]
    exact Nat.le_trans (Nat.add_le_add_left (by omega) _) hspace
  have hlen : t.appLength = 0xFFFFFFFF#32 := appLength_erased (by omega) fun k hk => herased k (by omega)
  have hlong : t.params.appMax < t.appLength.toNat := by rw [hlen, hparams]; exact hmax
  refine ⟨t, verifyWith Config.crc32Fn t, (writeField_rewrites hfits).trans hrewrite, hlen, appChecksum_erased hspace' herased, hread,
    rfl, ?_⟩
  rw [verifyWith_tooLong _ hlong]
  rfl

/-- Settles O44: the wait opens, goes on, passes a short Frame over, and ends with a field write that succeeds. -/
theorem writeChecksumStores : Obligations.WriteChecksumStores := by
  refine ⟨fun _ => rfl, fun s happ hcmds hwire hdisp => ⟨fun hframe => ?_, fun f hframe => ⟨fun hshort => ?_, ?_⟩⟩⟩
  · exact step_of_hostTurn happ hcmds hwire (hostTurn_noFrame hdisp hframe)
  · exact step_of_hostTurn happ hcmds hwire ((hostTurn_checksumFrame hdisp hframe).trans (storeChecksum_short hshort))
  · rintro ⟨hok, hwf, -⟩ hlong hpages ha
    have hfour : (f.take 4).length = 4 := List.length_take_of_le hlong
    have hbytes : le32Bytes (le32 (f.take 4)) = f.take 4 := le32Bytes_le32 hfour
    have hfits := word_fits hok (off := Config.crcOff) (le32 (f.take 4)) (by decide)
    let u := fieldWritten Config.crcOff (f.take 4) { s with frame := none }
    have hstore : writeField Config.crcOff (f.take 4) { s with frame := none } = .next (.stored, u) :=
      writeField_ok hok hwf (hbytes ▸ hfits) hpages ha
    refine ⟨u.toIdle, ?_, rfl, ?_, ?_, fun a hother => ?_⟩
    · exact step_of_hostTurn happ hcmds hwire ((hostTurn_checksumFrame hdisp hframe).trans (storeChecksum_of_writeField hlong hstore))
    · have hsum := appChecksum_checksumWritten (s := { s with frame := none }) hok hwf (le32 (f.take 4))
      rwa [hbytes] at hsum
    · have hlen := appLength_checksumWritten (s := { s with frame := none }) hok hwf (le32 (f.take 4))
      rwa [hbytes] at hlen
    · have hread := read_fieldWritten (s := { s with frame := none }) hok hwf (hbytes ▸ hfits) a
      rw [hfour, if_neg (by exact hother)] at hread
      exact hread

/-- Settles O53: the empty slot is filled, the full one is not (C4). -/
theorem newestFrameIsDropped : Obligations.NewestFrameIsDropped := by
  refine fun s f g hints htrans => ⟨fun hframe => ⟨?_, ?_⟩, fun hframe => ?_⟩
  · simp [arrive, hframe, hints, htrans]
  · simp [arrive, hframe, hints, htrans]
  · simp [arrive, hframe]

/-- Settles O55: the decision by `commandSeen`, then by VERIFY's answer (log 14, log 16, log 33). (`bootDecision` is the model's own
name for the decision.) -/
theorem bootDecision_holds : Obligations.BootDecision := by
  refine fun s happ hcmds hwire hdisp hticks hboot => ⟨fun hseen => ?_, fun hseen => ?_⟩
  · exact step_of_hostTurn happ hcmds hwire ((hostTurn_decision hdisp hticks).trans (bootDecision_seen hboot hseen))
  · obtain ⟨r, e, hv⟩ := verifyWith_eq Config.crc32Fn s
    have happv : (verifyWith Config.crc32Fn s).app = none := by rw [hv]; exact happ
    have hturn := (hostTurn_decision hdisp hticks).trans (bootDecision_unseen hboot hseen rfl)
    refine ⟨_, _, rfl, step_of_hostTurn happ hcmds hwire hturn, fun hinvalid => ?_, fun hvalid hplausible => ?_⟩
    · rw [jumpIfValid_invalid hinvalid, happv]
      rfl
    · rw [jumpIfValid_valid hvalid, jump_plausible (by rw [hv]; exact hplausible), hv]
      exact ⟨rfl, rfl, rfl, rfl⟩

/-- Settles O56: neither the decision of `Stay` nor an empty tick makes a record. -/
theorem stayRerunsWindow : Obligations.StayRerunsWindow := by
  refine fun s happ hcmds hwire hdisp hframe => ⟨fun hticks hboot => ?_, fun hticks => ?_⟩
  · exact step_of_hostTurn happ hcmds hwire ((hostTurn_decision hdisp hticks).trans (bootDecision_stay hboot))
  · exact step_of_hostTurn happ hcmds hwire (hostTurn_emptyTick hdisp hticks hframe)

/-- Settles O43: each failure is that of one operation, after which the host gives up (log 13, log 23, log 26). -/
theorem streamGivenUpOnError : Obligations.StreamGivenUpOnError := by
  refine ⟨fun s f op happ hcmds hwire hdisp hop hframe hlen hmark => ⟨fun u st n hfeed hrsp hst => ?_,
      fun k => step_feedHardwareErr happ hcmds hwire hframe hdisp hop hlen hmark,
      step_feedMisaligned happ hcmds hwire hframe hdisp hop hlen hmark,
      step_feedRefused happ hcmds hwire hframe hdisp hop hlen hmark⟩,
    fun s u data op st n hdisp hop hfeed hrsp => ?_, fun s f happ hcmds hwire hdisp hframe hlen => ?_⟩
  · obtain ⟨hstep, happu, hlength⟩ := step_failedFeed happ hcmds hwire hframe hdisp hop hlen hmark hfeed hrsp hst
    exact ⟨hstep, happu, fun ⟨hok, _⟩ => hlength hok⟩
  · have happu : u.app = s.app := hostSame_app (execFeed_responded hfeed hrsp)
    have hend : exec (.hostEndOfStream data) s = finishStream op data s := execEndOfStream_stream data hdisp hop
    refine ⟨fun hst => ⟨hend.trans (finishStream_failed hfeed hrsp hst), happu, fun ⟨hok, _⟩ => execFeed_appLength hok hfeed⟩, ?_⟩
    rintro rfl v st' total hfinish hrsp'
    have happv : v.app = s.app := (hostSame_app (execFinish_responded hfinish hrsp')).trans happu
    have hclose : exec (.hostEndOfStream data) s = closeStream op u := hend.trans (finishStream_ok hfeed hrsp)
    refine ⟨fun hst => ⟨hclose.trans (closeStream_failed hfinish hrsp' hst), happv, fun ⟨hok, _⟩ => ?_⟩, ?_⟩
    · have hoku : u.params.Ok := by rw [(execFeed_spec hfeed).1.params]; exact hok
      exact (execFinish_appLength hoku hfinish).trans (execFeed_appLength hok hfeed)
    · rintro rfl w e hstore
      have happw : w.app = s.app := (hostSame_app (writeField_error_host hstore)).trans happv
      exact ⟨hclose.trans (closeStream_of_writeField hfinish hrsp' hstore), happw⟩
  · refine ⟨fun w e => step_failedChecksum happ hcmds hwire hframe hdisp hlen, fun hmeta hpages herr => ?_⟩
    obtain ⟨w, hstore, hhost, hwriter, hrsp, htrace, hread⟩ := writeField_eraseErr (off := Config.crcOff) (bs := f.take 4)
      (s := { s with frame := none }) (by rw [List.length_take_of_le hlen]; exact hmeta) hpages herr
    obtain ⟨-, -, -, -, -, hframew, -⟩ := hhost
    obtain ⟨hstep, happw⟩ := step_failedChecksum happ hcmds hwire hframe hdisp hlen hstore
    refine ⟨_, hstep, rfl, hframew, happw, hrsp, hwriter, ?_, hread⟩
    rw [log_trace, toIdle_trace, htrace]
    simp

/-- Settles O42: FEED and FINISH store the image and the field write its length; UpdateApp then does what JumpToApp does. -/
theorem endOfStreamStoresLength : Obligations.EndOfStreamStoresLength := by
  rintro s data op ⟨hok, hwf, -, h7, -⟩ hdisp hop hab hal hmax hfits herased hpages ha
  have hpend := h7 hab
  have hlen := wordsPadded_feedStream_length hpend data
  rw [← hlen] at hmax hfits herased ha ⊢
  obtain ⟨u, n, b, e, hfeed, hrsp, hfinish⟩ := feed_finish_ok hab hpend (canProgram_image hok hal herased hmax) hfits
    (answersOk_after (m := 0) ha rfl (by omega))
  have himage := read_imageStored (base := s.params.appBase) (data := data) (buf := b) (trace := e) hwf hpend
  rw [← hlen] at himage
  let v := imageStored s.params.appBase data b e s
  let total := s.count + BitVec.ofNat 32 (s.pending.val + data.length)
  have hwfv : v.flash.wf = true := Memory.wf_writeBytes hwf _ _
  have hword := word_fits hok (off := Config.lenOff) total (by decide)
  have hstore : writeField Config.lenOff (le32Bytes total) v = .next (.stored, fieldWritten Config.lenOff (le32Bytes total) v) :=
    writeField_ok (s := v) hok hwfv hword hpages (answersOk_after ha rfl (Nat.le_of_eq (Nat.add_assoc ..).symm))
  have hend : exec (.hostEndOfStream data) s = .next (afterStore op (.stored, fieldWritten Config.lenOff (le32Bytes total) v)) :=
    (execEndOfStream_stream data hdisp hop).trans <| (finishStream_ok hfeed hrsp).trans <|
      closeStream_of_writeField hfinish rfl hstore
  refine ⟨_, (fieldWritten Config.lenOff (le32Bytes total) v).toIdle, hend, ?_, ?_, ?_, fun a => ?_⟩
  · rintro rfl; rfl
  · rintro rfl; rfl
  · rw [Nat.add_assoc (wordsPadded (feedStream s data)).length, ← List.drop_drop, ← Nat.add_assoc s.draws]
    rfl
  · have hread := read_fieldWritten (s := v) hok hwfv hword a
    rw [himage] at hread
    refine hread.trans ?_
    by_cases hin : s.params.appBase.toNat + s.count.toNat ≤ a ∧
      a < s.params.appBase.toNat + s.count.toNat + 8 * (wordsPadded (feedStream s data)).length
    · obtain ⟨-, -, hsector, -⟩ := sector_ok hok
      obtain ⟨-, -, -, -, -, -, -, -, -, hapart, -⟩ := hok
      have hout : ¬ (s.params.metaBase.toNat + Config.lenOff ≤ a ∧
        a < s.params.metaBase.toNat + Config.lenOff + (le32Bytes total).length) := by omega
      rw [if_pos hin, if_pos hin]
      exact if_neg hout
    · rw [if_neg hin, if_neg hin]
      rfl

/-- Settles O57: neither the turn of the thread of control nor what lands after it passes control on (log 33). -/
theorem noAutonomousJumpAfterCommand : Obligations.NoAutonomousJumpAfterCommand := by
  intro s t hseen hidle hupdate h
  obtain ⟨happ, u, hturn, rfl⟩ := step_eq_next h
  have hu : NoTransfer s u := by
    cases hcmds : s.cmds with
    | cons c rest =>
      simp only [consumerTurn, hcmds] at hturn
      have htake : NoTransfer s { s with cmds := rest } := .of_regs
      exact htake.trans (runCmd_noTransfer hturn)
    | nil =>
      simp only [consumerTurn, hcmds] at hturn
      exact hostTurn_noTransfer hseen (hidle hcmds) (hupdate hcmds) hturn
  have ht : NoTransfer s (deliver (interrupt s u)) := deliver_noTransfer (interrupt_noTransfer hturn hu)
  refine ⟨ht.app_none happ, ?_⟩
  rcases ht.held with ⟨-, hseen'⟩ | ⟨-, hlost⟩
  · exact .inl (hseen'.trans hseen)
  · exact .inr hlost

/-- Settles O59: a turn passes control on by a jump only, and nothing that lands touches the image (log 16). -/
theorem jumpsOnlyToPlausibleImages : Obligations.JumpsOnlyToPlausibleImages := by
  intro s t l h hl
  obtain ⟨happ, u, hturn, rfl⟩ := step_eq_next h
  obtain ⟨rfl, hplausible, hints, htrans⟩ := deliver_launchSound (interrupt_launchSound (consumerTurn_launchSound hturn happ)) l hl
  exact ⟨rfl, rfl, stackPlausible_iff.1 hplausible, hints, htrans⟩

end Sys2Proof.Proofs
end

section
/-! Proofs of the family 60_exceptions.md: FEED and FINISH while `AW.aborted` is set, and where their sums and programs stop the model. -/

namespace Sys2Proof.Proofs
open Sys2Proof Sys2Proof.Machine

/-! ### Programs of unit AW that stop the model -/

/-- The address sum is tested before the program (R79; log 28). -/
theorem awProgram_addressOverflow {s : State} (d : DWord) (n : Nat) (hpower : s.answers.head? ≠ some .lostBefore)
    (hover : addressSpace ≤ s.writeAddr) : awProgram d n s = .fault .counterOverflow :=
  (if_pos hover).trans (orLost_stop hpower)

section
variable {s : State} (hlt : s.writeAddr < addressSpace)
include hlt

/-- Where the address sum does not wrap a program of the flash that stops the model is all that happens. -/
theorem awProgram_of_flashFault {d : DWord} {x : Fault} (n : Nat)
    (h : flashProgram s.params.appRegion s.writePointer d s = .fault x) : awProgram d n s = .fault x := by
  have hsum : ¬ addressSpace ≤ s.base.toNat + s.count.toNat := Nat.not_le.2 hlt
  rw [awProgram, if_neg hsum, h, andThen_fault]

variable (hal : s.writeAddr % 8 = 0)
include hal

/-- A program of unit AW outside the application region (R78; log 1). -/
theorem awProgram_outside (d : DWord) (n : Nat) (hpower : s.answers.head? ≠ some .lostBefore)
    (hout : ¬ (s.params.appRegion.start ≤ s.writeAddr ∧ s.writeAddr + 8 ≤ s.params.appRegion.stop)) :
    awProgram d n s = .fault .regionViolation := by
  rw [← writePointer_toNat hlt] at hal hout
  exact awProgram_of_flashFault hlt n (flashProgram_outside d hal hout hpower)

variable (hlo : s.params.appRegion.start ≤ s.writeAddr) (hhi : s.writeAddr + 8 ≤ s.params.appRegion.stop)
variable (hok : s.answers.head? = some .ok)
include hlo hhi hok

/-- A program of unit AW of a double-word that is not erased (R101). -/
theorem awProgram_notErased (d : DWord) (n : Nat) (hdirty : ¬ Erased s.flash s.writeAddr 8) :
    awProgram d n s = .fault .programNotErased := by
  rw [← writePointer_toNat hlt] at hal hlo hhi hdirty
  exact awProgram_of_flashFault hlt n (flashProgram_notErased hal hlo hhi d hok hdirty)

/-- The counter is tested after the program answered `Ok` (R79; log 28). -/
theorem awProgram_countOverflow (d : DWord) {n : Nat} (herased : Erased s.flash s.writeAddr 8)
    (hover : counterSpace ≤ s.count.toNat + n) : awProgram d n s = .fault .counterOverflow := by
  obtain ⟨rest, hrest⟩ := List.head?_eq_some_iff.1 hok
  have hsum : ¬ addressSpace ≤ s.base.toNat + s.count.toNat := Nat.not_le.2 hlt
  rw [← writePointer_toNat hlt] at hal hlo hhi herased
  have hprog := flashProgram_ok (d := d) hal hlo hhi (dwordErased_of_erased (dword_inSpace hal) herased) hrest
  rw [awProgram, if_neg hsum, hprog, andThen_next]
  exact if_pos hover

end

/-! ### FEED and FINISH that stop the model -/

/-- A run stops where the program behind `k` successful ones stops (R146). -/
theorem awProgramAll_fault {ds : List DWord} {k : Nat} {d : DWord} {s u : State} {x : Fault} (hd : ds[k]? = some d)
    (hrun : awProgramAll (ds.take k) s = .next (.ok, u)) (hstop : awProgram d 8 u = .fault x) :
    awProgramAll ds s = .fault x := by
  obtain ⟨hk, rfl⟩ := List.getElem?_eq_some_iff.1 hd
  conv_lhs => rw [← List.take_append_drop k ds, List.drop_eq_getElem_cons hk]
  rw [awProgramAll_append_of_ok _ hrun, awProgramAll, hstop, andThen_fault]

/-- FEED stops where its program behind `k` successful ones does, whatever that would write. -/
theorem execFeed_fault {s u : State} {base : Word} {chunk : List Byte} {k : Nat} {x : Fault} (hab : s.aborted = false)
    (h7 : s.pending.val ≤ 7) (hk : k < feedPrograms s chunk) (hu : FedWords base chunk k s u)
    (hstop : ∀ d, awProgram d 8 u = .fault x) : execFeed base chunk s = .fault x := by
  rw [← wordsOf_feedStream_length] at hk
  obtain ⟨b, -, hfeed⟩ := execFeed_eq s base chunk hab (.inl h7)
  rw [hfeed, awProgramAll_fault (List.getElem?_eq_getElem hk) hu.run (hstop _), andThen_fault]

/-- FINISH stops where its one program does. -/
theorem execFinish_fault {s : State} {x : Fault} (hab : s.aborted = false) (hpos : 0 < s.pending.val)
    (hstop : awProgram (padded s.buf s.pending.val) s.pending.val s = .fault x) : execFinish s = .fault x := by
  rw [execFinish_pending hab hpos, hstop, andThen_fault]

/-- Behind the double-words a FEED has programmed the flash is as it was. -/
theorem FedWords.erased_iff {s u : State} {base : Word} {chunk : List Byte} {k a : Nat} (h : FedWords base chunk k s u)
    (hwf : s.flash.wf = true) (hk : k ≤ feedPrograms s chunk) (ha : base.toNat + s.count.toNat + 8 * k ≤ a) (n : Nat) :
    Erased u.flash a n ↔ Erased s.flash a n := by
  refine forall₂_congr fun j _ => ?_
  rw [h.read hwf hk, if_neg (by omega)]

/-! ### The obligations -/

/-- Settles O25: FINISH makes one program, and FEED stops with the program behind `k` successful ones, at the address `a`. -/
theorem writerModelFaults : Obligations.WriterModelFaults := by
  refine ⟨fun s hab hpos => ⟨fun hpower hover => ?_, fun hpower hlt hal hout => ?_, fun hspace hal hlo hhi hok hdirty => ?_⟩,
    fun s base chunk k a hwf hab h7 hk hcan hfits hoks ha => ?_⟩
  · exact execFinish_fault hab hpos (awProgram_addressOverflow _ _ hpower hover)
  · exact execFinish_fault hab hpos (awProgram_outside hlt hal _ _ hpower hout)
  · exact execFinish_fault hab hpos (awProgram_notErased (by omega) hal hlo hhi hok _ _ hdirty)
  · obtain ⟨u, hu⟩ := exists_fedWords (Nat.le_of_lt hk) hcan hfits hoks
    obtain ⟨hparams, -⟩ := hu.host
    have haddr : u.writeAddr = a := hu.writeAddr.trans ha.symm
    have hanswer : u.answers.head? = s.answers[k]? := by rw [hu.answers, List.head?_drop]
    have hflash : Erased u.flash a 8 ↔ Erased s.flash a 8 := hu.erased_iff hwf (Nat.le_of_lt hk) (Nat.le_of_eq ha.symm) 8
    have hcount : u.count.toNat = s.count.toNat + 8 * k := by rw [hu.count, count_add_toNat hfits]
    rw [← haddr] at hflash ⊢
    rw [← hanswer, ← hparams, ← hflash]
    have hstop {x : Fault} : (∀ d, awProgram d 8 u = .fault x) → execFeed base chunk s = .fault x := execFeed_fault hab h7 hk hu
    refine ⟨fun hpower hover => hstop fun d => ?_, fun hpower hlt hal hout => hstop fun d => ?_,
      fun hspace hal hlo hhi hok hdirty => hstop fun d => ?_, fun hspace hal hlo hhi hok herased hover => hstop fun d => ?_⟩
    · exact awProgram_addressOverflow d 8 hpower hover
    · exact awProgram_outside hlt hal d 8 hpower hout
    · exact awProgram_notErased (by omega) hal hlo hhi hok d 8 hdirty
    · exact awProgram_countOverflow (by omega) hal hlo hhi hok d herased (by omega)

/-- Settles O15: the flag is the first test of both. -/
theorem abortedWriterRefuses : Obligations.AbortedWriterRefuses :=
  fun _ base chunk hab => ⟨execFeed_refused base chunk hab, execFinish_refused hab⟩

end Sys2Proof.Proofs
end

section
/-! Proofs of the family 70_reset_and_hazards.md: a program at a misaligned base, and a loss of power at any point of an action. -/

namespace Sys2Proof.Proofs
open Sys2Proof Sys2Proof.Machine

/-! ### A misaligned base -/

/-- At a misaligned write pointer a program is refused before anything else (R37, R101; D20, log 26). -/
theorem flashProgram_misaligned {s : State} (d : DWord) (hmis : s.writeAddr % 8 ≠ 0) (hlt : s.writeAddr < addressSpace) :
    flashProgram s.params.appRegion s.writePointer d s = .next (.err, s.log (.prog s.writePointer d .err)) :=
  if_pos (by rwa [writePointer_toNat hlt])

/-- Abort entry right after a refused program writes the registers of an abort and the two records, and nothing else (R80, R148). -/
theorem abortEntry_refusedProgram (s : State) (d : DWord) :
    let t := abortEntry (s.log (.prog s.writePointer d .err))
    t.rsp = some (.aw .flashProgramError s.count) ∧ t.aborted = true ∧ t.count = s.count ∧ t.base = s.base ∧ t.flash = s.flash ∧
      t.answers = s.answers ∧ HostSame s t ∧
      t.trace = s.trace ++ [.prog (s.base + s.count) d .err, .rsp (.aw .flashProgramError s.count)] :=
  ⟨rfl, rfl, rfl, rfl, rfl, rfl, by simp [HostSame, abortEntry, State.respondAW],
    by simp [abortEntry, State.respondAW, State.writePointer]⟩

/-! ### Power lost inside a program -/

/-- Power lost while an aligned program inside the region runs leaves its eight bytes unspecified (R163; log 19). -/
theorem flashProgram_lostDuring {r : Region} {addr : Word} {s : State} (d : DWord) (hal : addr.toNat % 8 = 0)
    (hlo : r.start ≤ addr.toNat) (hhi : addr.toNat + 8 ≤ r.stop) (ha : s.answers.head? = some .lostDuring) :
    flashProgram r addr d s = .next (.lost, powerLoss ((s.draw.2.scramble s.draws addr.toNat 8).log (.prog addr d .lost))) := by
  have hholds : Region.holds r addr.toNat 8 = true := regionHolds_iff.2 ⟨hlo, hhi⟩
  simp [flashProgram, hal, hholds, draw_listed ha]

/-- Nothing follows a loss of power in a program of unit AW (R163). -/
theorem awProgram_lost {d : DWord} {s t : State} (n : Nat) (hlt : s.writeAddr < addressSpace)
    (h : flashProgram s.params.appRegion s.writePointer d s = .next (.lost, t)) : awProgram d n s = .next (.lost, t) := by
  have hsum : ¬ addressSpace ≤ s.base.toNat + s.count.toNat := Nat.not_le.2 hlt
  rw [awProgram, if_neg hsum, h, andThen_next]

/-- Nor in FINISH: it gives no response (R163). -/
theorem execFinish_lost {s t : State} (hab : s.aborted = false) (hp : 0 < s.pending.val) (hlt : s.writeAddr < addressSpace)
    (h : flashProgram s.params.appRegion s.writePointer (padded s.buf s.pending.val) s = .next (.lost, t)) :
    execFinish s = .next t := by
  rw [execFinish_pending hab hp, awProgram_lost _ hlt h, andThen_next]

/-! ### Power lost inside a turn -/

/-- `v` is the state at the moment power is lost inside a turn that leads from `s` to `u`, once the turn has made `k` records (R163):
these stand in the trace, and the flash is what they made of it. -/
structure PowerGoesAt (k : Nat) (s u v : State) : Prop where
  cut : cutShort k s u = powerLoss v
  params : v.params = s.params
  cmds : v.cmds = u.cmds
  wire : v.wire = s.wire
  trace : v.trace = s.trace ++ (s.news u).take k
  flash : v.flash = if k < (s.news u).length then (((s.news u).take k).foldl replay s).flash else u.flash

theorem exists_powerGoesAt {s u : State} (hturn : consumerTurn s = .next u) (k : Nat) : ∃ v, PowerGoesAt k s u v := by
  have hk := (consumerTurn_lawful hturn).keeps
  obtain ⟨l, htrace, hinside, -⟩ := hk.records
  have hnews : s.news u = l := by simp [State.news, htrace]
  have hcut := cutShort_eq (s := s) htrace k
  by_cases hlt : k < l.length
  · obtain ⟨hparams, hcmds, hwire, htr, -⟩ := replays_keeps (l := l.take k) (s := { s with cmds := u.cmds }) fun e he =>
      hinside e (List.mem_of_mem_take he)
    obtain ⟨hflash, -⟩ := replays_congr (l.take k) (s := { s with cmds := u.cmds }) (t := s) ⟨rfl, rfl⟩
    exact ⟨_, hcut.trans (if_pos hlt), hparams, hcmds, hwire, by rw [hnews]; exact htr, by rw [hnews, if_pos hlt]; exact hflash⟩
  · exact ⟨u, hcut.trans (if_neg hlt), hk.params, rfl, hk.wire,
      by rw [hnews, List.take_of_length_le (Nat.not_lt.1 hlt)]; exact htrace, by rw [hnews, if_neg hlt]⟩

/-- A step inside which power is lost is what its turn made until then, and a hardware reset (R163; log 19). -/
theorem step_powerLost {s u : State} {k : Nat} {later : List Outside} (happ : s.app = none)
    (hwire : s.wire = ⟨some k, []⟩ :: later) (hturn : consumerTurn s = .next u) :
    ∃ v, PowerGoesAt k s u v ∧ step s = .next { powerLoss v with wire := later } := by
  obtain ⟨v, hv⟩ := exists_powerGoesAt hturn k
  have hcut : interrupt s u = powerLoss v := by rw [← hv.cut, interrupt, hwire]
  have hnext : (powerLoss v).wire = ⟨some k, []⟩ :: later := hv.wire.trans hwire
  refine ⟨v, hv, ?_⟩
  simp only [step, happ, hturn, andThen_next, finishStep, hcut, deliver, hnext, List.foldl_nil]

/-! ### VERIFY -/

/-- The records of the two metadata reads (R91). -/
def metadataReads (s : State) : List Event :=
  [.read s.params.metaBase (s.flash.readBytes s.params.metaBase.toNat 4),
   .read (s.params.metaBase + 4#32) (s.flash.readBytes (s.params.metaBase + 4#32).toNat 4)]

theorem fetchMetadata_trace (s : State) : (fetchMetadata s).trace = s.trace ++ metadataReads s := by
  simp [fetchMetadata, State.flashRead, metadataReads]

/-- VERIFY starts with the two reads, and no record of it is a flash transaction (R91, R103, R105). -/
theorem verifyWith_news (crc : List Byte → Word) (s : State) :
    ∃ l, s.news (verifyWith crc s) = metadataReads s ++ l ∧ (metadataReads s ++ l).all Event.quiet = true := by
  unfold verifyWith
  split
  · exact ⟨[.rsp (.iv false)], by simp [State.news, fetchMetadata_trace], rfl⟩
  · refine ⟨[.crc s.params.appBase (BitVec.ofNat 32 s.crcWords) (crc (s.imageBytes s.crcWords)),
      .rsp (.iv (crc (s.imageBytes s.crcWords) == s.appChecksum))], ?_, rfl⟩
    simp only [State.news, State.checksum32, respond_trace, log_trace, fetchMetadata_trace, List.append_assoc, List.drop_left]
    rfl

/-- A CMD record with `op` 3 is VERIFY (R51). -/
theorem consumerTurn_verify {s : State} {c : Cmd} {rest : List Cmd} (hcmds : s.cmds = c :: rest) (hop : c.op = 3#2) :
    consumerTurn s = .next (verifyWith Config.crc32Fn { s with cmds := rest }) := by
  simp [consumerTurn, hcmds, runCmd, decodeCmd, hop, runDecoded, exec, execVerify]

/-- Power lost inside VERIFY finds the flash as it was (R103, R105). -/
theorem PowerGoesAt.verify_flash {k : Nat} {s v : State} {crc : List Byte → Word} {rest : List Cmd}
    (h : PowerGoesAt k s (verifyWith crc { s with cmds := rest }) v) : v.flash = s.flash := by
  obtain ⟨l, hnews, hquiet⟩ := verifyWith_news crc { s with cmds := rest }
  obtain ⟨hflash, -⟩ := verifyWith_untouched crc { s with cmds := rest }
  rw [h.flash]
  split
  · refine (replays_quiet (List.all_eq_true.2 fun e he => ?_) s).1
    exact List.all_eq_true.1 hquiet e (hnews ▸ List.mem_of_mem_take he)
  · exact hflash

/-- Up to the second record of VERIFY neither the checksum nor the response has been given (R91). -/
theorem PowerGoesAt.verify_trace {k : Nat} {s v : State} {crc : List Byte → Word} {rest : List Cmd}
    (h : PowerGoesAt k s (verifyWith crc { s with cmds := rest }) v) (hk : k ≤ 2) :
    v.trace = s.trace ++ (metadataReads s).take k := by
  obtain ⟨l, hnews, -⟩ := verifyWith_news crc { s with cmds := rest }
  have hreads : s.news (verifyWith crc { s with cmds := rest }) = metadataReads s ++ l := hnews
  rw [h.trace, hreads, List.take_append_of_le_length hk]

/-! ### The records of a whole instruction -/

theorem startStream_keeps (op : MultiFrame) (s : State) : Keeps s (startStream op s) := .of_flash rfl rfl rfl ⟨_, rfl, rfl⟩ rfl rfl

/-- What every instruction keeps, whether a command was seen or not. -/
theorem exec_keeps {i : Instr} {s t : State} (h : exec i s = .next t) : Keeps s t := by
  rcases exec_effect h with (rfl | rfl | rfl | rfl) | rfl | he
  · exact (exec_lawful h nofun).keeps
  · cases h; exact startStream_keeps _ s
  · rcases execUpdateApp_cases h with he | ⟨u, he, -, rfl⟩
    · exact he.keeps
    · exact he.keeps.trans (startStream_keeps _ u)
  · exact (execRestart_lawful h).keeps
  · cases h; exact .of_flash rfl rfl rfl ⟨[], by simp⟩ rfl rfl
  · exact he.keeps

/-- Where power held, replaying the records of an instruction gives the flash it left (R43). -/
theorem exec_replay {i : Instr} {s t : State} (h : exec i s = .next t) (hn : .powerLoss ∉ s.news t) :
    ((s.news t).foldl replay s).flash = t.flash := by
  obtain ⟨l, htrace, -, hreplay⟩ := (exec_keeps h).records
  have hnews : s.news t = l := by simp [State.news, htrace]
  rw [hnews] at hn ⊢
  exact (hreplay hn).1

/-! ### The obligations -/

/-- Settles O17: the first program of FEED, and the one program of FINISH, is refused, and abort entry follows (log 26). -/
theorem misalignedBaseAborts : Obligations.MisalignedBaseAborts := by
  refine fun s hab h7 hal => ⟨fun base chunk hmis hlen hlt => ?_, fun hmis hpos hlt => ?_⟩
  · obtain ⟨d, ds, hds⟩ : ∃ d ds, wordsOf (feedStream s chunk) = d :: ds :=
      List.exists_cons_of_length_pos (by rw [wordsOf_feedStream_length, feedPrograms]; omega)
    have haddr : (s.latch base).writeAddr % 8 ≠ 0 := by simp only [State.writeAddr, latch_base, latch_count]; omega
    have hrun := awProgramAll_cons_err ds (awProgram_err (s := s.latch base) 8 hlt (flashProgram_misaligned d haddr hlt))
    rw [← hds] at hrun
    exact ⟨_, d, congrArg List.head? hds, execFeed_err hab h7 hrun, abortEntry_refusedProgram (s.latch base) d⟩
  · have haddr : s.writeAddr % 8 ≠ 0 := by rw [State.writeAddr]; omega
    exact ⟨_, padded s.buf s.pending.val, padded_toList .., execFinish_err hab hpos hlt (flashProgram_misaligned _ haddr hlt),
      abortEntry_refusedProgram s _⟩

/-- Settles O36: a loss of power is `powerLoss` of a state whose trace and flash are those of the records made so far (log 18, 19). -/
theorem powerLossIsReset : Obligations.PowerLossIsReset := by
  refine ⟨fun s hab hpos hal hlo hhi hspace ha => ?_, fun s u k later happ hwire hturn => ?_,
    fun s k c rest later happ hwire hcmds hop => ?_, fun s t i h hn => exec_replay h hn, fun r addr d s hal ha => ?_⟩
  · have hlt : s.writeAddr < addressSpace := by omega
    rw [← writePointer_toNat hlt] at hal hlo hhi ⊢
    have hlost := flashProgram_lostDuring (padded s.buf s.pending.val) hal hlo hhi ha
    obtain ⟨hparams, hread, -⟩ := flashProgram_keeps hlost
    exact ⟨_, execFinish_lost hab hpos hlt hlost, rfl, rfl, rfl, rfl, rfl, rfl, rfl, rfl, rfl, rfl, rfl, rfl, hparams, hread⟩
  · obtain ⟨v, hv, hstep⟩ := step_powerLost happ hwire hturn
    exact ⟨_, hstep, rfl, rfl, rfl, rfl, rfl, rfl, rfl, rfl, rfl, rfl, rfl, rfl, hv.params, hv.cmds, rfl,
      congrArg (· ++ [Event.powerLoss]) hv.trace, hv.flash⟩
  · obtain ⟨v, hv, hstep⟩ := step_powerLost happ hwire (consumerTurn_verify hcmds hop)
    exact ⟨_, hstep, hv.verify_flash, rfl, fun hk => congrArg (· ++ [Event.powerLoss]) (hv.verify_trace hk)⟩
  · exact ⟨_, flashProgram_lostBefore d hal ha, by simp, by simp [powerLoss], rfl⟩

end Sys2Proof.Proofs
end
